-- ==== Sys2Proof/Word.lean ====
section
/-! DEFINITION. The widths of the machine (spec/00_scope.md R7, R12; spec/30_encoding.md R301). -/

namespace Sys2Proof

/-- A 64-bit register value, R100. -/
abbrev Word := BitVec 64

/-- A 64-bit guest (virtual) or bus (physical) address, R200, R201. -/
abbrev Addr := BitVec 64

/-- A 32-bit bus word, which is also an instruction word, R236, R300. -/
abbrev BusWord := BitVec 32

/-- A byte. -/
abbrev Byte := BitVec 8

/-- A 5-bit register field of an instruction word, R301: the number of a general register, or of a
CP0 or CP1 register in a coprocessor move (R313). -/
abbrev RegIdx := BitVec 5

end Sys2Proof
end

