-- ==== Sys2Proof/Syntax.lean ====
section
/-! DEFINITION. The instructions: one constructor for each row of spec/opcode_table.json, in the table's
order. The arguments are the row's operand fields from the high end of the word to the low one
(spec/30_encoding.md R301); the bits outside them and the fixed bits are ignored by the hardware (R322)
and have no argument. -/

namespace Sys2Proof

/-- The class of an opcode row, spec/00_scope.md R6; `ri` marks a row whose words have no handler. -/
inductive RowClass where
  | named
  | family
  | gk
  | ri
deriving DecidableEq, Repr

/-- A row of the opcode table: a word belongs to it when its bits under `mask` are `pattern`. -/
structure OpcodeRow where
  mnemonic : String
  mask     : BusWord
  pattern  : BusWord
  cls      : RowClass
deriving DecidableEq, Repr

/-- The instruction set (spec/30_encoding.md R340 to R346). -/
inductive Instr where
  /-- J, R720 (43_branch_jump.md), class family. -/
  | j (target : BitVec 26)
  /-- JAL, R721 (43_branch_jump.md), class named. -/
  | jal (target : BitVec 26)
  /-- BEQ, R710 (43_branch_jump.md), class family. -/
  | beq (rs rt : RegIdx) (offset : BitVec 16)
  /-- BNE, R711 (43_branch_jump.md), class family. -/
  | bne (rs rt : RegIdx) (offset : BitVec 16)
  /-- BLEZ, R712 (43_branch_jump.md), class family. -/
  | blez (rs : RegIdx) (offset : BitVec 16)
  /-- BGTZ, R713 (43_branch_jump.md), class family. -/
  | bgtz (rs : RegIdx) (offset : BitVec 16)
  /-- ADDI, R500 (41_alu.md), class gk. -/
  | addi (rs rt : RegIdx) (imm : BitVec 16)
  /-- ADDIU, R501 (41_alu.md), class gk. -/
  | addiu (rs rt : RegIdx) (imm : BitVec 16)
  /-- SLTI, R542 (41_alu.md), class gk. -/
  | slti (rs rt : RegIdx) (imm : BitVec 16)
  /-- SLTIU, R543 (41_alu.md), class gk. -/
  | sltiu (rs rt : RegIdx) (imm : BitVec 16)
  /-- ANDI, R534 (41_alu.md), class gk. -/
  | andi (rs rt : RegIdx) (imm : BitVec 16)
  /-- ORI, R535 (41_alu.md), class gk. -/
  | ori (rs rt : RegIdx) (imm : BitVec 16)
  /-- XORI, R536 (41_alu.md), class gk. -/
  | xori (rs rt : RegIdx) (imm : BitVec 16)
  /-- LUI, R537 (41_alu.md), class gk. -/
  | lui (rt : RegIdx) (imm : BitVec 16)
  /-- BEQL, R714 (43_branch_jump.md), class named. -/
  | beql (rs rt : RegIdx) (offset : BitVec 16)
  /-- BNEL, R715 (43_branch_jump.md), class family. -/
  | bnel (rs rt : RegIdx) (offset : BitVec 16)
  /-- BLEZL, R716 (43_branch_jump.md), class family. -/
  | blezl (rs : RegIdx) (offset : BitVec 16)
  /-- BGTZL, R717 (43_branch_jump.md), class family. -/
  | bgtzl (rs : RegIdx) (offset : BitVec 16)
  /-- DADDI, R510 (41_alu.md), class family. -/
  | daddi (rs rt : RegIdx) (imm : BitVec 16)
  /-- DADDIU, R511 (41_alu.md), class family. -/
  | daddiu (rs rt : RegIdx) (imm : BitVec 16)
  /-- LDL, R844 (44_load_store.md), class gk. -/
  | ldl (base rt : RegIdx) (offset : BitVec 16)
  /-- LDR, R845 (44_load_store.md), class gk. -/
  | ldr (base rt : RegIdx) (offset : BitVec 16)
  /-- LB, R810 (44_load_store.md), class family. -/
  | lb (base rt : RegIdx) (offset : BitVec 16)
  /-- LH, R812 (44_load_store.md), class family. -/
  | lh (base rt : RegIdx) (offset : BitVec 16)
  /-- LWL, R840 (44_load_store.md), class gk. -/
  | lwl (base rt : RegIdx) (offset : BitVec 16)
  /-- LW, R814 (44_load_store.md), class family. -/
  | lw (base rt : RegIdx) (offset : BitVec 16)
  /-- LBU, R811 (44_load_store.md), class named. -/
  | lbu (base rt : RegIdx) (offset : BitVec 16)
  /-- LHU, R813 (44_load_store.md), class family. -/
  | lhu (base rt : RegIdx) (offset : BitVec 16)
  /-- LWR, R841 (44_load_store.md), class gk. -/
  | lwr (base rt : RegIdx) (offset : BitVec 16)
  /-- LWU, R815 (44_load_store.md), class gk. -/
  | lwu (base rt : RegIdx) (offset : BitVec 16)
  /-- SB, R820 (44_load_store.md), class named. -/
  | sb (base rt : RegIdx) (offset : BitVec 16)
  /-- SH, R821 (44_load_store.md), class family. -/
  | sh (base rt : RegIdx) (offset : BitVec 16)
  /-- SWL, R842 (44_load_store.md), class gk. -/
  | swl (base rt : RegIdx) (offset : BitVec 16)
  /-- SW, R822 (44_load_store.md), class family. -/
  | sw (base rt : RegIdx) (offset : BitVec 16)
  /-- SDL, R846 (44_load_store.md), class gk. -/
  | sdl (base rt : RegIdx) (offset : BitVec 16)
  /-- SDR, R847 (44_load_store.md), class gk. -/
  | sdr (base rt : RegIdx) (offset : BitVec 16)
  /-- SWR, R843 (44_load_store.md), class gk. -/
  | swr (base rt : RegIdx) (offset : BitVec 16)
  /-- CACHE, R930 (45_system.md), class gk. -/
  | cache (base : RegIdx) (op : BitVec 5) (offset : BitVec 16)
  /-- LL, R860 (44_load_store.md), class family. -/
  | ll (base rt : RegIdx) (offset : BitVec 16)
  /-- LWC1, R1121 (47_cp1_cop.md), class RI. -/
  | lwc1 (base ft : RegIdx) (offset : BitVec 16)
  /-- LWC2, R1121 (47_cp1_cop.md), class RI. -/
  | lwc2 (base ft : RegIdx) (offset : BitVec 16)
  /-- LLD, R861 (44_load_store.md), class gk. -/
  | lld (base rt : RegIdx) (offset : BitVec 16)
  /-- LDC1, R1121 (47_cp1_cop.md), class RI. -/
  | ldc1 (base ft : RegIdx) (offset : BitVec 16)
  /-- LDC2, R1121 (47_cp1_cop.md), class RI. -/
  | ldc2 (base ft : RegIdx) (offset : BitVec 16)
  /-- LD, R816 (44_load_store.md), class family. -/
  | ld (base rt : RegIdx) (offset : BitVec 16)
  /-- SC, R862 (44_load_store.md), class family. -/
  | sc (base rt : RegIdx) (offset : BitVec 16)
  /-- SWC1, R1121 (47_cp1_cop.md), class RI. -/
  | swc1 (base ft : RegIdx) (offset : BitVec 16)
  /-- SWC2, R1121 (47_cp1_cop.md), class RI. -/
  | swc2 (base ft : RegIdx) (offset : BitVec 16)
  /-- SCD, R863 (44_load_store.md), class gk. -/
  | scd (base rt : RegIdx) (offset : BitVec 16)
  /-- SDC1, R1121 (47_cp1_cop.md), class RI. -/
  | sdc1 (base ft : RegIdx) (offset : BitVec 16)
  /-- SDC2, R1121 (47_cp1_cop.md), class RI. -/
  | sdc2 (base ft : RegIdx) (offset : BitVec 16)
  /-- SD, R823 (44_load_store.md), class family. -/
  | sd (base rt : RegIdx) (offset : BitVec 16)
  /-- SLL, R550 (41_alu.md), class named. -/
  | sll (rt : RegIdx) (rd : RegIdx) (sa : BitVec 5)
  /-- ADD, R502 (41_alu.md), class named. -/
  | add (rs rt rd : RegIdx)
  /-- ADDU, R503 (41_alu.md), class named. -/
  | addu (rs rt rd : RegIdx)
  /-- SRL, R551 (41_alu.md), class named. -/
  | srl (rt : RegIdx) (rd : RegIdx) (sa : BitVec 5)
  /-- SUB, R504 (41_alu.md), class named. -/
  | sub (rs rt rd : RegIdx)
  /-- SRA, R552 (41_alu.md), class family. -/
  | sra (rt : RegIdx) (rd : RegIdx) (sa : BitVec 5)
  /-- SUBU, R505 (41_alu.md), class family. -/
  | subu (rs rt rd : RegIdx)
  /-- SLLV, R553 (41_alu.md), class family. -/
  | sllv (rs rt rd : RegIdx)
  /-- AND, R530 (41_alu.md), class gk. -/
  | and (rs rt rd : RegIdx)
  /-- OR, R531 (41_alu.md), class gk. -/
  | or (rs rt rd : RegIdx)
  /-- SRLV, R554 (41_alu.md), class family. -/
  | srlv (rs rt rd : RegIdx)
  /-- XOR, R532 (41_alu.md), class gk. -/
  | xor (rs rt rd : RegIdx)
  /-- SRAV, R555 (41_alu.md), class family. -/
  | srav (rs rt rd : RegIdx)
  /-- NOR, R533 (41_alu.md), class gk. -/
  | nor (rs rt rd : RegIdx)
  /-- JR, R722 (43_branch_jump.md), class family. -/
  | jr (rs : RegIdx)
  /-- JALR, R723 (43_branch_jump.md), class named. -/
  | jalr (rs rd : RegIdx)
  /-- SLT, R540 (41_alu.md), class gk. -/
  | slt (rs rt rd : RegIdx)
  /-- SLTU, R541 (41_alu.md), class gk. -/
  | sltu (rs rt rd : RegIdx)
  /-- SYSCALL, R900 (45_system.md), class gk. -/
  | syscall (code : BitVec 20)
  /-- DADD, R512 (41_alu.md), class family. -/
  | dadd (rs rt rd : RegIdx)
  /-- BREAK, R901 (45_system.md), class gk. -/
  | break_ (code : BitVec 20)
  /-- DADDU, R513 (41_alu.md), class family. -/
  | daddu (rs rt rd : RegIdx)
  /-- DSUB, R514 (41_alu.md), class family. -/
  | dsub (rs rt rd : RegIdx)
  /-- SYNC, R931 (45_system.md), class gk. -/
  | sync (stype : BitVec 5)
  /-- DSUBU, R515 (41_alu.md), class family. -/
  | dsubu (rs rt rd : RegIdx)
  /-- MFHI, R620 (42_muldiv.md), class gk. -/
  | mfhi (rd : RegIdx)
  /-- TGE, R910 (45_system.md), class gk. -/
  | tge (rs rt : RegIdx) (code : BitVec 10)
  /-- MTHI, R621 (42_muldiv.md), class gk. -/
  | mthi (rs : RegIdx)
  /-- TGEU, R911 (45_system.md), class gk. -/
  | tgeu (rs rt : RegIdx) (code : BitVec 10)
  /-- MFLO, R622 (42_muldiv.md), class gk. -/
  | mflo (rd : RegIdx)
  /-- TLT, R912 (45_system.md), class gk. -/
  | tlt (rs rt : RegIdx) (code : BitVec 10)
  /-- MTLO, R623 (42_muldiv.md), class gk. -/
  | mtlo (rs : RegIdx)
  /-- TLTU, R913 (45_system.md), class gk. -/
  | tltu (rs rt : RegIdx) (code : BitVec 10)
  /-- DSLLV, R562 (41_alu.md), class family. -/
  | dsllv (rs rt rd : RegIdx)
  /-- TEQ, R914 (45_system.md), class gk. -/
  | teq (rs rt : RegIdx) (code : BitVec 10)
  /-- DSRLV, R563 (41_alu.md), class family. -/
  | dsrlv (rs rt rd : RegIdx)
  /-- TNE, R915 (45_system.md), class gk. -/
  | tne (rs rt : RegIdx) (code : BitVec 10)
  /-- DSRAV, R564 (41_alu.md), class family. -/
  | dsrav (rs rt rd : RegIdx)
  /-- MULT, R600 (42_muldiv.md), class family. -/
  | mult (rs rt : RegIdx)
  /-- DSLL, R556 (41_alu.md), class family. -/
  | dsll (rt : RegIdx) (rd : RegIdx) (sa : BitVec 5)
  /-- MULTU, R601 (42_muldiv.md), class family. -/
  | multu (rs rt : RegIdx)
  /-- DIV, R602 (42_muldiv.md), class family. -/
  | div (rs rt : RegIdx)
  /-- DSRL, R557 (41_alu.md), class family. -/
  | dsrl (rt : RegIdx) (rd : RegIdx) (sa : BitVec 5)
  /-- DIVU, R603 (42_muldiv.md), class named. -/
  | divu (rs rt : RegIdx)
  /-- DSRA, R558 (41_alu.md), class family. -/
  | dsra (rt : RegIdx) (rd : RegIdx) (sa : BitVec 5)
  /-- DMULT, R604 (42_muldiv.md), class family. -/
  | dmult (rs rt : RegIdx)
  /-- DSLL32, R559 (41_alu.md), class family. -/
  | dsll32 (rt : RegIdx) (rd : RegIdx) (sa : BitVec 5)
  /-- DMULTU, R605 (42_muldiv.md), class named. -/
  | dmultu (rs rt : RegIdx)
  /-- DDIV, R606 (42_muldiv.md), class family. -/
  | ddiv (rs rt : RegIdx)
  /-- DSRL32, R560 (41_alu.md), class family. -/
  | dsrl32 (rt : RegIdx) (rd : RegIdx) (sa : BitVec 5)
  /-- DDIVU, R607 (42_muldiv.md), class named. -/
  | ddivu (rs rt : RegIdx)
  /-- DSRA32, R561 (41_alu.md), class family. -/
  | dsra32 (rt : RegIdx) (rd : RegIdx) (sa : BitVec 5)
  /-- BLTZ, R740 (43_branch_jump.md), class family. -/
  | bltz (rs : RegIdx) (offset : BitVec 16)
  /-- BGEZ, R741 (43_branch_jump.md), class family. -/
  | bgez (rs : RegIdx) (offset : BitVec 16)
  /-- BLTZL, R742 (43_branch_jump.md), class family. -/
  | bltzl (rs : RegIdx) (offset : BitVec 16)
  /-- BGEZL, R743 (43_branch_jump.md), class family. -/
  | bgezl (rs : RegIdx) (offset : BitVec 16)
  /-- TGEI, R920 (45_system.md), class gk. -/
  | tgei (rs : RegIdx) (imm : BitVec 16)
  /-- TGEIU, R921 (45_system.md), class gk. -/
  | tgeiu (rs : RegIdx) (imm : BitVec 16)
  /-- TLTI, R922 (45_system.md), class gk. -/
  | tlti (rs : RegIdx) (imm : BitVec 16)
  /-- TLTIU, R923 (45_system.md), class gk. -/
  | tltiu (rs : RegIdx) (imm : BitVec 16)
  /-- TEQI, R924 (45_system.md), class gk. -/
  | teqi (rs : RegIdx) (imm : BitVec 16)
  /-- TNEI, R925 (45_system.md), class gk. -/
  | tnei (rs : RegIdx) (imm : BitVec 16)
  /-- BLTZAL, R744 (43_branch_jump.md), class family. -/
  | bltzal (rs : RegIdx) (offset : BitVec 16)
  /-- BGEZAL, R745 (43_branch_jump.md), class named. -/
  | bgezal (rs : RegIdx) (offset : BitVec 16)
  /-- BLTZALL, R746 (43_branch_jump.md), class family. -/
  | bltzall (rs : RegIdx) (offset : BitVec 16)
  /-- BGEZALL, R747 (43_branch_jump.md), class family. -/
  | bgezall (rs : RegIdx) (offset : BitVec 16)
  /-- MFC0, R1000 (46_cp0.md), class named. -/
  | mfc0 (rt rd : RegIdx)
  /-- DMFC0, R1001 (46_cp0.md), class gk. -/
  | dmfc0 (rt rd : RegIdx)
  /-- MTC0, R1010 (46_cp0.md), class named. -/
  | mtc0 (rt rd : RegIdx)
  /-- DMTC0, R1011 (46_cp0.md), class gk. -/
  | dmtc0 (rt rd : RegIdx)
  /-- BC0, R1050 (46_cp0.md), class RI. -/
  | bc0 (ndTf : BitVec 2) (offset : BitVec 16)
  /-- TLBR, R1021 (46_cp0.md), class RI. -/
  | tlbr
  /-- TLBWI, R1020 (46_cp0.md), class named. -/
  | tlbwi
  /-- TLBWR, R1021 (46_cp0.md), class RI. -/
  | tlbwr
  /-- TLBP, R1021 (46_cp0.md), class RI. -/
  | tlbp
  /-- ERET, R1040 (46_cp0.md), class named. -/
  | eret
  /-- CFC1, R1100 (47_cp1_cop.md), class named. -/
  | cfc1 (rt fs : RegIdx)
  /-- CTC1, R1110 (47_cp1_cop.md), class named. -/
  | ctc1 (rt fs : RegIdx)
  /-- MFC1, R1120 (47_cp1_cop.md), class RI. -/
  | mfc1 (rt fs : RegIdx)
  /-- DMFC1, R1120 (47_cp1_cop.md), class RI. -/
  | dmfc1 (rt fs : RegIdx)
  /-- MTC1, R1120 (47_cp1_cop.md), class RI. -/
  | mtc1 (rt fs : RegIdx)
  /-- DMTC1, R1120 (47_cp1_cop.md), class RI. -/
  | dmtc1 (rt fs : RegIdx)
  /-- BC1, R1120 (47_cp1_cop.md), class RI. -/
  | bc1 (ndTf : BitVec 2) (offset : BitVec 16)
  /-- COP1.S, R1120 (47_cp1_cop.md), class RI. -/
  | cop1S (ft fs fd : RegIdx) (funct : BitVec 6)
  /-- COP1.D, R1120 (47_cp1_cop.md), class RI. -/
  | cop1D (ft fs fd : RegIdx) (funct : BitVec 6)
  /-- COP1.W, R1120 (47_cp1_cop.md), class RI. -/
  | cop1W (ft fs fd : RegIdx) (funct : BitVec 6)
  /-- COP1.L, R1120 (47_cp1_cop.md), class RI. -/
  | cop1L (ft fs fd : RegIdx) (funct : BitVec 6)
  /-- COP2, R1130 (47_cp1_cop.md), class RI. -/
  | cop2 (cofun : BitVec 26)
  /-- COP3, R1130 (47_cp1_cop.md), class RI. -/
  | cop3 (cofun : BitVec 26)
deriving DecidableEq, Repr

end Sys2Proof
end

