-- ==== Sys2Proof/Decode.lean ====
section
/-! DEFINITION. The decoder and the encoder (spec/30_encoding.md). The decoder follows the maps R340 to
R346 and rejects every other word by name; the encoder is written from the formats R302 to R306 and the
numbers of the same maps. -/

namespace Sys2Proof

/-! ## Fields of an instruction word, R301 -/

/-- Bits 31:26. -/
def opcodeOf (w : BusWord) : BitVec 6 := w.extractLsb' 26 6
/-- Bits 25:21; the base register of a load, store or CACHE, and the sub-opcode of COPz. -/
def rsOf (w : BusWord) : RegIdx := w.extractLsb' 21 5
/-- Bits 20:16; the REGIMM sub-opcode and the CACHE op. -/
def rtOf (w : BusWord) : RegIdx := w.extractLsb' 16 5
/-- Bits 15:11; the CP0 or CP1 register number of a coprocessor move. -/
def rdOf (w : BusWord) : RegIdx := w.extractLsb' 11 5
/-- Bits 10:6. -/
def saOf (w : BusWord) : BitVec 5 := w.extractLsb' 6 5
/-- Bits 5:0. -/
def functOf (w : BusWord) : BitVec 6 := w.extractLsb' 0 6
/-- Bits 15:0. -/
def immOf (w : BusWord) : BitVec 16 := w.extractLsb' 0 16
/-- Bits 25:0. -/
def targetOf (w : BusWord) : BitVec 26 := w.extractLsb' 0 26
/-- The code field of SYSCALL and BREAK, bits 25:6 (R900). -/
def code20Of (w : BusWord) : BitVec 20 := w.extractLsb' 6 20
/-- The code field of the register traps, bits 15:6 (R910). -/
def code10Of (w : BusWord) : BitVec 10 := w.extractLsb' 6 10
/-- The nd and tf bits of a coprocessor branch, bits 17:16 (opcode_table.json). -/
def ndTfOf (w : BusWord) : BitVec 2 := w.extractLsb' 16 2
/-- The coprocessor unit number, bits 27:26, of a word that has the view (R330). -/
def unitOf (w : BusWord) : BitVec 2 := w.extractLsb' 26 2

/-- R330: a word carries a coprocessor unit number when its opcode is 0b0100zz. -/
def hasUnit (w : BusWord) : Bool := w.extractLsb' 28 4 == 0b0100#4

/-- The dispatch key, R320. -/
def dispatchKey (w : BusWord) : BusWord :=
  if opcodeOf w = 0x00#6 then w &&& 0xFC00003F#32
  else if opcodeOf w = 0x01#6 then w &&& 0xFC1F0000#32
  else w &&& 0xFC000000#32

/-- `From(opcode)` of R321: the canonical key of a primary opcode. -/
def keyOfOpcode (op : BitVec 6) : BusWord := op ++ 0#26

/-- `From(specialOpcode)` of R321. -/
def keyOfSpecial (funct : BitVec 6) : BusWord := 0#26 ++ funct

/-- `From(regImmOpcode)` of R321. -/
def keyOfRegimm (rt : BitVec 5) : BusWord := 0x01#6 ++ 0#5 ++ rt ++ 0#16

/-! ## The decoder -/

/-- Why bytes are no instruction of the table. The machine still executes such a word: it takes the
Coprocessor Unusable or Reserved Instruction exception (spec/40_engine.md R410). -/
inductive DecodeError where
  /-- Fewer than four bytes (R300). -/
  | truncated
  /-- No entry of the primary map, R340. -/
  | reservedPrimary (opcode : BitVec 6)
  /-- No entry of the SPECIAL map, R341. -/
  | reservedSpecial (funct : BitVec 6)
  /-- No entry of the REGIMM map, R342. -/
  | reservedRegimm (rt : BitVec 5)
  /-- A COP0 word in no row: rs not listed by R344, or co = 1 with a funct R344 calls reserved. -/
  | reservedCop0 (rs : BitVec 5) (funct : BitVec 6)
  /-- A COP1 word whose rs names no row, R345. -/
  | reservedCop1 (rs : BitVec 5)
deriving DecidableEq, Repr

/-- The SPECIAL map, R341. -/
def decodeSpecial (w : BusWord) : Except DecodeError Instr :=
  match functOf w with
  | 0x00#6 => .ok (.sll (rtOf w) (rdOf w) (saOf w))
  | 0x02#6 => .ok (.srl (rtOf w) (rdOf w) (saOf w))
  | 0x03#6 => .ok (.sra (rtOf w) (rdOf w) (saOf w))
  | 0x04#6 => .ok (.sllv (rsOf w) (rtOf w) (rdOf w))
  | 0x06#6 => .ok (.srlv (rsOf w) (rtOf w) (rdOf w))
  | 0x07#6 => .ok (.srav (rsOf w) (rtOf w) (rdOf w))
  | 0x08#6 => .ok (.jr (rsOf w))
  | 0x09#6 => .ok (.jalr (rsOf w) (rdOf w))
  | 0x0C#6 => .ok (.syscall (code20Of w))
  | 0x0D#6 => .ok (.break_ (code20Of w))
  | 0x0F#6 => .ok (.sync (saOf w))
  | 0x10#6 => .ok (.mfhi (rdOf w))
  | 0x11#6 => .ok (.mthi (rsOf w))
  | 0x12#6 => .ok (.mflo (rdOf w))
  | 0x13#6 => .ok (.mtlo (rsOf w))
  | 0x14#6 => .ok (.dsllv (rsOf w) (rtOf w) (rdOf w))
  | 0x16#6 => .ok (.dsrlv (rsOf w) (rtOf w) (rdOf w))
  | 0x17#6 => .ok (.dsrav (rsOf w) (rtOf w) (rdOf w))
  | 0x18#6 => .ok (.mult (rsOf w) (rtOf w))
  | 0x19#6 => .ok (.multu (rsOf w) (rtOf w))
  | 0x1A#6 => .ok (.div (rsOf w) (rtOf w))
  | 0x1B#6 => .ok (.divu (rsOf w) (rtOf w))
  | 0x1C#6 => .ok (.dmult (rsOf w) (rtOf w))
  | 0x1D#6 => .ok (.dmultu (rsOf w) (rtOf w))
  | 0x1E#6 => .ok (.ddiv (rsOf w) (rtOf w))
  | 0x1F#6 => .ok (.ddivu (rsOf w) (rtOf w))
  | 0x20#6 => .ok (.add (rsOf w) (rtOf w) (rdOf w))
  | 0x21#6 => .ok (.addu (rsOf w) (rtOf w) (rdOf w))
  | 0x22#6 => .ok (.sub (rsOf w) (rtOf w) (rdOf w))
  | 0x23#6 => .ok (.subu (rsOf w) (rtOf w) (rdOf w))
  | 0x24#6 => .ok (.and (rsOf w) (rtOf w) (rdOf w))
  | 0x25#6 => .ok (.or (rsOf w) (rtOf w) (rdOf w))
  | 0x26#6 => .ok (.xor (rsOf w) (rtOf w) (rdOf w))
  | 0x27#6 => .ok (.nor (rsOf w) (rtOf w) (rdOf w))
  | 0x2A#6 => .ok (.slt (rsOf w) (rtOf w) (rdOf w))
  | 0x2B#6 => .ok (.sltu (rsOf w) (rtOf w) (rdOf w))
  | 0x2C#6 => .ok (.dadd (rsOf w) (rtOf w) (rdOf w))
  | 0x2D#6 => .ok (.daddu (rsOf w) (rtOf w) (rdOf w))
  | 0x2E#6 => .ok (.dsub (rsOf w) (rtOf w) (rdOf w))
  | 0x2F#6 => .ok (.dsubu (rsOf w) (rtOf w) (rdOf w))
  | 0x30#6 => .ok (.tge (rsOf w) (rtOf w) (code10Of w))
  | 0x31#6 => .ok (.tgeu (rsOf w) (rtOf w) (code10Of w))
  | 0x32#6 => .ok (.tlt (rsOf w) (rtOf w) (code10Of w))
  | 0x33#6 => .ok (.tltu (rsOf w) (rtOf w) (code10Of w))
  | 0x34#6 => .ok (.teq (rsOf w) (rtOf w) (code10Of w))
  | 0x36#6 => .ok (.tne (rsOf w) (rtOf w) (code10Of w))
  | 0x38#6 => .ok (.dsll (rtOf w) (rdOf w) (saOf w))
  | 0x3A#6 => .ok (.dsrl (rtOf w) (rdOf w) (saOf w))
  | 0x3B#6 => .ok (.dsra (rtOf w) (rdOf w) (saOf w))
  | 0x3C#6 => .ok (.dsll32 (rtOf w) (rdOf w) (saOf w))
  | 0x3E#6 => .ok (.dsrl32 (rtOf w) (rdOf w) (saOf w))
  | 0x3F#6 => .ok (.dsra32 (rtOf w) (rdOf w) (saOf w))
  | f => .error (.reservedSpecial f)

/-- The REGIMM map, R342. -/
def decodeRegimm (w : BusWord) : Except DecodeError Instr :=
  match rtOf w with
  | 0x00#5 => .ok (.bltz (rsOf w) (immOf w))
  | 0x01#5 => .ok (.bgez (rsOf w) (immOf w))
  | 0x02#5 => .ok (.bltzl (rsOf w) (immOf w))
  | 0x03#5 => .ok (.bgezl (rsOf w) (immOf w))
  | 0x08#5 => .ok (.tgei (rsOf w) (immOf w))
  | 0x09#5 => .ok (.tgeiu (rsOf w) (immOf w))
  | 0x0A#5 => .ok (.tlti (rsOf w) (immOf w))
  | 0x0B#5 => .ok (.tltiu (rsOf w) (immOf w))
  | 0x0C#5 => .ok (.teqi (rsOf w) (immOf w))
  | 0x0E#5 => .ok (.tnei (rsOf w) (immOf w))
  | 0x10#5 => .ok (.bltzal (rsOf w) (immOf w))
  | 0x11#5 => .ok (.bgezal (rsOf w) (immOf w))
  | 0x12#5 => .ok (.bltzall (rsOf w) (immOf w))
  | 0x13#5 => .ok (.bgezall (rsOf w) (immOf w))
  | r => .error (.reservedRegimm r)

/-- COP0 words with co = 1, R344. -/
def decodeCop0Co (w : BusWord) : Except DecodeError Instr :=
  match functOf w with
  | 0x01#6 => .ok .tlbr
  | 0x02#6 => .ok .tlbwi
  | 0x06#6 => .ok .tlbwr
  | 0x08#6 => .ok .tlbp
  | 0x18#6 => .ok .eret
  | f => .error (.reservedCop0 (rsOf w) f)

/-- COP0 words, R344. Bit 25 is the co bit; rs 0x10 to 0x1F are selected by funct. -/
def decodeCop0 (w : BusWord) : Except DecodeError Instr :=
  if w.getLsbD 25 then decodeCop0Co w else
  match rsOf w with
  | 0x00#5 => .ok (.mfc0 (rtOf w) (rdOf w))
  | 0x01#5 => .ok (.dmfc0 (rtOf w) (rdOf w))
  | 0x04#5 => .ok (.mtc0 (rtOf w) (rdOf w))
  | 0x05#5 => .ok (.dmtc0 (rtOf w) (rdOf w))
  | 0x08#5 => .ok (.bc0 (ndTfOf w) (immOf w))
  | r => .error (.reservedCop0 r (functOf w))

/-- COP1 words, R345. -/
def decodeCop1 (w : BusWord) : Except DecodeError Instr :=
  match rsOf w with
  | 0x00#5 => .ok (.mfc1 (rtOf w) (rdOf w))
  | 0x01#5 => .ok (.dmfc1 (rtOf w) (rdOf w))
  | 0x02#5 => .ok (.cfc1 (rtOf w) (rdOf w))
  | 0x04#5 => .ok (.mtc1 (rtOf w) (rdOf w))
  | 0x05#5 => .ok (.dmtc1 (rtOf w) (rdOf w))
  | 0x06#5 => .ok (.ctc1 (rtOf w) (rdOf w))
  | 0x08#5 => .ok (.bc1 (ndTfOf w) (immOf w))
  | 0x10#5 => .ok (.cop1S (rtOf w) (rdOf w) (saOf w) (functOf w))
  | 0x11#5 => .ok (.cop1D (rtOf w) (rdOf w) (saOf w) (functOf w))
  | 0x14#5 => .ok (.cop1W (rtOf w) (rdOf w) (saOf w) (functOf w))
  | 0x15#5 => .ok (.cop1L (rtOf w) (rdOf w) (saOf w) (functOf w))
  | r => .error (.reservedCop1 r)

/-- The instruction a word is, by the primary map R340; total, and rejecting by name. -/
def decode (w : BusWord) : Except DecodeError Instr :=
  match opcodeOf w with
  | 0x00#6 => decodeSpecial w
  | 0x01#6 => decodeRegimm w
  | 0x02#6 => .ok (.j (targetOf w))
  | 0x03#6 => .ok (.jal (targetOf w))
  | 0x04#6 => .ok (.beq (rsOf w) (rtOf w) (immOf w))
  | 0x05#6 => .ok (.bne (rsOf w) (rtOf w) (immOf w))
  | 0x06#6 => .ok (.blez (rsOf w) (immOf w))
  | 0x07#6 => .ok (.bgtz (rsOf w) (immOf w))
  | 0x08#6 => .ok (.addi (rsOf w) (rtOf w) (immOf w))
  | 0x09#6 => .ok (.addiu (rsOf w) (rtOf w) (immOf w))
  | 0x0A#6 => .ok (.slti (rsOf w) (rtOf w) (immOf w))
  | 0x0B#6 => .ok (.sltiu (rsOf w) (rtOf w) (immOf w))
  | 0x0C#6 => .ok (.andi (rsOf w) (rtOf w) (immOf w))
  | 0x0D#6 => .ok (.ori (rsOf w) (rtOf w) (immOf w))
  | 0x0E#6 => .ok (.xori (rsOf w) (rtOf w) (immOf w))
  | 0x0F#6 => .ok (.lui (rtOf w) (immOf w))
  | 0x10#6 => decodeCop0 w
  | 0x11#6 => decodeCop1 w
  | 0x12#6 => .ok (.cop2 (targetOf w))
  | 0x13#6 => .ok (.cop3 (targetOf w))
  | 0x14#6 => .ok (.beql (rsOf w) (rtOf w) (immOf w))
  | 0x15#6 => .ok (.bnel (rsOf w) (rtOf w) (immOf w))
  | 0x16#6 => .ok (.blezl (rsOf w) (immOf w))
  | 0x17#6 => .ok (.bgtzl (rsOf w) (immOf w))
  | 0x18#6 => .ok (.daddi (rsOf w) (rtOf w) (immOf w))
  | 0x19#6 => .ok (.daddiu (rsOf w) (rtOf w) (immOf w))
  | 0x1A#6 => .ok (.ldl (rsOf w) (rtOf w) (immOf w))
  | 0x1B#6 => .ok (.ldr (rsOf w) (rtOf w) (immOf w))
  | 0x20#6 => .ok (.lb (rsOf w) (rtOf w) (immOf w))
  | 0x21#6 => .ok (.lh (rsOf w) (rtOf w) (immOf w))
  | 0x22#6 => .ok (.lwl (rsOf w) (rtOf w) (immOf w))
  | 0x23#6 => .ok (.lw (rsOf w) (rtOf w) (immOf w))
  | 0x24#6 => .ok (.lbu (rsOf w) (rtOf w) (immOf w))
  | 0x25#6 => .ok (.lhu (rsOf w) (rtOf w) (immOf w))
  | 0x26#6 => .ok (.lwr (rsOf w) (rtOf w) (immOf w))
  | 0x27#6 => .ok (.lwu (rsOf w) (rtOf w) (immOf w))
  | 0x28#6 => .ok (.sb (rsOf w) (rtOf w) (immOf w))
  | 0x29#6 => .ok (.sh (rsOf w) (rtOf w) (immOf w))
  | 0x2A#6 => .ok (.swl (rsOf w) (rtOf w) (immOf w))
  | 0x2B#6 => .ok (.sw (rsOf w) (rtOf w) (immOf w))
  | 0x2C#6 => .ok (.sdl (rsOf w) (rtOf w) (immOf w))
  | 0x2D#6 => .ok (.sdr (rsOf w) (rtOf w) (immOf w))
  | 0x2E#6 => .ok (.swr (rsOf w) (rtOf w) (immOf w))
  | 0x2F#6 => .ok (.cache (rsOf w) (rtOf w) (immOf w))
  | 0x30#6 => .ok (.ll (rsOf w) (rtOf w) (immOf w))
  | 0x31#6 => .ok (.lwc1 (rsOf w) (rtOf w) (immOf w))
  | 0x32#6 => .ok (.lwc2 (rsOf w) (rtOf w) (immOf w))
  | 0x34#6 => .ok (.lld (rsOf w) (rtOf w) (immOf w))
  | 0x35#6 => .ok (.ldc1 (rsOf w) (rtOf w) (immOf w))
  | 0x36#6 => .ok (.ldc2 (rsOf w) (rtOf w) (immOf w))
  | 0x37#6 => .ok (.ld (rsOf w) (rtOf w) (immOf w))
  | 0x38#6 => .ok (.sc (rsOf w) (rtOf w) (immOf w))
  | 0x39#6 => .ok (.swc1 (rsOf w) (rtOf w) (immOf w))
  | 0x3A#6 => .ok (.swc2 (rsOf w) (rtOf w) (immOf w))
  | 0x3C#6 => .ok (.scd (rsOf w) (rtOf w) (immOf w))
  | 0x3D#6 => .ok (.sdc1 (rsOf w) (rtOf w) (immOf w))
  | 0x3E#6 => .ok (.sdc2 (rsOf w) (rtOf w) (immOf w))
  | 0x3F#6 => .ok (.sd (rsOf w) (rtOf w) (immOf w))
  | o => .error (.reservedPrimary o)

/-- The bus word of four bytes, the first at the lowest address. Instruction words lie in memory with
their most significant byte at the lowest address: the byte order of R247 for Config.BE = 1, which
`State.mem` uses for every bus word (log 10). -/
def wordOfBytes (b0 b1 b2 b3 : Byte) : BusWord := b0 ++ b1 ++ b2 ++ b3

/-- The four bytes of a bus word, the first at the lowest address. -/
def bytesOfWord (w : BusWord) : List Byte :=
  [w.extractLsb' 24 8, w.extractLsb' 16 8, w.extractLsb' 8 8, w.extractLsb' 0 8]

/-- The instruction at the head of a byte string, and the bytes after it (R300: always four bytes). -/
def decodeBytes : List Byte → Except DecodeError (Instr × List Byte)
  | b0 :: b1 :: b2 :: b3 :: rest =>
    match decode (wordOfBytes b0 b1 b2 b3) with
    | .ok i => .ok (i, rest)
    | .error e => .error e
  | _ => .error .truncated

/-- The instruction word of a table row whose low `nbits` bits are `w` (the bits above are 0). -/
def tableWord (nbits w : Nat) : BusWord := BitVec.ofNat 32 (w % 2 ^ nbits)

/-- What the decoder reads from an instruction numbered as spec/opcode_table.json numbers its bits. -/
def decodeTableWord (nbits w : Nat) : Option Instr :=
  match decodeBytes (bytesOfWord (tableWord nbits w)) with
  | .ok (i, _) => some i
  | .error _ => none

/-! ## The encoder -/

/-- R and COPz formats, R302 and R306. -/
def rFormat (op : BitVec 6) (rs rt rd sa : BitVec 5) (funct : BitVec 6) : BusWord :=
  op ++ rs ++ rt ++ rd ++ sa ++ funct

/-- I and REGIMM formats, R303 and R305. -/
def iFormat (op : BitVec 6) (rs rt : BitVec 5) (imm : BitVec 16) : BusWord := op ++ rs ++ rt ++ imm

/-- J format, R304; also a COP2 or COP3 word. -/
def jFormat (op : BitVec 6) (target : BitVec 26) : BusWord := op ++ target

/-- SYSCALL and BREAK: SPECIAL with a 20-bit code field, R900. -/
def codeFormat (code : BitVec 20) (funct : BitVec 6) : BusWord := 0x00#6 ++ code ++ funct

/-- Register traps: SPECIAL with a 10-bit code field, R910. -/
def trapFormat (rs rt : BitVec 5) (code : BitVec 10) (funct : BitVec 6) : BusWord :=
  0x00#6 ++ rs ++ rt ++ code ++ funct

/-- The word of an instruction; the ignored bits (R322) are 0. -/
def encode : Instr → BusWord
  | .j target => jFormat 0x02#6 target
  | .jal target => jFormat 0x03#6 target
  | .beq rs rt offset => iFormat 0x04#6 rs rt offset
  | .bne rs rt offset => iFormat 0x05#6 rs rt offset
  | .blez rs offset => iFormat 0x06#6 rs 0#5 offset
  | .bgtz rs offset => iFormat 0x07#6 rs 0#5 offset
  | .addi rs rt imm => iFormat 0x08#6 rs rt imm
  | .addiu rs rt imm => iFormat 0x09#6 rs rt imm
  | .slti rs rt imm => iFormat 0x0A#6 rs rt imm
  | .sltiu rs rt imm => iFormat 0x0B#6 rs rt imm
  | .andi rs rt imm => iFormat 0x0C#6 rs rt imm
  | .ori rs rt imm => iFormat 0x0D#6 rs rt imm
  | .xori rs rt imm => iFormat 0x0E#6 rs rt imm
  | .lui rt imm => iFormat 0x0F#6 0#5 rt imm
  | .beql rs rt offset => iFormat 0x14#6 rs rt offset
  | .bnel rs rt offset => iFormat 0x15#6 rs rt offset
  | .blezl rs offset => iFormat 0x16#6 rs 0#5 offset
  | .bgtzl rs offset => iFormat 0x17#6 rs 0#5 offset
  | .daddi rs rt imm => iFormat 0x18#6 rs rt imm
  | .daddiu rs rt imm => iFormat 0x19#6 rs rt imm
  | .ldl base rt offset => iFormat 0x1A#6 base rt offset
  | .ldr base rt offset => iFormat 0x1B#6 base rt offset
  | .lb base rt offset => iFormat 0x20#6 base rt offset
  | .lh base rt offset => iFormat 0x21#6 base rt offset
  | .lwl base rt offset => iFormat 0x22#6 base rt offset
  | .lw base rt offset => iFormat 0x23#6 base rt offset
  | .lbu base rt offset => iFormat 0x24#6 base rt offset
  | .lhu base rt offset => iFormat 0x25#6 base rt offset
  | .lwr base rt offset => iFormat 0x26#6 base rt offset
  | .lwu base rt offset => iFormat 0x27#6 base rt offset
  | .sb base rt offset => iFormat 0x28#6 base rt offset
  | .sh base rt offset => iFormat 0x29#6 base rt offset
  | .swl base rt offset => iFormat 0x2A#6 base rt offset
  | .sw base rt offset => iFormat 0x2B#6 base rt offset
  | .sdl base rt offset => iFormat 0x2C#6 base rt offset
  | .sdr base rt offset => iFormat 0x2D#6 base rt offset
  | .swr base rt offset => iFormat 0x2E#6 base rt offset
  | .cache base op offset => iFormat 0x2F#6 base op offset
  | .ll base rt offset => iFormat 0x30#6 base rt offset
  | .lwc1 base ft offset => iFormat 0x31#6 base ft offset
  | .lwc2 base ft offset => iFormat 0x32#6 base ft offset
  | .lld base rt offset => iFormat 0x34#6 base rt offset
  | .ldc1 base ft offset => iFormat 0x35#6 base ft offset
  | .ldc2 base ft offset => iFormat 0x36#6 base ft offset
  | .ld base rt offset => iFormat 0x37#6 base rt offset
  | .sc base rt offset => iFormat 0x38#6 base rt offset
  | .swc1 base ft offset => iFormat 0x39#6 base ft offset
  | .swc2 base ft offset => iFormat 0x3A#6 base ft offset
  | .scd base rt offset => iFormat 0x3C#6 base rt offset
  | .sdc1 base ft offset => iFormat 0x3D#6 base ft offset
  | .sdc2 base ft offset => iFormat 0x3E#6 base ft offset
  | .sd base rt offset => iFormat 0x3F#6 base rt offset
  | .sll rt rd sa => rFormat 0x00#6 0#5 rt rd sa 0x00#6
  | .add rs rt rd => rFormat 0x00#6 rs rt rd 0#5 0x20#6
  | .addu rs rt rd => rFormat 0x00#6 rs rt rd 0#5 0x21#6
  | .srl rt rd sa => rFormat 0x00#6 0#5 rt rd sa 0x02#6
  | .sub rs rt rd => rFormat 0x00#6 rs rt rd 0#5 0x22#6
  | .sra rt rd sa => rFormat 0x00#6 0#5 rt rd sa 0x03#6
  | .subu rs rt rd => rFormat 0x00#6 rs rt rd 0#5 0x23#6
  | .sllv rs rt rd => rFormat 0x00#6 rs rt rd 0#5 0x04#6
  | .and rs rt rd => rFormat 0x00#6 rs rt rd 0#5 0x24#6
  | .or rs rt rd => rFormat 0x00#6 rs rt rd 0#5 0x25#6
  | .srlv rs rt rd => rFormat 0x00#6 rs rt rd 0#5 0x06#6
  | .xor rs rt rd => rFormat 0x00#6 rs rt rd 0#5 0x26#6
  | .srav rs rt rd => rFormat 0x00#6 rs rt rd 0#5 0x07#6
  | .nor rs rt rd => rFormat 0x00#6 rs rt rd 0#5 0x27#6
  | .jr rs => rFormat 0x00#6 rs 0#5 0#5 0#5 0x08#6
  | .jalr rs rd => rFormat 0x00#6 rs 0#5 rd 0#5 0x09#6
  | .slt rs rt rd => rFormat 0x00#6 rs rt rd 0#5 0x2A#6
  | .sltu rs rt rd => rFormat 0x00#6 rs rt rd 0#5 0x2B#6
  | .syscall code => codeFormat code 0x0C#6
  | .dadd rs rt rd => rFormat 0x00#6 rs rt rd 0#5 0x2C#6
  | .break_ code => codeFormat code 0x0D#6
  | .daddu rs rt rd => rFormat 0x00#6 rs rt rd 0#5 0x2D#6
  | .dsub rs rt rd => rFormat 0x00#6 rs rt rd 0#5 0x2E#6
  | .sync stype => rFormat 0x00#6 0#5 0#5 0#5 stype 0x0F#6
  | .dsubu rs rt rd => rFormat 0x00#6 rs rt rd 0#5 0x2F#6
  | .mfhi rd => rFormat 0x00#6 0#5 0#5 rd 0#5 0x10#6
  | .tge rs rt code => trapFormat rs rt code 0x30#6
  | .mthi rs => rFormat 0x00#6 rs 0#5 0#5 0#5 0x11#6
  | .tgeu rs rt code => trapFormat rs rt code 0x31#6
  | .mflo rd => rFormat 0x00#6 0#5 0#5 rd 0#5 0x12#6
  | .tlt rs rt code => trapFormat rs rt code 0x32#6
  | .mtlo rs => rFormat 0x00#6 rs 0#5 0#5 0#5 0x13#6
  | .tltu rs rt code => trapFormat rs rt code 0x33#6
  | .dsllv rs rt rd => rFormat 0x00#6 rs rt rd 0#5 0x14#6
  | .teq rs rt code => trapFormat rs rt code 0x34#6
  | .dsrlv rs rt rd => rFormat 0x00#6 rs rt rd 0#5 0x16#6
  | .tne rs rt code => trapFormat rs rt code 0x36#6
  | .dsrav rs rt rd => rFormat 0x00#6 rs rt rd 0#5 0x17#6
  | .mult rs rt => rFormat 0x00#6 rs rt 0#5 0#5 0x18#6
  | .dsll rt rd sa => rFormat 0x00#6 0#5 rt rd sa 0x38#6
  | .multu rs rt => rFormat 0x00#6 rs rt 0#5 0#5 0x19#6
  | .div rs rt => rFormat 0x00#6 rs rt 0#5 0#5 0x1A#6
  | .dsrl rt rd sa => rFormat 0x00#6 0#5 rt rd sa 0x3A#6
  | .divu rs rt => rFormat 0x00#6 rs rt 0#5 0#5 0x1B#6
  | .dsra rt rd sa => rFormat 0x00#6 0#5 rt rd sa 0x3B#6
  | .dmult rs rt => rFormat 0x00#6 rs rt 0#5 0#5 0x1C#6
  | .dsll32 rt rd sa => rFormat 0x00#6 0#5 rt rd sa 0x3C#6
  | .dmultu rs rt => rFormat 0x00#6 rs rt 0#5 0#5 0x1D#6
  | .ddiv rs rt => rFormat 0x00#6 rs rt 0#5 0#5 0x1E#6
  | .dsrl32 rt rd sa => rFormat 0x00#6 0#5 rt rd sa 0x3E#6
  | .ddivu rs rt => rFormat 0x00#6 rs rt 0#5 0#5 0x1F#6
  | .dsra32 rt rd sa => rFormat 0x00#6 0#5 rt rd sa 0x3F#6
  | .bltz rs offset => iFormat 0x01#6 rs 0x00#5 offset
  | .bgez rs offset => iFormat 0x01#6 rs 0x01#5 offset
  | .bltzl rs offset => iFormat 0x01#6 rs 0x02#5 offset
  | .bgezl rs offset => iFormat 0x01#6 rs 0x03#5 offset
  | .tgei rs imm => iFormat 0x01#6 rs 0x08#5 imm
  | .tgeiu rs imm => iFormat 0x01#6 rs 0x09#5 imm
  | .tlti rs imm => iFormat 0x01#6 rs 0x0A#5 imm
  | .tltiu rs imm => iFormat 0x01#6 rs 0x0B#5 imm
  | .teqi rs imm => iFormat 0x01#6 rs 0x0C#5 imm
  | .tnei rs imm => iFormat 0x01#6 rs 0x0E#5 imm
  | .bltzal rs offset => iFormat 0x01#6 rs 0x10#5 offset
  | .bgezal rs offset => iFormat 0x01#6 rs 0x11#5 offset
  | .bltzall rs offset => iFormat 0x01#6 rs 0x12#5 offset
  | .bgezall rs offset => iFormat 0x01#6 rs 0x13#5 offset
  | .mfc0 rt rd => rFormat 0x10#6 0x00#5 rt rd 0#5 0#6
  | .dmfc0 rt rd => rFormat 0x10#6 0x01#5 rt rd 0#5 0#6
  | .mtc0 rt rd => rFormat 0x10#6 0x04#5 rt rd 0#5 0#6
  | .dmtc0 rt rd => rFormat 0x10#6 0x05#5 rt rd 0#5 0#6
  | .bc0 ndTf offset => iFormat 0x10#6 0x08#5 (0#3 ++ ndTf) offset
  | .tlbr => rFormat 0x10#6 0x10#5 0#5 0#5 0#5 0x01#6
  | .tlbwi => rFormat 0x10#6 0x10#5 0#5 0#5 0#5 0x02#6
  | .tlbwr => rFormat 0x10#6 0x10#5 0#5 0#5 0#5 0x06#6
  | .tlbp => rFormat 0x10#6 0x10#5 0#5 0#5 0#5 0x08#6
  | .eret => rFormat 0x10#6 0x10#5 0#5 0#5 0#5 0x18#6
  | .cfc1 rt fs => rFormat 0x11#6 0x02#5 rt fs 0#5 0#6
  | .ctc1 rt fs => rFormat 0x11#6 0x06#5 rt fs 0#5 0#6
  | .mfc1 rt fs => rFormat 0x11#6 0x00#5 rt fs 0#5 0#6
  | .dmfc1 rt fs => rFormat 0x11#6 0x01#5 rt fs 0#5 0#6
  | .mtc1 rt fs => rFormat 0x11#6 0x04#5 rt fs 0#5 0#6
  | .dmtc1 rt fs => rFormat 0x11#6 0x05#5 rt fs 0#5 0#6
  | .bc1 ndTf offset => iFormat 0x11#6 0x08#5 (0#3 ++ ndTf) offset
  | .cop1S ft fs fd funct => rFormat 0x11#6 0x10#5 ft fs fd funct
  | .cop1D ft fs fd funct => rFormat 0x11#6 0x11#5 ft fs fd funct
  | .cop1W ft fs fd funct => rFormat 0x11#6 0x14#5 ft fs fd funct
  | .cop1L ft fs fd funct => rFormat 0x11#6 0x15#5 ft fs fd funct
  | .cop2 cofun => jFormat 0x12#6 cofun
  | .cop3 cofun => jFormat 0x13#6 cofun

/-! ## The opcode table -/

/-- The row of spec/opcode_table.json an instruction belongs to: mnemonic, mask, match and class. -/
def Instr.row : Instr → OpcodeRow
  | .j _ => ⟨"J", 0xFC000000#32, 0x08000000#32, .family⟩
  | .jal _ => ⟨"JAL", 0xFC000000#32, 0x0C000000#32, .named⟩
  | .beq _ _ _ => ⟨"BEQ", 0xFC000000#32, 0x10000000#32, .family⟩
  | .bne _ _ _ => ⟨"BNE", 0xFC000000#32, 0x14000000#32, .family⟩
  | .blez _ _ => ⟨"BLEZ", 0xFC000000#32, 0x18000000#32, .family⟩
  | .bgtz _ _ => ⟨"BGTZ", 0xFC000000#32, 0x1C000000#32, .family⟩
  | .addi _ _ _ => ⟨"ADDI", 0xFC000000#32, 0x20000000#32, .gk⟩
  | .addiu _ _ _ => ⟨"ADDIU", 0xFC000000#32, 0x24000000#32, .gk⟩
  | .slti _ _ _ => ⟨"SLTI", 0xFC000000#32, 0x28000000#32, .gk⟩
  | .sltiu _ _ _ => ⟨"SLTIU", 0xFC000000#32, 0x2C000000#32, .gk⟩
  | .andi _ _ _ => ⟨"ANDI", 0xFC000000#32, 0x30000000#32, .gk⟩
  | .ori _ _ _ => ⟨"ORI", 0xFC000000#32, 0x34000000#32, .gk⟩
  | .xori _ _ _ => ⟨"XORI", 0xFC000000#32, 0x38000000#32, .gk⟩
  | .lui _ _ => ⟨"LUI", 0xFC000000#32, 0x3C000000#32, .gk⟩
  | .beql _ _ _ => ⟨"BEQL", 0xFC000000#32, 0x50000000#32, .named⟩
  | .bnel _ _ _ => ⟨"BNEL", 0xFC000000#32, 0x54000000#32, .family⟩
  | .blezl _ _ => ⟨"BLEZL", 0xFC000000#32, 0x58000000#32, .family⟩
  | .bgtzl _ _ => ⟨"BGTZL", 0xFC000000#32, 0x5C000000#32, .family⟩
  | .daddi _ _ _ => ⟨"DADDI", 0xFC000000#32, 0x60000000#32, .family⟩
  | .daddiu _ _ _ => ⟨"DADDIU", 0xFC000000#32, 0x64000000#32, .family⟩
  | .ldl _ _ _ => ⟨"LDL", 0xFC000000#32, 0x68000000#32, .gk⟩
  | .ldr _ _ _ => ⟨"LDR", 0xFC000000#32, 0x6C000000#32, .gk⟩
  | .lb _ _ _ => ⟨"LB", 0xFC000000#32, 0x80000000#32, .family⟩
  | .lh _ _ _ => ⟨"LH", 0xFC000000#32, 0x84000000#32, .family⟩
  | .lwl _ _ _ => ⟨"LWL", 0xFC000000#32, 0x88000000#32, .gk⟩
  | .lw _ _ _ => ⟨"LW", 0xFC000000#32, 0x8C000000#32, .family⟩
  | .lbu _ _ _ => ⟨"LBU", 0xFC000000#32, 0x90000000#32, .named⟩
  | .lhu _ _ _ => ⟨"LHU", 0xFC000000#32, 0x94000000#32, .family⟩
  | .lwr _ _ _ => ⟨"LWR", 0xFC000000#32, 0x98000000#32, .gk⟩
  | .lwu _ _ _ => ⟨"LWU", 0xFC000000#32, 0x9C000000#32, .gk⟩
  | .sb _ _ _ => ⟨"SB", 0xFC000000#32, 0xA0000000#32, .named⟩
  | .sh _ _ _ => ⟨"SH", 0xFC000000#32, 0xA4000000#32, .family⟩
  | .swl _ _ _ => ⟨"SWL", 0xFC000000#32, 0xA8000000#32, .gk⟩
  | .sw _ _ _ => ⟨"SW", 0xFC000000#32, 0xAC000000#32, .family⟩
  | .sdl _ _ _ => ⟨"SDL", 0xFC000000#32, 0xB0000000#32, .gk⟩
  | .sdr _ _ _ => ⟨"SDR", 0xFC000000#32, 0xB4000000#32, .gk⟩
  | .swr _ _ _ => ⟨"SWR", 0xFC000000#32, 0xB8000000#32, .gk⟩
  | .cache _ _ _ => ⟨"CACHE", 0xFC000000#32, 0xBC000000#32, .gk⟩
  | .ll _ _ _ => ⟨"LL", 0xFC000000#32, 0xC0000000#32, .family⟩
  | .lwc1 _ _ _ => ⟨"LWC1", 0xFC000000#32, 0xC4000000#32, .ri⟩
  | .lwc2 _ _ _ => ⟨"LWC2", 0xFC000000#32, 0xC8000000#32, .ri⟩
  | .lld _ _ _ => ⟨"LLD", 0xFC000000#32, 0xD0000000#32, .gk⟩
  | .ldc1 _ _ _ => ⟨"LDC1", 0xFC000000#32, 0xD4000000#32, .ri⟩
  | .ldc2 _ _ _ => ⟨"LDC2", 0xFC000000#32, 0xD8000000#32, .ri⟩
  | .ld _ _ _ => ⟨"LD", 0xFC000000#32, 0xDC000000#32, .family⟩
  | .sc _ _ _ => ⟨"SC", 0xFC000000#32, 0xE0000000#32, .family⟩
  | .swc1 _ _ _ => ⟨"SWC1", 0xFC000000#32, 0xE4000000#32, .ri⟩
  | .swc2 _ _ _ => ⟨"SWC2", 0xFC000000#32, 0xE8000000#32, .ri⟩
  | .scd _ _ _ => ⟨"SCD", 0xFC000000#32, 0xF0000000#32, .gk⟩
  | .sdc1 _ _ _ => ⟨"SDC1", 0xFC000000#32, 0xF4000000#32, .ri⟩
  | .sdc2 _ _ _ => ⟨"SDC2", 0xFC000000#32, 0xF8000000#32, .ri⟩
  | .sd _ _ _ => ⟨"SD", 0xFC000000#32, 0xFC000000#32, .family⟩
  | .sll _ _ _ => ⟨"SLL", 0xFC00003F#32, 0x00000000#32, .named⟩
  | .add _ _ _ => ⟨"ADD", 0xFC00003F#32, 0x00000020#32, .named⟩
  | .addu _ _ _ => ⟨"ADDU", 0xFC00003F#32, 0x00000021#32, .named⟩
  | .srl _ _ _ => ⟨"SRL", 0xFC00003F#32, 0x00000002#32, .named⟩
  | .sub _ _ _ => ⟨"SUB", 0xFC00003F#32, 0x00000022#32, .named⟩
  | .sra _ _ _ => ⟨"SRA", 0xFC00003F#32, 0x00000003#32, .family⟩
  | .subu _ _ _ => ⟨"SUBU", 0xFC00003F#32, 0x00000023#32, .family⟩
  | .sllv _ _ _ => ⟨"SLLV", 0xFC00003F#32, 0x00000004#32, .family⟩
  | .and _ _ _ => ⟨"AND", 0xFC00003F#32, 0x00000024#32, .gk⟩
  | .or _ _ _ => ⟨"OR", 0xFC00003F#32, 0x00000025#32, .gk⟩
  | .srlv _ _ _ => ⟨"SRLV", 0xFC00003F#32, 0x00000006#32, .family⟩
  | .xor _ _ _ => ⟨"XOR", 0xFC00003F#32, 0x00000026#32, .gk⟩
  | .srav _ _ _ => ⟨"SRAV", 0xFC00003F#32, 0x00000007#32, .family⟩
  | .nor _ _ _ => ⟨"NOR", 0xFC00003F#32, 0x00000027#32, .gk⟩
  | .jr _ => ⟨"JR", 0xFC00003F#32, 0x00000008#32, .family⟩
  | .jalr _ _ => ⟨"JALR", 0xFC00003F#32, 0x00000009#32, .named⟩
  | .slt _ _ _ => ⟨"SLT", 0xFC00003F#32, 0x0000002A#32, .gk⟩
  | .sltu _ _ _ => ⟨"SLTU", 0xFC00003F#32, 0x0000002B#32, .gk⟩
  | .syscall _ => ⟨"SYSCALL", 0xFC00003F#32, 0x0000000C#32, .gk⟩
  | .dadd _ _ _ => ⟨"DADD", 0xFC00003F#32, 0x0000002C#32, .family⟩
  | .break_ _ => ⟨"BREAK", 0xFC00003F#32, 0x0000000D#32, .gk⟩
  | .daddu _ _ _ => ⟨"DADDU", 0xFC00003F#32, 0x0000002D#32, .family⟩
  | .dsub _ _ _ => ⟨"DSUB", 0xFC00003F#32, 0x0000002E#32, .family⟩
  | .sync _ => ⟨"SYNC", 0xFC00003F#32, 0x0000000F#32, .gk⟩
  | .dsubu _ _ _ => ⟨"DSUBU", 0xFC00003F#32, 0x0000002F#32, .family⟩
  | .mfhi _ => ⟨"MFHI", 0xFC00003F#32, 0x00000010#32, .gk⟩
  | .tge _ _ _ => ⟨"TGE", 0xFC00003F#32, 0x00000030#32, .gk⟩
  | .mthi _ => ⟨"MTHI", 0xFC00003F#32, 0x00000011#32, .gk⟩
  | .tgeu _ _ _ => ⟨"TGEU", 0xFC00003F#32, 0x00000031#32, .gk⟩
  | .mflo _ => ⟨"MFLO", 0xFC00003F#32, 0x00000012#32, .gk⟩
  | .tlt _ _ _ => ⟨"TLT", 0xFC00003F#32, 0x00000032#32, .gk⟩
  | .mtlo _ => ⟨"MTLO", 0xFC00003F#32, 0x00000013#32, .gk⟩
  | .tltu _ _ _ => ⟨"TLTU", 0xFC00003F#32, 0x00000033#32, .gk⟩
  | .dsllv _ _ _ => ⟨"DSLLV", 0xFC00003F#32, 0x00000014#32, .family⟩
  | .teq _ _ _ => ⟨"TEQ", 0xFC00003F#32, 0x00000034#32, .gk⟩
  | .dsrlv _ _ _ => ⟨"DSRLV", 0xFC00003F#32, 0x00000016#32, .family⟩
  | .tne _ _ _ => ⟨"TNE", 0xFC00003F#32, 0x00000036#32, .gk⟩
  | .dsrav _ _ _ => ⟨"DSRAV", 0xFC00003F#32, 0x00000017#32, .family⟩
  | .mult _ _ => ⟨"MULT", 0xFC00003F#32, 0x00000018#32, .family⟩
  | .dsll _ _ _ => ⟨"DSLL", 0xFC00003F#32, 0x00000038#32, .family⟩
  | .multu _ _ => ⟨"MULTU", 0xFC00003F#32, 0x00000019#32, .family⟩
  | .div _ _ => ⟨"DIV", 0xFC00003F#32, 0x0000001A#32, .family⟩
  | .dsrl _ _ _ => ⟨"DSRL", 0xFC00003F#32, 0x0000003A#32, .family⟩
  | .divu _ _ => ⟨"DIVU", 0xFC00003F#32, 0x0000001B#32, .named⟩
  | .dsra _ _ _ => ⟨"DSRA", 0xFC00003F#32, 0x0000003B#32, .family⟩
  | .dmult _ _ => ⟨"DMULT", 0xFC00003F#32, 0x0000001C#32, .family⟩
  | .dsll32 _ _ _ => ⟨"DSLL32", 0xFC00003F#32, 0x0000003C#32, .family⟩
  | .dmultu _ _ => ⟨"DMULTU", 0xFC00003F#32, 0x0000001D#32, .named⟩
  | .ddiv _ _ => ⟨"DDIV", 0xFC00003F#32, 0x0000001E#32, .family⟩
  | .dsrl32 _ _ _ => ⟨"DSRL32", 0xFC00003F#32, 0x0000003E#32, .family⟩
  | .ddivu _ _ => ⟨"DDIVU", 0xFC00003F#32, 0x0000001F#32, .named⟩
  | .dsra32 _ _ _ => ⟨"DSRA32", 0xFC00003F#32, 0x0000003F#32, .family⟩
  | .bltz _ _ => ⟨"BLTZ", 0xFC1F0000#32, 0x04000000#32, .family⟩
  | .bgez _ _ => ⟨"BGEZ", 0xFC1F0000#32, 0x04010000#32, .family⟩
  | .bltzl _ _ => ⟨"BLTZL", 0xFC1F0000#32, 0x04020000#32, .family⟩
  | .bgezl _ _ => ⟨"BGEZL", 0xFC1F0000#32, 0x04030000#32, .family⟩
  | .tgei _ _ => ⟨"TGEI", 0xFC1F0000#32, 0x04080000#32, .gk⟩
  | .tgeiu _ _ => ⟨"TGEIU", 0xFC1F0000#32, 0x04090000#32, .gk⟩
  | .tlti _ _ => ⟨"TLTI", 0xFC1F0000#32, 0x040A0000#32, .gk⟩
  | .tltiu _ _ => ⟨"TLTIU", 0xFC1F0000#32, 0x040B0000#32, .gk⟩
  | .teqi _ _ => ⟨"TEQI", 0xFC1F0000#32, 0x040C0000#32, .gk⟩
  | .tnei _ _ => ⟨"TNEI", 0xFC1F0000#32, 0x040E0000#32, .gk⟩
  | .bltzal _ _ => ⟨"BLTZAL", 0xFC1F0000#32, 0x04100000#32, .family⟩
  | .bgezal _ _ => ⟨"BGEZAL", 0xFC1F0000#32, 0x04110000#32, .named⟩
  | .bltzall _ _ => ⟨"BLTZALL", 0xFC1F0000#32, 0x04120000#32, .family⟩
  | .bgezall _ _ => ⟨"BGEZALL", 0xFC1F0000#32, 0x04130000#32, .family⟩
  | .mfc0 _ _ => ⟨"MFC0", 0xFFE00000#32, 0x40000000#32, .named⟩
  | .dmfc0 _ _ => ⟨"DMFC0", 0xFFE00000#32, 0x40200000#32, .gk⟩
  | .mtc0 _ _ => ⟨"MTC0", 0xFFE00000#32, 0x40800000#32, .named⟩
  | .dmtc0 _ _ => ⟨"DMTC0", 0xFFE00000#32, 0x40A00000#32, .gk⟩
  | .bc0 _ _ => ⟨"BC0", 0xFFE00000#32, 0x41000000#32, .ri⟩
  | .tlbr => ⟨"TLBR", 0xFE00003F#32, 0x42000001#32, .ri⟩
  | .tlbwi => ⟨"TLBWI", 0xFE00003F#32, 0x42000002#32, .named⟩
  | .tlbwr => ⟨"TLBWR", 0xFE00003F#32, 0x42000006#32, .ri⟩
  | .tlbp => ⟨"TLBP", 0xFE00003F#32, 0x42000008#32, .ri⟩
  | .eret => ⟨"ERET", 0xFE00003F#32, 0x42000018#32, .named⟩
  | .cfc1 _ _ => ⟨"CFC1", 0xFFE00000#32, 0x44400000#32, .named⟩
  | .ctc1 _ _ => ⟨"CTC1", 0xFFE00000#32, 0x44C00000#32, .named⟩
  | .mfc1 _ _ => ⟨"MFC1", 0xFFE00000#32, 0x44000000#32, .ri⟩
  | .dmfc1 _ _ => ⟨"DMFC1", 0xFFE00000#32, 0x44200000#32, .ri⟩
  | .mtc1 _ _ => ⟨"MTC1", 0xFFE00000#32, 0x44800000#32, .ri⟩
  | .dmtc1 _ _ => ⟨"DMTC1", 0xFFE00000#32, 0x44A00000#32, .ri⟩
  | .bc1 _ _ => ⟨"BC1", 0xFFE00000#32, 0x45000000#32, .ri⟩
  | .cop1S _ _ _ _ => ⟨"COP1.S", 0xFFE00000#32, 0x46000000#32, .ri⟩
  | .cop1D _ _ _ _ => ⟨"COP1.D", 0xFFE00000#32, 0x46200000#32, .ri⟩
  | .cop1W _ _ _ _ => ⟨"COP1.W", 0xFFE00000#32, 0x46800000#32, .ri⟩
  | .cop1L _ _ _ _ => ⟨"COP1.L", 0xFFE00000#32, 0x46A00000#32, .ri⟩
  | .cop2 _ => ⟨"COP2", 0xFC000000#32, 0x48000000#32, .ri⟩
  | .cop3 _ => ⟨"COP3", 0xFC000000#32, 0x4C000000#32, .ri⟩

/-- The bytes of an instruction as memory holds them, the first at the lowest address. -/
def encodeBytes (i : Instr) : List Byte := bytesOfWord (encode i)

end Sys2Proof
end

