-- ==== Sys2Proof/Machine/Memory.lean ====
section
/-! DEFINITION. The bytes behind the memory-backed bus windows: a list of (cell, byte) pairs in one
canonical form, cells strictly rising and no byte equal to what an unlisted cell reads as. -/

namespace Sys2Proof.Machine.Memory

/-- What an unlisted cell reads as. DESIGN CHOICE, log 9, unsafe: the spec gives RAM no contents. -/
def unlisted : Byte := 0x00

/-- The byte of a cell. -/
def read : List Host.Cell → Nat → Byte
  | [], _ => unlisted
  | (k, v) :: rest, a => if k = a then v else read rest a

/-- The memory after a byte is stored in a cell. Storing `unlisted` removes the entry. -/
def write : List Host.Cell → Nat → Byte → List Host.Cell
  | [], a, b => if b = unlisted then [] else [(a, b)]
  | (k, v) :: rest, a, b =>
    if a < k then
      if b = unlisted then (k, v) :: rest else (a, b) :: (k, v) :: rest
    else if a = k then
      if b = unlisted then rest else (a, b) :: rest
    else (k, v) :: write rest a b

/-- Every cell of the list lies above `a`. -/
def allAbove (a : Nat) (m : List Host.Cell) : Bool := m.all fun c => a < c.1

/-- The canonical form. -/
def wf : List Host.Cell → Bool
  | [] => true
  | (k, v) :: rest => v != unlisted && allAbove k rest && wf rest

/-- The bus word at cells `c` to `c + 3`: its most significant byte is the byte of cell `c`. The spec
gives RAM words, not bytes; the order is that of spec/20_memory.md R247 for Config.BE = 1. DEDUCED,
log 10. -/
def readWord (m : List Host.Cell) (c : Nat) : BusWord :=
  read m c ++ read m (c + 1) ++ read m (c + 2) ++ read m (c + 3)

/-- The memory after a bus word is stored at cells `c` to `c + 3`. -/
def writeWord (m : List Host.Cell) (c : Nat) (w : BusWord) : List Host.Cell :=
  write (write (write (write m c (w.extractLsb' 24 8)) (c + 1) (w.extractLsb' 16 8))
    (c + 2) (w.extractLsb' 8 8)) (c + 3) (w.extractLsb' 0 8)

end Sys2Proof.Machine.Memory
end

