-- ==== Sys2Proof/Config.lean ====
section
/-! DEFINITION. What is fixed for one machine: the numbers the spec fixes, the parameters it leaves
open (spec/00_scope.md R8) as a plain structure that State carries, and the one free value. -/

namespace Sys2Proof

/-- ARITH_OVERFLOW of R8: what a signed add or subtract does on overflow (R520). -/
inductive ArithOverflow where
  | trap
  | wrap
deriving DecidableEq, Repr

/-- The address range of a mapping entry and its offset flag, R230. Both ends are inclusive (R234). -/
structure MapRange where
  start  : Nat
  stop   : Nat
  offset : Bool
deriving DecidableEq, Repr

/-- What the read and write functions of a mapping entry act on. `memory base` is plain memory: the
word at handed address `a` is the four bytes of `State.mem` from cell `base + a` on. `device id` is a
device whose functions lie outside the block (R235). DESIGN CHOICE, log 5. -/
inductive Backing where
  | memory (base : Nat)
  | device (id : Nat)
deriving DecidableEq, Repr

/-- One mapping entry of R230; `readable` and `writable` say whether its optional read and write
functions are present. -/
structure MapEntry where
  range    : MapRange
  backing  : Backing
  readable : Bool
  writable : Bool
deriving DecidableEq, Repr

/-- A dispatch table of R230, in table order. `forward` is a forwarding entry: its read and write
functions are the lookups of R231 and R232 in the sub-table `sub`. -/
inductive BusTable where
  | empty
  | entry (e : MapEntry) (rest : BusTable)
  | forward (range : MapRange) (sub rest : BusTable)
deriving DecidableEq, Repr

/-- FCR0_VALUE of R8 as spec/10_state.md R141 lays it out: Imp in bits 15:8, Rev in bits 7:0. Bits 31:16
are zero and have no place here. -/
structure Fcr0Value where
  imp : BitVec 8
  rev : BitVec 8
deriving DecidableEq, Repr

/-- The parameters the source leaves open, R8. They are plain data in State and no step changes them,
so a statement over every state covers every value of them. DESIGN CHOICE, log 1. -/
structure Params where
  /-- ARITH_OVERFLOW. -/
  arithOverflow : ArithOverflow
  /-- IMPLEMENTED, held as the rows (by their `pattern`) of class family or gk that are left OUT of
  it (R10); empty is the spec's default. DESIGN CHOICE, log 3. -/
  leftOut   : List BusWord
  /-- BUS_MAP, the root mapping table. -/
  busMap    : BusTable
  /-- EC_VALUE. -/
  ecValue   : BitVec 3
  /-- FCR0_VALUE: the CP1 register FCR0 at all times (R141). -/
  fcr0Value : Fcr0Value
deriving DecidableEq, Repr

namespace Config

/-- RANDOM_MAX of R8. -/
def randomMax : Word := 31

/-- The reset vector, R7 and R1305. -/
def resetVector : Addr := 0xFFFFFFFFBFC00000

/-- The base of the general vector with Status.BEV = 1, R1224. -/
def bootVectorBase : Addr := 0xFFFFFFFFBFC00200

/-- The base of the general vector with Status.BEV = 0, R1224. -/
def normalVectorBase : Addr := 0xFFFFFFFF80000000

/-- The offset of the general vector from its base, R7 and R1224. -/
def vectorOffset : Addr := 0x180

/-- The `n`-th draw: bits 63:32 of LWR's register when fewer than four bytes load (R841, D28). A FREE
VALUE: nothing constrains it. Log 12. -/
opaque freeWord : Nat → BitVec 32

end Config

end Sys2Proof
end

