-- ==== Sys2Proof/Machine/State.lean ====
section
/-! DEFINITION. The machine's state as plain data, the reasons a step can stop, and the state after
reset (spec/10_state.md R150, spec/70_reset_and_hazards.md R1301 to R1309). -/

namespace Sys2Proof.Machine

/-- Why the machine stops. Each is a fatal fault of spec/00_scope.md R16: no exception is entered, the
rest of the instruction does not happen, and no later Cycle runs. Stopping here is what the spec says,
so every one is safe. -/
inductive Fault where
  /-- Raised by the sized accesses and by the fetch on an address that is no multiple of its size
  (spec/20_memory.md R242, R260). -/
  | misaligned (va : Addr) (bytes : Nat)
  /-- Raised by Translate outside kseg0 and kseg1 (R210). -/
  | unknownSegment (va : Addr)
  /-- Raised by the bus lookup when no entry holds the address (R231). -/
  | unmappedAddress (pa : Nat)
  /-- Raised by BusRead on an entry without a read function (R231). -/
  | noReadHandler (pa : Nat)
  /-- Raised by BusWrite on an entry without a write function (R232). -/
  | noWriteHandler (pa : Nat)
  /-- Raised by a branch, a jump or ERET in a delay slot (spec/40_engine.md R406). -/
  | ctiInDelaySlot (cur : Addr) (word : BusWord)
  /-- Raised by JALR with rd = rs and by a linking branch with rs = 31 (spec/43_branch_jump.md R790). -/
  | linkOverwritesSource (cur : Addr) (word : BusWord)
deriving DecidableEq, Repr

/-- Why the model gives no meaning. -/
inductive Refusal where
  /-- Answered by exec's arm of an instruction that has no meaning yet. Safe: nothing is claimed. -/
  | notModelled (mnemonic : String)
  /-- Answered by BusRead on a device window: what the device returns is the platform's
  (spec/20_memory.md R235). Safe: nothing is claimed. -/
  | deviceRead (id : Nat) (address : Nat)
  /-- Answered by BusWrite on a device window: what the device does is the platform's (R235). Safe:
  nothing is claimed. -/
  | deviceWrite (id : Nat) (address : Nat) (value : BusWord)
deriving DecidableEq, Repr

/-- The host's run status, spec/40_engine.md R430. -/
inductive RunStatus where
  | stopped
  | running
  | debugging
deriving DecidableEq, Repr

/-- The machine. INVENTORY.md lists each field with its rule and its value after reset. -/
structure State where
  /-- General registers, spec/10_state.md R100. Register 0 has storage; it is zeroed at the end of
  every Step and Cycle (R102). -/
  gpr    : Vector Word 32
  /-- Program counter, R106. -/
  pc     : Addr
  /-- High half of a product, or remainder, R109. -/
  hi     : Word
  /-- Low half of a product, or quotient, R109. -/
  lo     : Word
  /-- Load-linked flag, R110. -/
  llbit  : Bool
  /-- Delay-slot marker, R111. -/
  ds     : Option Addr
  /-- CP0 register file, R113. -/
  cp0    : Vector Word 32
  /-- Floating-point registers, R140: reached by the host only. -/
  fpr    : Vector Word 32
  /-- Floating-point control/status register, R142. -/
  fcr31  : BitVec 32
  /-- The bytes behind the memory-backed windows of BUS_MAP: (cell, byte) pairs, cells strictly rising,
  no byte equal to what an unlisted cell reads as (`Memory.wf`). -/
  mem    : List Host.Cell
  /-- The set of unimplemented-operation signals, spec/00_scope.md R18: no repeats, oldest first. -/
  unimplemented : List (Addr × BusWord)
  /-- The host's run status, spec/40_engine.md R430; read by the run loop only. -/
  runStatus : RunStatus
  /-- The word `w` that Execute was given (spec/40_engine.md R403). The model's own latch: the fetch
  sets it, the end of the Cycle clears it to 0. Log 11. -/
  word   : BusWord
  /-- How many draws were made (spec/44_load_store.md R841). The model's own field. Log 12. -/
  draws  : Nat
  /-- The parameters of spec/00_scope.md R8. No step changes them. Log 1. -/
  params : Params
deriving DecidableEq, Repr

/-- The parameters `State.reset` carries: ARITH_OVERFLOW trap (log 2), every row dispatched (log 3),
one readable and writable memory window over the whole 29-bit physical space (log 4), EC_VALUE 0
(log 6), FCR0_VALUE 0 (log 7). -/
def defaultParams : Params where
  arithOverflow := .trap
  leftOut := []
  busMap := .entry ⟨⟨0x00000000, 0x1FFFFFFF, false⟩, .memory 0, true, true⟩ .empty
  ecValue := 0
  fcr0Value := ⟨0, 0⟩

/-- The power-on state `State.reset` starts from: spec/70_reset_and_hazards.md R1309 gives only
x[0] = 0 and the empty signal set; every other register is 0 here. DESIGN CHOICE, log 8, unsafe. -/
def State.powerOn : State where
  gpr := Vector.replicate 32 0
  pc := 0
  hi := 0
  lo := 0
  llbit := false
  ds := none
  cp0 := Vector.replicate 32 0
  fpr := Vector.replicate 32 0
  fcr31 := 0
  mem := []
  unimplemented := []
  runStatus := .running
  word := 0
  draws := 0
  params := defaultParams

/-- The machine right after Reset() from `State.powerOn`, R150 and R1301: Random = RANDOM_MAX, Status
with ERL and BEV set, Config with BE set and EC = EC_VALUE = 0, ErrorEPC = the pc before the reset,
no delay slot pending, pc at the reset vector. -/
def State.reset : State :=
  { State.powerOn with
    pc := Config.resetVector
    ds := none
    cp0 := #v[0, Config.randomMax, 0, 0, 0, 0, 0, 0, 0, 0, 0, 0, 0x00400004, 0, 0, 0,
              0x8000, 0, 0, 0, 0, 0, 0, 0, 0, 0, 0, 0, 0, 0, 0, 0] }

end Sys2Proof.Machine
end

