-- ==== Sys2Proof/Machine/Bits.lean ====
section
/-! DEFINITION. Extension, truncation and bit fields (spec/00_scope.md R12, spec/46_cp0.md R1060). -/

namespace Sys2Proof.Machine

/-- `trunc_32`: bits 31:0. -/
def lo32 (v : Word) : BitVec 32 := v.setWidth 32

/-- `sext_64`. -/
def sext64 {n : Nat} (v : BitVec n) : Word := v.signExtend 64

/-- `zext_64`. -/
def zext64 {n : Nat} (v : BitVec n) : Word := v.setWidth 64

/-- `get(n, hi, lo)` of R1060 on a register's value: the `n` bits from bit `lo` up. -/
def getField (v : Word) (lo n : Nat) : BitVec n := v.extractLsb' lo n

/-- `set(n, hi, lo, v)` of R1060 on a register's value: only the field's bits change. -/
def setField (v : Word) (lo : Nat) {n : Nat} (x : BitVec n) : Word :=
  (v &&& ~~~(((1#64 <<< n) - 1#64) <<< lo)) ||| (x.setWidth 64 <<< lo)

/-- A one-bit field set to a truth value. -/
def setFlag (v : Word) (lo : Nat) (b : Bool) : Word := setField v lo (BitVec.ofBool b)

/-- `if c then 1 else 0` as a register value. -/
def boolWord (c : Bool) : Word := if c then 1 else 0

end Sys2Proof.Machine
end

