-- ==== Sys2Proof/Machine/Views.lean ====
section
/-! DEFINITION. The typed views of Status, Cause, Config, FCR0 and FCR31 (spec/10_state.md R114, R120,
R126, R131, R141, R142): lenses over a register's bits, with no storage of their own. -/

namespace Sys2Proof.Machine

/-! CP0 register numbers, R115. -/
namespace Cp0
abbrev index : RegIdx := 0
abbrev random : RegIdx := 1
abbrev entryLo0 : RegIdx := 2
abbrev entryLo1 : RegIdx := 3
abbrev context : RegIdx := 4
abbrev pageMask : RegIdx := 5
abbrev wired : RegIdx := 6
abbrev badVAddr : RegIdx := 8
abbrev count : RegIdx := 9
abbrev entryHi : RegIdx := 10
abbrev compare : RegIdx := 11
abbrev status : RegIdx := 12
abbrev cause : RegIdx := 13
abbrev epc : RegIdx := 14
abbrev prId : RegIdx := 15
abbrev config : RegIdx := 16
abbrev llAddr : RegIdx := 17
abbrev watchLo : RegIdx := 18
abbrev watchHi : RegIdx := 19
abbrev xContext : RegIdx := 20
abbrev pErr : RegIdx := 26
abbrev cacheErr : RegIdx := 27
abbrev tagLo : RegIdx := 28
abbrev tagHi : RegIdx := 29
abbrev errorEpc : RegIdx := 30
end Cp0

/-! The Status fields, R120. UX, SX, KX, DE, CE, CH, ITS, RE, FR and RP select nothing (R123). -/
namespace StatusReg
def ie (v : Word) : Bool := v.getLsbD 0
def exl (v : Word) : Bool := v.getLsbD 1
def erl (v : Word) : Bool := v.getLsbD 2
def ksu (v : Word) : BitVec 2 := getField v 3 2
def ux (v : Word) : Bool := v.getLsbD 5
def sx (v : Word) : Bool := v.getLsbD 6
def kx (v : Word) : Bool := v.getLsbD 7
def im (v : Word) : BitVec 8 := getField v 8 8
def de (v : Word) : Bool := v.getLsbD 16
def ce (v : Word) : Bool := v.getLsbD 17
def ch (v : Word) : Bool := v.getLsbD 18
def sr (v : Word) : Bool := v.getLsbD 20
def ts (v : Word) : Bool := v.getLsbD 21
def bev (v : Word) : Bool := v.getLsbD 22
def its (v : Word) : Bool := v.getLsbD 24
def re (v : Word) : Bool := v.getLsbD 25
def fr (v : Word) : Bool := v.getLsbD 26
def rp (v : Word) : Bool := v.getLsbD 27
def cu (v : Word) : BitVec 4 := getField v 28 4
/-- CU[z]. -/
def cuBit (v : Word) (z : BitVec 2) : Bool := (cu v).getLsbD z.toNat
/-- The 9-bit diagnostic field DS, bits 24:16. -/
def diagnostic (v : Word) : BitVec 9 := getField v 16 9
def setExl (v : Word) (b : Bool) : Word := setFlag v 1 b
def setErl (v : Word) (b : Bool) : Word := setFlag v 2 b
def setSr (v : Word) (b : Bool) : Word := setFlag v 20 b
def setTs (v : Word) (b : Bool) : Word := setFlag v 21 b
def setBev (v : Word) (b : Bool) : Word := setFlag v 22 b
def setRp (v : Word) (b : Bool) : Word := setFlag v 27 b
end StatusReg

/-! The Cause fields, R126. -/
namespace CauseReg
def excCode (v : Word) : BitVec 5 := getField v 2 5
/-- IP as the 8-bit field of bits 15:8. -/
def ip (v : Word) : BitVec 8 := getField v 8 8
/-- IP[1:0], the software bits. -/
def ipSoftware (v : Word) : BitVec 2 := getField v 8 2
/-- IP[6:2], the external bits. -/
def ipExternal (v : Word) : BitVec 5 := getField v 10 5
/-- IP[7], the timer bit. -/
def ipTimer (v : Word) : Bool := v.getLsbD 15
def ce (v : Word) : BitVec 2 := getField v 28 2
def bd (v : Word) : Bool := v.getLsbD 31
def setExcCode (v : Word) (code : BitVec 5) : Word := setField v 2 code
def setIpSoftware (v : Word) (b : BitVec 2) : Word := setField v 8 b
def setIpExternal (v : Word) (b : BitVec 5) : Word := setField v 10 b
def setIpTimer (v : Word) (b : Bool) : Word := setFlag v 15 b
def setCe (v : Word) (z : BitVec 2) : Word := setField v 28 z
def setBd (v : Word) (b : Bool) : Word := setFlag v 31 b
end CauseReg

/-! The Config fields, R131. Only BE is read by a rule. -/
namespace ConfigReg
def k0 (v : Word) : BitVec 3 := getField v 0 3
def cu (v : Word) : Bool := v.getLsbD 3
def be (v : Word) : Bool := v.getLsbD 15
def ep (v : Word) : BitVec 4 := getField v 24 4
def ec (v : Word) : BitVec 3 := getField v 28 3
def setBe (v : Word) (b : Bool) : Word := setFlag v 15 b
def setEc (v : Word) (x : BitVec 3) : Word := setField v 28 x
end ConfigReg

/-! The FCR0 fields, R141. -/
namespace Fcr0
def imp (v : BitVec 32) : BitVec 8 := v.extractLsb' 8 8
def rev (v : BitVec 32) : BitVec 8 := v.extractLsb' 0 8
end Fcr0

/-! The FCR31 fields, R142. Only Enables and Cause are read by a rule (R1111). -/
namespace Fcr31
def rm (v : BitVec 32) : BitVec 2 := v.extractLsb' 0 2
def flags (v : BitVec 32) : BitVec 5 := v.extractLsb' 2 5
def enables (v : BitVec 32) : BitVec 5 := v.extractLsb' 7 5
def cause (v : BitVec 32) : BitVec 6 := v.extractLsb' 12 6
def c (v : BitVec 32) : Bool := v.getLsbD 23
def fs (v : BitVec 32) : Bool := v.getLsbD 24
end Fcr31

end Sys2Proof.Machine
end

