-- ==== Sys2Proof/Machine/Registers.lean ====
section
/-! DEFINITION. The one way in and out of each piece of state. -/

namespace Sys2Proof.Machine

/-- The outcome of a state change: a next state, a fault or a refusal. -/
abbrev Result := Host.Outcome State Fault Refusal

/-- The outcome of an access that answers a value and changes nothing. -/
abbrev Access (α : Type) := Host.Outcome α Fault Refusal

/-- Sequencing: a fault or refusal ends the instruction (spec/00_scope.md R16). -/
def andThen {α β : Type} (o : Access α) (k : α → Access β) : Access β :=
  match o with
  | .next a => k a
  | .fault r => .fault r
  | .refused r => .refused r

namespace State

/-- `x[r]`, spec/00_scope.md R13. Register 0 reads its storage, which is 0 between Cycles unless the
host wrote it (spec/10_state.md R102, spec/70_reset_and_hazards.md R1333). -/
def x (s : State) (r : RegIdx) : Word := s.gpr[r.toNat]'r.isLt

/-- `x[r] <- v`. A write of `x[0]` is performed like any other (R102). -/
def setX (s : State) (r : RegIdx) (v : Word) : State := { s with gpr := s.gpr.set r.toNat v r.isLt }

/-- `cp0[n]`, spec/10_state.md R113. -/
def c0 (s : State) (n : RegIdx) : Word := s.cp0[n.toNat]'n.isLt

/-- `cp0[n] <- v`, raw. -/
def setC0 (s : State) (n : RegIdx) (v : Word) : State := { s with cp0 := s.cp0.set n.toNat v n.isLt }

/-- `fpr[n]`, R140. -/
def f (s : State) (n : RegIdx) : Word := s.fpr[n.toNat]'n.isLt

/-- `fpr[n] <- v`. -/
def setF (s : State) (n : RegIdx) (v : Word) : State := { s with fpr := s.fpr.set n.toNat v n.isLt }

def setPc (s : State) (a : Addr) : State := { s with pc := a }
def setHi (s : State) (v : Word) : State := { s with hi := v }
def setLo (s : State) (v : Word) : State := { s with lo := v }
def setLlbit (s : State) (b : Bool) : State := { s with llbit := b }
def setDs (s : State) (d : Option Addr) : State := { s with ds := d }
def setFcr31 (s : State) (v : BitVec 32) : State := { s with fcr31 := v }
def setMem (s : State) (m : List Host.Cell) : State := { s with mem := m }
def setWord (s : State) (w : BusWord) : State := { s with word := w }
def setDraws (s : State) (n : Nat) : State := { s with draws := n }
def setRunStatus (s : State) (r : RunStatus) : State := { s with runStatus := r }

/-- The CP1 register FCR0, spec/10_state.md R141: FCR0_VALUE at all times, bits 31:16 zero. -/
def fcr0 (s : State) : BitVec 32 := 0#16 ++ s.params.fcr0Value.imp ++ s.params.fcr0Value.rev

/-! The CP0 registers that rules of the block name. -/

def status (s : State) : Word := s.c0 Cp0.status
def cause (s : State) : Word := s.c0 Cp0.cause
def config (s : State) : Word := s.c0 Cp0.config

/-- Config.BE: true is big-endian, spec/20_memory.md R241. -/
def be (s : State) : Bool := ConfigReg.be s.config

/-! The context of an instruction rule, spec/40_engine.md R405. While a rule runs, `ds` still holds the
address the word was fetched from when it came through the marker, and `pc` is that address plus 4
when it did not. -/

/-- `inDS`, spec/10_state.md R112. -/
def inDS (s : State) : Bool := s.ds.isSome

/-- `cur`, R112: the address the executing word was fetched from. -/
def cur (s : State) : Addr :=
  match s.ds with
  | some a => a
  | none => s.pc - 4

/-- `signal Unimplemented(addr, word)`, spec/00_scope.md R18: adds to the sticky set. -/
def signal (s : State) (a : Addr) (w : BusWord) : State :=
  if (a, w) ∈ s.unimplemented then s
  else { s with unimplemented := s.unimplemented ++ [(a, w)] }

end State

/-! Modes, spec/10_state.md R121 and spec/60_exceptions.md R1270. -/

/-- The effective mode. `other` is KSU = 11, which is not Kernel. -/
inductive Mode where
  | kernel
  | supervisor
  | user
  | other
deriving DecidableEq, Repr

/-- The mode KSU names. -/
def modeOfKsu (k : BitVec 2) : Mode :=
  match k with
  | 0b00#2 => .kernel
  | 0b01#2 => .supervisor
  | 0b10#2 => .user
  | _ => .other

/-- `effective_mode()`, R121. -/
def effectiveMode (s : State) : Mode :=
  if StatusReg.exl s.status || StatusReg.erl s.status then .kernel
  else modeOfKsu (StatusReg.ksu s.status)

/-- `kernel_mode()`, R121. -/
def kernelMode (s : State) : Bool := effectiveMode s == .kernel

/-- `usable(z)`, spec/30_encoding.md R331. -/
def usable (s : State) (z : BitVec 2) : Bool :=
  if z = 0 then kernelMode s || StatusReg.cuBit s.status 0 else StatusReg.cuBit s.status z

end Sys2Proof.Machine
end

