-- ==== Sys2Proof/Machine/Bus.lean ====
section
/-! DEFINITION. Address translation, the bus and the shared sized-access path (spec/20_memory.md). -/

namespace Sys2Proof.Machine

/-! ## Translation, R210 to R215 -/

/-- A virtual address lies in kseg0 or kseg1: the sign-extended 32-bit form with bits 31:29 = 100 or
101. -/
def inSegment (va : Addr) : Bool :=
  getField va 32 32 == 0xFFFFFFFF#32 && (getField va 29 3 == 0b100#3 || getField va 29 3 == 0b101#3)

/-- The 29-bit physical address of a translated virtual address, zero-extended. -/
def physical (va : Addr) : Addr := zext64 (getField va 0 29)

/-- `Translate(va)`, R210. It reads no state (R212, R215). -/
def translate (va : Addr) : Access Addr :=
  if inSegment va then .next (physical va) else .fault (.unknownSegment va)

/-! ## The bus, R230 to R236 -/

/-- `Contains`, R234: inclusive at both ends. -/
def inRange (r : MapRange) (a : Nat) : Bool := r.start ≤ a && a ≤ r.stop

/-- The address an entry's function is handed: offset by the range's start if its flag is set, R231. -/
def handed (r : MapRange) (a : Nat) : Nat := if r.offset then a - r.start else a

/-- The first containing entry in table order, and the address its own table was asked for; a
forwarding entry hands the lookup to its sub-table (R230, R231). An error is the unmapped address. -/
def findEntry : BusTable → Nat → Except Nat (MapEntry × Nat)
  | .empty, a => .error a
  | .entry e rest, a => if inRange e.range a then .ok (e, a) else findEntry rest a
  | .forward r sub rest, a => if inRange r a then findEntry sub (handed r a) else findEntry rest a

/-- The entry a bus read reaches and the address handed to its read function, R231. -/
def readPort (t : BusTable) (pa : Nat) : Access (Backing × Nat) :=
  match findEntry t pa with
  | .error a => .fault (.unmappedAddress a)
  | .ok (e, a) => if e.readable then .next (e.backing, handed e.range a) else .fault (.noReadHandler a)

/-- The entry a bus write reaches and the address handed to its write function, R232. -/
def writePort (t : BusTable) (pa : Nat) : Access (Backing × Nat) :=
  match findEntry t pa with
  | .error a => .fault (.unmappedAddress a)
  | .ok (e, a) => if e.writable then .next (e.backing, handed e.range a) else .fault (.noWriteHandler a)

/-- `BusRead(pa)`, R231. A device's answer is the platform's (R235): refused. -/
def busRead (s : State) (pa : Addr) : Access BusWord :=
  andThen (readPort s.params.busMap pa.toNat) fun p =>
    match p.1 with
    | .memory base => .next (Memory.readWord s.mem (base + p.2))
    | .device id => .refused (.deviceRead id p.2)

/-- `BusWrite(pa, w)`, R232. A device's effect is the platform's (R235): refused. -/
def busWrite (s : State) (pa : Addr) (w : BusWord) : Result :=
  andThen (writePort s.params.busMap pa.toNat) fun p =>
    match p.1 with
    | .memory base => .next (s.setMem (Memory.writeWord s.mem (base + p.2) w))
    | .device id => .refused (.deviceWrite id p.2 w)

/-- The cell of `State.mem` behind the first byte of the bus word at `pa`, where a memory-backed entry
holds it. -/
def memCell (t : BusTable) (pa : Nat) : Option Nat :=
  match findEntry t pa with
  | .error _ => none
  | .ok (e, a) =>
    match e.backing with
    | .memory base => some (base + handed e.range a)
    | .device _ => none

/-! ## Sized accesses, R240 to R249 -/

/-- The address of the bus word that holds `pa`: `pa & ~3`. -/
def wordBase (a : Addr) : Addr := a &&& ~~~3#64

/-- The address of the doubleword that holds `va`: `va & ~7`. -/
def dwordBase (a : Addr) : Addr := a &&& ~~~7#64

/-- `va` is a multiple of `n`. -/
def aligned (va : Addr) (n : Nat) : Bool := va.toNat % n == 0

/-- The alignment check of R242, before translation. -/
def checkAligned {α : Type} (va : Addr) (n : Nat) (k : Access α) : Access α :=
  if aligned va n then k else .fault (.misaligned va n)

/-- `lane(pa, n)` of R241 for `n` in {1, 2}, in bits. -/
def lane (be : Bool) (pa : Addr) (n : Nat) : Nat :=
  if be then (getField pa 0 2 ^^^ BitVec.ofNat 2 (4 - n)).toNat * 8 else (getField pa 0 2).toNat * 8

/-- `MemRead(va, n)` for n in {1, 2}, R243, answering `k = 8n` bits. -/
def memReadSub (s : State) (va : Addr) (n k : Nat) : Access (BitVec k) :=
  checkAligned va n <|
  andThen (translate va) fun pa =>
  andThen (busRead s (wordBase pa)) fun w => .next ((w >>> lane s.be pa n).setWidth k)

/-- The merge of R244: `v` replaces the lane at bit `sh` of the bus word `w`. -/
def mergeLane {k : Nat} (w : BusWord) (sh : Nat) (v : BitVec k) : BusWord :=
  let m : BusWord := BitVec.ofNat 32 (2 ^ k - 1) <<< sh
  (w &&& ~~~m) ||| ((v.setWidth 32 <<< sh) &&& m)

/-- `MemWrite(va, n, v)` for n in {1, 2}, R244: a bus read, then a bus write of the merged word. -/
def memWriteSub (s : State) (va : Addr) (n : Nat) {k : Nat} (v : BitVec k) : Result :=
  checkAligned va n <|
  andThen (translate va) fun pa =>
  andThen (busRead s (wordBase pa)) fun w =>
  busWrite s (wordBase pa) (mergeLane w (lane s.be pa n) v)

/-- `MemRead(va, 1)`. -/
def memRead8 (s : State) (va : Addr) : Access (BitVec 8) := memReadSub s va 1 8

/-- `MemRead(va, 2)`. -/
def memRead16 (s : State) (va : Addr) : Access (BitVec 16) := memReadSub s va 2 16

/-- `MemRead(va, 4)`, R245. -/
def memRead32 (s : State) (va : Addr) : Access (BitVec 32) :=
  checkAligned va 4 <| andThen (translate va) fun pa => busRead s pa

/-- `MemRead(va, 8)`, R246: two transactions, the one at `pa` first. -/
def memRead64 (s : State) (va : Addr) : Access (BitVec 64) :=
  checkAligned va 8 <|
  andThen (translate va) fun pa =>
  andThen (busRead s pa) fun w0 =>
  andThen (busRead s (pa + 4)) fun w1 => .next (if s.be then w0 ++ w1 else w1 ++ w0)

/-- `MemWrite(va, 1, v)`. -/
def memWrite8 (s : State) (va : Addr) (v : BitVec 8) : Result := memWriteSub s va 1 v

/-- `MemWrite(va, 2, v)`. -/
def memWrite16 (s : State) (va : Addr) (v : BitVec 16) : Result := memWriteSub s va 2 v

/-- `MemWrite(va, 4, v)`, R245: one bus write, no read. -/
def memWrite32 (s : State) (va : Addr) (v : BitVec 32) : Result :=
  checkAligned va 4 <| andThen (translate va) fun pa => busWrite s pa v

/-- `MemWrite(va, 8, v)`, R246: two transactions, the one at `pa` first. -/
def memWrite64 (s : State) (va : Addr) (v : BitVec 64) : Result :=
  checkAligned va 8 <|
  andThen (translate va) fun pa =>
  andThen (busWrite s pa (if s.be then v.extractLsb' 32 32 else v.extractLsb' 0 32)) fun t =>
  busWrite t (pa + 4) (if s.be then v.extractLsb' 0 32 else v.extractLsb' 32 32)

/-- `Fetch(va)`, R260: the bus word itself, whatever Config.BE holds. -/
def fetch (s : State) (va : Addr) : Access BusWord :=
  checkAligned va 4 <| andThen (translate va) fun pa => busRead s pa

/-- The cell of the byte that a byte access at `va` reaches under the current Config.BE (R241, R247),
where memory backs it. -/
def byteCell (s : State) (va : Addr) : Option Nat :=
  if inSegment va then
    (memCell s.params.busMap (wordBase (physical va)).toNat).map fun c =>
      c + (if s.be then (getField va 0 2).toNat else 3 - (getField va 0 2).toNat)
  else none

end Sys2Proof.Machine
end

