-- ==== Sys2Proof/Machine/Operands.lean ====
section
/-! DEFINITION. The operand forms (spec/30_encoding.md R310 to R313, spec/44_load_store.md R800). -/

namespace Sys2Proof.Machine

/-- `simm`, R310: the sign-extended immediate. -/
def simm (imm : BitVec 16) : Word := sext64 imm

/-- `sext_32(imm)`: the immediate of the 32-bit adds (spec/41_alu.md R500). -/
def simm32 (imm : BitVec 16) : BitVec 32 := imm.signExtend 32

/-- `zimm`, R310: the zero-extended immediate. -/
def zimm (imm : BitVec 16) : Word := zext64 imm

/-- The operand of LUI, R310: `sext_64(imm || 0^16)`. -/
def luiImm (imm : BitVec 16) : Word := sext64 (imm ++ 0#16)

/-- The branch offset in bytes, R310: `sext_64(imm) << 2`. -/
def branchOffset (imm : BitVec 16) : Addr := sext64 imm <<< 2

/-- The target of J and JAL, R311, from the `pc` of the executing instruction. -/
def jumpTarget (pc : Addr) (target : BitVec 26) : Addr :=
  (pc &&& 0xFFFFFFFFF0000000#64) ||| (zext64 target <<< 2)

/-- The effective address, R800: `x[base] + sext_64(offset)`. -/
def effAddr (s : State) (base : RegIdx) (offset : BitVec 16) : Addr := s.x base + simm offset

/-- The count of SLLV, SRLV and SRAV, R312: `x[rs][4:0]`. -/
def count5 (v : Word) : Nat := (getField v 0 5).toNat

/-- The count of DSLLV, DSRLV and DSRAV, R312: `x[rs][5:0]`. -/
def count6 (v : Word) : Nat := (getField v 0 6).toNat

/-- `va[1:0]`, the place of a byte in its word. -/
def offset4 (va : Addr) : Nat := (getField va 0 2).toNat

/-- `va[2:0]`, the place of a byte in its doubleword. -/
def offset8 (va : Addr) : Nat := (getField va 0 3).toNat

/-- `s` of the left word forms, spec/44_load_store.md section 4, in bytes. -/
def leftShift4 (be : Bool) (va : Addr) : Nat := if be then offset4 va else 3 - offset4 va

/-- `t` of the right word forms, in bytes. -/
def rightShift4 (be : Bool) (va : Addr) : Nat := if be then 3 - offset4 va else offset4 va

/-- `s` of the left doubleword forms, in bytes. -/
def leftShift8 (be : Bool) (va : Addr) : Nat := if be then offset8 va else 7 - offset8 va

/-- `t` of the right doubleword forms, in bytes. -/
def rightShift8 (be : Bool) (va : Addr) : Nat := if be then 7 - offset8 va else offset8 va

/-- The low `8n` bits of a word set: `2^(8n) - 1`. -/
def lowBytes (w : Nat) (n : Nat) : BitVec w := BitVec.ofNat w (2 ^ (8 * n) - 1)

/-! The merges of the partial-word and partial-doubleword forms, R840 to R847, for `w` bits: `m` is the
word read from memory, `r` the register. -/

/-- LWL and LDL. -/
def mergeLoadLeft {w : Nat} (m r : BitVec w) (s : Nat) : BitVec w := (m <<< (8 * s)) ||| (r &&& lowBytes w s)

/-- LWR and LDR. -/
def mergeLoadRight {w : Nat} (m r : BitVec w) (t : Nat) : BitVec w :=
  (m >>> (8 * t)) ||| (r &&& ~~~(BitVec.allOnes w >>> (8 * t)))

/-- SWL and SDL. -/
def mergeStoreLeft {w : Nat} (m r : BitVec w) (s : Nat) : BitVec w :=
  (m &&& ~~~(BitVec.allOnes w >>> (8 * s))) ||| (r >>> (8 * s))

/-- SWR and SDR. -/
def mergeStoreRight {w : Nat} (m r : BitVec w) (t : Nat) : BitVec w :=
  (m &&& ~~~(BitVec.allOnes w <<< (8 * t))) ||| (r <<< (8 * t))

end Sys2Proof.Machine
end

