-- ==== Sys2Proof/Machine/Flags.lean ====
section
/-! DEFINITION. Conditions computed by instructions. The core has no integer flags (spec/10_state.md
R143): these are the overflow conditions of spec/41_alu.md R520, the branch and trap comparisons, and
the Floating-Point check of spec/47_cp1_cop.md R1111. -/

namespace Sys2Proof.Machine

/-- An exact signed result does not fit `w` bits, R520. -/
def overflows (w : Nat) (v : Int) : Bool := v < -(2 ^ (w - 1)) || 2 ^ (w - 1) - 1 < v

/-- `ovf` of a signed addition. -/
def addOverflow {w : Nat} (a b : BitVec w) : Bool := overflows w (a.toInt + b.toInt)

/-- `ovf` of a signed subtraction. -/
def subOverflow {w : Nat} (a b : BitVec w) : Bool := overflows w (a.toInt - b.toInt)

/-! Comparisons of 64-bit values, spec/43_branch_jump.md R700 and spec/45_system.md R910 to R925. -/

/-- `signed(a) < signed(b)`. -/
def ltS (a b : Word) : Bool := a.toInt < b.toInt

/-- `unsigned(a) < unsigned(b)`. -/
def ltU (a b : Word) : Bool := a.toNat < b.toNat

/-- `signed(v) < 0`. -/
def ltz (v : Word) : Bool := v.toInt < 0

/-- `signed(v) >= 0`. -/
def gez (v : Word) : Bool := 0 ≤ v.toInt

/-- `signed(v) <= 0`. -/
def lez (v : Word) : Bool := v.toInt ≤ 0

/-- `signed(v) > 0`. -/
def gtz (v : Word) : Bool := 0 < v.toInt

/-- The condition of FpeCheck, R1111: a Cause bit whose Enable bit is set, or Cause.E, which is always
enabled. -/
def fpeRaised (v : BitVec 32) : Bool := (Fcr31.cause v &&& (1#1 ++ Fcr31.enables v)) != 0

end Sys2Proof.Machine
end

