-- ==== Sys2Proof/Machine/Ops.lean ====
section
/-! DEFINITION. The shared operations: taking an exception and returning from one, the gates of
coprocessor usability, delay slots and overflow, branches, the counter, interrupts and Reset(). -/

namespace Sys2Proof.Machine

/-! ## Exceptions -/

/-- The exception causes, spec/60_exceptions.md R1210, in the source's order. The ones this block never
raises are here because Cause.ExcCode can hold their codes. Coprocessor Unusable carries its unit. -/
inductive ExcCode where
  | int
  | mod
  | tlbl
  | tlbs
  | adel
  | ades
  | ibe
  | dbe
  | sys
  | bp
  | ri
  | cpu (z : BitVec 2)
  | ov
  | tr
  | fpe
  | watch
deriving DecidableEq, Repr

/-- The ExcCode numbers, R1210. -/
def excNumber : ExcCode → BitVec 5
  | .int => 0
  | .mod => 1
  | .tlbl => 2
  | .tlbs => 3
  | .adel => 4
  | .ades => 5
  | .ibe => 6
  | .dbe => 7
  | .sys => 8
  | .bp => 9
  | .ri => 10
  | .cpu _ => 11
  | .ov => 12
  | .tr => 13
  | .fpe => 15
  | .watch => 23

/-- `GeneralVector()`, R1224. -/
def generalVector (s : State) : Addr :=
  (if StatusReg.bev s.status then Config.bootVectorBase else Config.normalVectorBase)
    + Config.vectorOffset

/-- Cause after an exception entry: ExcCode always, CE only for Coprocessor Unusable, BD only when
Status.EXL was 0 (R1220, R1223). -/
def causeOnEntry (c : Word) (e : ExcCode) (exl bd : Bool) : Word :=
  let c := CauseReg.setExcCode c (excNumber e)
  let c := match e with
    | .cpu z => CauseReg.setCe c z
    | _ => c
  if exl then c else CauseReg.setBd c bd

/-- TAKING AN EXCEPTION: `EnterException(code, ce, fpc, bd)`, R1220. Saves the faulting pc in BadVAddr
and, unless Status.EXL is already set, the return address in EPC (`fpc - 4` in a delay slot); sets EXL;
drops a pending delay slot; goes to the general vector. -/
def enterException (e : ExcCode) (fpc : Addr) (bd : Bool) (s : State) : State :=
  let exl := StatusReg.exl s.status
  let s1 := (s.setC0 Cp0.cause (causeOnEntry s.cause e exl bd)).setC0 Cp0.badVAddr fpc
  let s2 := if exl then s1 else s1.setC0 Cp0.epc (if bd then fpc - 4 else fpc)
  let s3 := s2.setC0 Cp0.status (StatusReg.setExl s.status true)
  (s3.setDs none).setPc (generalVector s)

/-- `raise E`: an instruction exception, with `fpc = cur` and `bd = inDS` (R1221). -/
def raised (e : ExcCode) (s : State) : State := enterException e s.cur s.inDS s

/-- The outcome of an instruction that raises. -/
def raise (e : ExcCode) (s : State) : Result := .next (raised e s)

/-- The Reserved Instruction path, spec/40_engine.md R420: the exception, then the signal. -/
def reservedInstruction (s : State) : Result := .next ((raised .ri s).signal s.cur s.word)

/-- RETURNING FROM AN EXCEPTION, spec/46_cp0.md R1040: to ErrorEPC clearing ERL when ERL is set, else to
EPC clearing EXL; in both cases LLbit and the delay-slot marker are cleared. -/
def returnFromException (s : State) : State :=
  let t :=
    if StatusReg.erl s.status then
      (s.setPc (s.c0 Cp0.errorEpc)).setC0 Cp0.status (StatusReg.setErl s.status false)
    else
      (s.setPc (s.c0 Cp0.epc)).setC0 Cp0.status (StatusReg.setExl s.status false)
  (t.setLlbit false).setDs none

/-! ## Gates -/

/-- The usability check of a COPz word, spec/40_engine.md R410: Coprocessor Unusable, or the
coprocessor's `Run`. -/
def copGate (z : BitVec 2) (s : State) (run : Result) : Result :=
  if usable s z then run else raise (.cpu z) s

/-- The path of a word that has no handler, R410: the coprocessor's `Run`, which has no operation for
it, when it carries a unit number, else Reserved Instruction. -/
def noHandler (w : BusWord) (s : State) : Result :=
  if hasUnit w then copGate (unitOf w) s (reservedInstruction s) else reservedInstruction s

/-- A coprocessor word whose `Run` answers Reserved Instruction (spec/46_cp0.md R1050,
spec/47_cp1_cop.md R1120, R1130). -/
def copReserved (z : BitVec 2) (s : State) : Result := copGate z s (reservedInstruction s)

/-- `ctiCheck()`, spec/40_engine.md R406: a control transfer in a delay slot is fatal. -/
def ctiCheck (s : State) (k : Result) : Result :=
  if s.inDS then .fault (.ctiInDelaySlot s.cur s.word) else k

/-- The check of spec/43_branch_jump.md R790, after the delay-slot check. -/
def linkCheck (clash : Bool) (s : State) (k : Result) : Result :=
  ctiCheck s (if clash then .fault (.linkOverwritesSource s.cur s.word) else k)

/-- A signed add or subtract, spec/41_alu.md R520: Overflow without a write under `trap`, else the
wrapped result. -/
def overflowCheck (ovf : Bool) (s : State) (k : Result) : Result :=
  if ovf && s.params.arithOverflow == .trap then raise .ov s else k

/-- A conditional trap, spec/45_system.md R910 to R925. -/
def trapIf (c : Bool) (s : State) : Result := if c then raise .tr s else .next s

/-! ## Control transfers, spec/43_branch_jump.md R700 -/

/-- A taken control transfer to `target`: the marker takes the current `pc`. -/
def transfer (target : Addr) (s : State) : State := (s.setDs (some s.pc)).setPc target

/-- `Branch(cond)`. -/
def branch (c : Bool) (imm : BitVec 16) (s : State) : State :=
  if c then transfer (s.pc + branchOffset imm) s else s

/-- `BranchLikely(cond)`: not taken, the delay slot is skipped. -/
def branchLikely (c : Bool) (imm : BitVec 16) (s : State) : State :=
  if c then transfer (s.pc + branchOffset imm) s else s.setPc (s.pc + 4)

/-- The link write, R730: `pc + 4`, the address after the delay slot. -/
def link (r : RegIdx) (s : State) : State := s.setX r (s.pc + 4)

/-! ## Writes of CP0 registers by MTC0 and DMTC0, spec/46_cp0.md R1010 to R1013 -/

/-- `CauseWrite(v)`, R1012: only the software bits of IP. -/
def causeWrite (v : Word) (s : State) : State :=
  s.setC0 Cp0.cause (CauseReg.setIpSoftware s.cause (CauseReg.ipSoftware v))

/-- A write of Compare, R1013: also clears Cause.IP[7]. -/
def compareWrite (v : Word) (s : State) : State :=
  (s.setC0 Cp0.compare v).setC0 Cp0.cause (CauseReg.setIpTimer s.cause false)

/-- The write of `cp0[rd]` by an instruction, R1010, R1011. -/
def writeC0 (rd : RegIdx) (v : Word) (s : State) : State :=
  if rd = Cp0.cause then causeWrite v s
  else if rd = Cp0.compare then compareWrite v s
  else s.setC0 rd v

/-! ## Counter and interrupts, spec/60_exceptions.md -/

/-- `IncrementCounter()`, R1260: Count + 1 modulo 2^32, then the comparison with Compare. -/
def incrementCounter (s : State) : State :=
  let c : BitVec 32 := lo32 (s.c0 Cp0.count) + 1
  let t := s.setC0 Cp0.count (zext64 c)
  if c = lo32 (s.c0 Cp0.compare) then t.setC0 Cp0.cause (CauseReg.setIpTimer s.cause true) else t

/-- `HasPendingInterrupt()`, R1250. -/
def hasPendingInterrupt (s : State) : Bool :=
  StatusReg.ie s.status && !StatusReg.exl s.status && !StatusReg.erl s.status
    && (StatusReg.im s.status &&& CauseReg.ip s.cause) != 0

/-- `TakeInterrupt()`, R1252, with the faulting pc of R1221: the pending delay slot's address and
BD = 1, or the next instruction's address and BD = 0. -/
def takeInterrupt (s : State) : State :=
  match s.ds with
  | some a => enterException .int a true s
  | none => enterException .int s.pc false s

/-! ## Reset, spec/70_reset_and_hazards.md R1301 -/

/-- The Status value Reset() leaves. -/
def statusOnReset (v : Word) : Word :=
  StatusReg.setBev (StatusReg.setErl
    (StatusReg.setRp (StatusReg.setTs (StatusReg.setSr v false) false) false) true) true

/-- `Reset()`, R1301: everything it does not write keeps its value (R1307). -/
def coldReset (s : State) : State :=
  let s1 := s.setC0 Cp0.status (statusOnReset s.status)
  let s2 := s1.setC0 Cp0.config (ConfigReg.setEc (ConfigReg.setBe s.config true) s.params.ecValue)
  let s3 := s2.setC0 Cp0.random Config.randomMax
  let s4 := (s3.setDs none).setC0 Cp0.errorEpc s.pc
  (s4.setPc Config.resetVector).setX 0 0

end Sys2Proof.Machine
end

