-- ==== Sys2Proof/Machine/Alu.lean ====
section
/-! DEFINITION. Integer arithmetic, logical, compare and shift instructions (spec/41_alu.md). The 32-bit
subset reads bits 31:0 and writes the sign extension of a 32-bit result (R521); the D forms use all 64
bits (R522). -/

namespace Sys2Proof.Machine

/-- The low word of `x[r]`, R521. -/
def xLo (s : State) (r : RegIdx) : BitVec 32 := lo32 (s.x r)

/-! ## 32-bit add and subtract -/

/-- ADDI, R500. -/
def execAddi (rs rt : RegIdx) (imm : BitVec 16) (s : State) : Result :=
  overflowCheck (addOverflow (xLo s rs) (simm32 imm)) s <|
    .next (s.setX rt (sext64 (xLo s rs + simm32 imm)))

/-- ADDIU, R501: never traps. -/
def execAddiu (rs rt : RegIdx) (imm : BitVec 16) (s : State) : Result :=
  .next (s.setX rt (sext64 (xLo s rs + simm32 imm)))

/-- ADD, R502. -/
def execAdd (rs rt rd : RegIdx) (s : State) : Result :=
  overflowCheck (addOverflow (xLo s rs) (xLo s rt)) s <|
    .next (s.setX rd (sext64 (xLo s rs + xLo s rt)))

/-- ADDU, R503: never traps. -/
def execAddu (rs rt rd : RegIdx) (s : State) : Result :=
  .next (s.setX rd (sext64 (xLo s rs + xLo s rt)))

/-- SUB, R504. -/
def execSub (rs rt rd : RegIdx) (s : State) : Result :=
  overflowCheck (subOverflow (xLo s rs) (xLo s rt)) s <|
    .next (s.setX rd (sext64 (xLo s rs - xLo s rt)))

/-- SUBU, R505: never traps. -/
def execSubu (rs rt rd : RegIdx) (s : State) : Result :=
  .next (s.setX rd (sext64 (xLo s rs - xLo s rt)))

/-! ## 64-bit add and subtract -/

/-- DADDI, R510. -/
def execDaddi (rs rt : RegIdx) (imm : BitVec 16) (s : State) : Result :=
  overflowCheck (addOverflow (s.x rs) (simm imm)) s <| .next (s.setX rt (s.x rs + simm imm))

/-- DADDIU, R511: never traps. -/
def execDaddiu (rs rt : RegIdx) (imm : BitVec 16) (s : State) : Result :=
  .next (s.setX rt (s.x rs + simm imm))

/-- DADD, R512. -/
def execDadd (rs rt rd : RegIdx) (s : State) : Result :=
  overflowCheck (addOverflow (s.x rs) (s.x rt)) s <| .next (s.setX rd (s.x rs + s.x rt))

/-- DADDU, R513: never traps. -/
def execDaddu (rs rt rd : RegIdx) (s : State) : Result := .next (s.setX rd (s.x rs + s.x rt))

/-- DSUB, R514. -/
def execDsub (rs rt rd : RegIdx) (s : State) : Result :=
  overflowCheck (subOverflow (s.x rs) (s.x rt)) s <| .next (s.setX rd (s.x rs - s.x rt))

/-- DSUBU, R515: never traps. -/
def execDsubu (rs rt rd : RegIdx) (s : State) : Result := .next (s.setX rd (s.x rs - s.x rt))

/-! ## Logical -/

/-- AND, R530. -/
def execAnd (rs rt rd : RegIdx) (s : State) : Result := .next (s.setX rd (s.x rs &&& s.x rt))

/-- OR, R531. -/
def execOr (rs rt rd : RegIdx) (s : State) : Result := .next (s.setX rd (s.x rs ||| s.x rt))

/-- XOR, R532. -/
def execXor (rs rt rd : RegIdx) (s : State) : Result := .next (s.setX rd (s.x rs ^^^ s.x rt))

/-- NOR, R533. -/
def execNor (rs rt rd : RegIdx) (s : State) : Result := .next (s.setX rd (~~~(s.x rs ||| s.x rt)))

/-- ANDI, R534. -/
def execAndi (rs rt : RegIdx) (imm : BitVec 16) (s : State) : Result :=
  .next (s.setX rt (s.x rs &&& zimm imm))

/-- ORI, R535. -/
def execOri (rs rt : RegIdx) (imm : BitVec 16) (s : State) : Result :=
  .next (s.setX rt (s.x rs ||| zimm imm))

/-- XORI, R536. -/
def execXori (rs rt : RegIdx) (imm : BitVec 16) (s : State) : Result :=
  .next (s.setX rt (s.x rs ^^^ zimm imm))

/-- LUI, R537. -/
def execLui (rt : RegIdx) (imm : BitVec 16) (s : State) : Result := .next (s.setX rt (luiImm imm))

/-! ## Set on less than -/

/-- SLT, R540. -/
def execSlt (rs rt rd : RegIdx) (s : State) : Result :=
  .next (s.setX rd (boolWord (ltS (s.x rs) (s.x rt))))

/-- SLTU, R541. -/
def execSltu (rs rt rd : RegIdx) (s : State) : Result :=
  .next (s.setX rd (boolWord (ltU (s.x rs) (s.x rt))))

/-- SLTI, R542. -/
def execSlti (rs rt : RegIdx) (imm : BitVec 16) (s : State) : Result :=
  .next (s.setX rt (boolWord (ltS (s.x rs) (simm imm))))

/-- SLTIU, R543: unsigned against the sign-extended immediate. -/
def execSltiu (rs rt : RegIdx) (imm : BitVec 16) (s : State) : Result :=
  .next (s.setX rt (boolWord (ltU (s.x rs) (simm imm))))

/-! ## 32-bit shifts -/

/-- SLL, R550. -/
def execSll (rt rd : RegIdx) (sa : BitVec 5) (s : State) : Result :=
  .next (s.setX rd (sext64 (xLo s rt <<< sa.toNat)))

/-- SRL, R551. -/
def execSrl (rt rd : RegIdx) (sa : BitVec 5) (s : State) : Result :=
  .next (s.setX rd (sext64 (xLo s rt >>> sa.toNat)))

/-- SRA, R552. -/
def execSra (rt rd : RegIdx) (sa : BitVec 5) (s : State) : Result :=
  .next (s.setX rd (sext64 ((xLo s rt).sshiftRight sa.toNat)))

/-- SLLV, R553. -/
def execSllv (rs rt rd : RegIdx) (s : State) : Result :=
  .next (s.setX rd (sext64 (xLo s rt <<< count5 (s.x rs))))

/-- SRLV, R554. -/
def execSrlv (rs rt rd : RegIdx) (s : State) : Result :=
  .next (s.setX rd (sext64 (xLo s rt >>> count5 (s.x rs))))

/-- SRAV, R555. -/
def execSrav (rs rt rd : RegIdx) (s : State) : Result :=
  .next (s.setX rd (sext64 ((xLo s rt).sshiftRight (count5 (s.x rs)))))

/-! ## 64-bit shifts -/

/-- DSLL, R556. -/
def execDsll (rt rd : RegIdx) (sa : BitVec 5) (s : State) : Result :=
  .next (s.setX rd (s.x rt <<< sa.toNat))

/-- DSRL, R557. -/
def execDsrl (rt rd : RegIdx) (sa : BitVec 5) (s : State) : Result :=
  .next (s.setX rd (s.x rt >>> sa.toNat))

/-- DSRA, R558. -/
def execDsra (rt rd : RegIdx) (sa : BitVec 5) (s : State) : Result :=
  .next (s.setX rd ((s.x rt).sshiftRight sa.toNat))

/-- DSLL32, R559. -/
def execDsll32 (rt rd : RegIdx) (sa : BitVec 5) (s : State) : Result :=
  .next (s.setX rd (s.x rt <<< (sa.toNat + 32)))

/-- DSRL32, R560. -/
def execDsrl32 (rt rd : RegIdx) (sa : BitVec 5) (s : State) : Result :=
  .next (s.setX rd (s.x rt >>> (sa.toNat + 32)))

/-- DSRA32, R561. -/
def execDsra32 (rt rd : RegIdx) (sa : BitVec 5) (s : State) : Result :=
  .next (s.setX rd ((s.x rt).sshiftRight (sa.toNat + 32)))

/-- DSLLV, R562. -/
def execDsllv (rs rt rd : RegIdx) (s : State) : Result :=
  .next (s.setX rd (s.x rt <<< count6 (s.x rs)))

/-- DSRLV, R563. -/
def execDsrlv (rs rt rd : RegIdx) (s : State) : Result :=
  .next (s.setX rd (s.x rt >>> count6 (s.x rs)))

/-- DSRAV, R564. -/
def execDsrav (rs rt rd : RegIdx) (s : State) : Result :=
  .next (s.setX rd ((s.x rt).sshiftRight (count6 (s.x rs))))

end Sys2Proof.Machine
end

