-- ==== Sys2Proof/Machine/Branch.lean ====
section
/-! DEFINITION. Branches and jumps (spec/43_branch_jump.md). While one runs, `pc` is the address of its
delay slot (spec/40_engine.md R405). -/

namespace Sys2Proof.Machine

/-- BEQ, R710. -/
def execBeq (rs rt : RegIdx) (offset : BitVec 16) (s : State) : Result :=
  ctiCheck s <| .next (branch (s.x rs == s.x rt) offset s)

/-- BNE, R711. -/
def execBne (rs rt : RegIdx) (offset : BitVec 16) (s : State) : Result :=
  ctiCheck s <| .next (branch (s.x rs != s.x rt) offset s)

/-- BLEZ, R712. -/
def execBlez (rs : RegIdx) (offset : BitVec 16) (s : State) : Result :=
  ctiCheck s <| .next (branch (lez (s.x rs)) offset s)

/-- BGTZ, R713. -/
def execBgtz (rs : RegIdx) (offset : BitVec 16) (s : State) : Result :=
  ctiCheck s <| .next (branch (gtz (s.x rs)) offset s)

/-- BEQL, R714. -/
def execBeql (rs rt : RegIdx) (offset : BitVec 16) (s : State) : Result :=
  ctiCheck s <| .next (branchLikely (s.x rs == s.x rt) offset s)

/-- BNEL, R715. -/
def execBnel (rs rt : RegIdx) (offset : BitVec 16) (s : State) : Result :=
  ctiCheck s <| .next (branchLikely (s.x rs != s.x rt) offset s)

/-- BLEZL, R716. -/
def execBlezl (rs : RegIdx) (offset : BitVec 16) (s : State) : Result :=
  ctiCheck s <| .next (branchLikely (lez (s.x rs)) offset s)

/-- BGTZL, R717. -/
def execBgtzl (rs : RegIdx) (offset : BitVec 16) (s : State) : Result :=
  ctiCheck s <| .next (branchLikely (gtz (s.x rs)) offset s)

/-- J, R720. -/
def execJ (target : BitVec 26) (s : State) : Result :=
  ctiCheck s <| .next (transfer (jumpTarget s.pc target) s)

/-- JAL, R721. -/
def execJal (target : BitVec 26) (s : State) : Result :=
  ctiCheck s <| .next (transfer (jumpTarget s.pc target) (link 31 s))

/-- JR, R722. -/
def execJr (rs : RegIdx) (s : State) : Result := ctiCheck s <| .next (transfer (s.x rs) s)

/-- JALR, R723. The target is read before the link is written (R731). -/
def execJalr (rs rd : RegIdx) (s : State) : Result :=
  linkCheck (rd == rs) s <| .next (transfer (s.x rs) (link rd s))

/-- BLTZ, R740. -/
def execBltz (rs : RegIdx) (offset : BitVec 16) (s : State) : Result :=
  ctiCheck s <| .next (branch (ltz (s.x rs)) offset s)

/-- BGEZ, R741. -/
def execBgez (rs : RegIdx) (offset : BitVec 16) (s : State) : Result :=
  ctiCheck s <| .next (branch (gez (s.x rs)) offset s)

/-- BLTZL, R742. -/
def execBltzl (rs : RegIdx) (offset : BitVec 16) (s : State) : Result :=
  ctiCheck s <| .next (branchLikely (ltz (s.x rs)) offset s)

/-- BGEZL, R743. -/
def execBgezl (rs : RegIdx) (offset : BitVec 16) (s : State) : Result :=
  ctiCheck s <| .next (branchLikely (gez (s.x rs)) offset s)

/-- BLTZAL, R744: links taken or not. -/
def execBltzal (rs : RegIdx) (offset : BitVec 16) (s : State) : Result :=
  linkCheck (rs == 31) s <| .next (branch (ltz (s.x rs)) offset (link 31 s))

/-- BGEZAL, R745: links taken or not. -/
def execBgezal (rs : RegIdx) (offset : BitVec 16) (s : State) : Result :=
  linkCheck (rs == 31) s <| .next (branch (gez (s.x rs)) offset (link 31 s))

/-- BLTZALL, R746: links taken or not. -/
def execBltzall (rs : RegIdx) (offset : BitVec 16) (s : State) : Result :=
  linkCheck (rs == 31) s <| .next (branchLikely (ltz (s.x rs)) offset (link 31 s))

/-- BGEZALL, R747: links taken or not. -/
def execBgezall (rs : RegIdx) (offset : BitVec 16) (s : State) : Result :=
  linkCheck (rs == 31) s <| .next (branchLikely (gez (s.x rs)) offset (link 31 s))

end Sys2Proof.Machine
end

