-- ==== Sys2Proof/Machine/Cp0.lean ====
section
/-! DEFINITION. CP0 instructions (spec/46_cp0.md). Each is reached through the usability check of CP0
(spec/40_engine.md R410). -/

namespace Sys2Proof.Machine

/-- MFC0, R1000: the low word, sign-extended. -/
def execMfc0 (rt rd : RegIdx) (s : State) : Result :=
  copGate 0 s <| .next (s.setX rt (sext64 (lo32 (s.c0 rd))))

/-- DMFC0, R1001. -/
def execDmfc0 (rt rd : RegIdx) (s : State) : Result := copGate 0 s <| .next (s.setX rt (s.c0 rd))

/-- MTC0, R1010. -/
def execMtc0 (rt rd : RegIdx) (s : State) : Result :=
  copGate 0 s <| .next (writeC0 rd (sext64 (xLo s rt)) s)

/-- DMTC0, R1011. -/
def execDmtc0 (rt rd : RegIdx) (s : State) : Result := copGate 0 s <| .next (writeC0 rd (s.x rt) s)

/-- TLBWI, R1020: nothing, there is no TLB. -/
def execTlbwi (s : State) : Result := copGate 0 s <| .next s

/-- ERET, R1040. It has no delay slot; in a delay slot it is fatal (spec/40_engine.md R406). -/
def execEret (s : State) : Result := copGate 0 s <| ctiCheck s <| .next (returnFromException s)

/-- BC0, R1050: Reserved Instruction. -/
def execBc0 (_ndTf : BitVec 2) (_offset : BitVec 16) (s : State) : Result := copReserved 0 s

/-- TLBR, R1050: Reserved Instruction. -/
def execTlbr (s : State) : Result := copReserved 0 s

/-- TLBWR, R1050: Reserved Instruction. -/
def execTlbwr (s : State) : Result := copReserved 0 s

/-- TLBP, R1050: Reserved Instruction. -/
def execTlbp (s : State) : Result := copReserved 0 s

end Sys2Proof.Machine
end

