-- ==== Sys2Proof/Machine/Cp1.lean ====
section
/-! DEFINITION. The CP1 control stub and coprocessors 2 and 3 (spec/47_cp1_cop.md). -/

namespace Sys2Proof.Machine

/-- CFC1, R1100, R1101: FCR0, FCR31, else Reserved Instruction. -/
def execCfc1 (rt fs : RegIdx) (s : State) : Result :=
  copGate 1 s <|
    if fs = 0 then .next (s.setX rt (sext64 s.fcr0))
    else if fs = 31 then .next (s.setX rt (sext64 s.fcr31))
    else reservedInstruction s

/-- The write of FCR31 with its synchronous check, R1110, R1111: the written value stays when the
Floating-Point exception is raised. -/
def writeFcr31 (v : BitVec 32) (s : State) : Result :=
  if fpeRaised v then raise .fpe (s.setFcr31 v) else .next (s.setFcr31 v)

/-- CTC1, R1110, R1112: a write of FCR0 is ignored. -/
def execCtc1 (rt fs : RegIdx) (s : State) : Result :=
  copGate 1 s <|
    if fs = 0 then .next s
    else if fs = 31 then writeFcr31 (xLo s rt) s
    else reservedInstruction s

/-- MFC1, R1120: Reserved Instruction. -/
def execMfc1 (_rt _fs : RegIdx) (s : State) : Result := copReserved 1 s

/-- DMFC1, R1120: Reserved Instruction. -/
def execDmfc1 (_rt _fs : RegIdx) (s : State) : Result := copReserved 1 s

/-- MTC1, R1120: Reserved Instruction. -/
def execMtc1 (_rt _fs : RegIdx) (s : State) : Result := copReserved 1 s

/-- DMTC1, R1120: Reserved Instruction. -/
def execDmtc1 (_rt _fs : RegIdx) (s : State) : Result := copReserved 1 s

/-- BC1, R1120: Reserved Instruction. -/
def execBc1 (_ndTf : BitVec 2) (_offset : BitVec 16) (s : State) : Result := copReserved 1 s

/-- COP1.S, R1120: Reserved Instruction. -/
def execCop1S (_ft _fs _fd : RegIdx) (_funct : BitVec 6) (s : State) : Result := copReserved 1 s

/-- COP1.D, R1120: Reserved Instruction. -/
def execCop1D (_ft _fs _fd : RegIdx) (_funct : BitVec 6) (s : State) : Result := copReserved 1 s

/-- COP1.W, R1120: Reserved Instruction. -/
def execCop1W (_ft _fs _fd : RegIdx) (_funct : BitVec 6) (s : State) : Result := copReserved 1 s

/-- COP1.L, R1120: Reserved Instruction. -/
def execCop1L (_ft _fs _fd : RegIdx) (_funct : BitVec 6) (s : State) : Result := copReserved 1 s

/-- LWC1, R1121: Reserved Instruction whatever CU holds. -/
def execLwc1 (_base _ft : RegIdx) (_offset : BitVec 16) (s : State) : Result :=
  reservedInstruction s

/-- LWC2, R1121: Reserved Instruction whatever CU holds. -/
def execLwc2 (_base _ft : RegIdx) (_offset : BitVec 16) (s : State) : Result :=
  reservedInstruction s

/-- LDC1, R1121: Reserved Instruction whatever CU holds. -/
def execLdc1 (_base _ft : RegIdx) (_offset : BitVec 16) (s : State) : Result :=
  reservedInstruction s

/-- LDC2, R1121: Reserved Instruction whatever CU holds. -/
def execLdc2 (_base _ft : RegIdx) (_offset : BitVec 16) (s : State) : Result :=
  reservedInstruction s

/-- SWC1, R1121: Reserved Instruction whatever CU holds. -/
def execSwc1 (_base _ft : RegIdx) (_offset : BitVec 16) (s : State) : Result :=
  reservedInstruction s

/-- SWC2, R1121: Reserved Instruction whatever CU holds. -/
def execSwc2 (_base _ft : RegIdx) (_offset : BitVec 16) (s : State) : Result :=
  reservedInstruction s

/-- SDC1, R1121: Reserved Instruction whatever CU holds. -/
def execSdc1 (_base _ft : RegIdx) (_offset : BitVec 16) (s : State) : Result :=
  reservedInstruction s

/-- SDC2, R1121: Reserved Instruction whatever CU holds. -/
def execSdc2 (_base _ft : RegIdx) (_offset : BitVec 16) (s : State) : Result :=
  reservedInstruction s

/-- COP2, R1130. -/
def execCop2 (_cofun : BitVec 26) (s : State) : Result := copReserved 2 s

/-- COP3, R1130. -/
def execCop3 (_cofun : BitVec 26) (s : State) : Result := copReserved 3 s

end Sys2Proof.Machine
end

