-- ==== Sys2Proof/Machine/LoadStore.lean ====
section
/-! DEFINITION. Loads and stores (spec/44_load_store.md). Every access goes through the sized-access path
of spec/20_memory.md, and its failures are fatal faults (R801). -/

namespace Sys2Proof.Machine

/-! ## Loads -/

/-- LB, R810. -/
def execLb (base rt : RegIdx) (offset : BitVec 16) (s : State) : Result :=
  andThen (memRead8 s (effAddr s base offset)) fun v => .next (s.setX rt (sext64 v))

/-- LBU, R811. -/
def execLbu (base rt : RegIdx) (offset : BitVec 16) (s : State) : Result :=
  andThen (memRead8 s (effAddr s base offset)) fun v => .next (s.setX rt (zext64 v))

/-- LH, R812. -/
def execLh (base rt : RegIdx) (offset : BitVec 16) (s : State) : Result :=
  andThen (memRead16 s (effAddr s base offset)) fun v => .next (s.setX rt (sext64 v))

/-- LHU, R813. -/
def execLhu (base rt : RegIdx) (offset : BitVec 16) (s : State) : Result :=
  andThen (memRead16 s (effAddr s base offset)) fun v => .next (s.setX rt (zext64 v))

/-- LW, R814. -/
def execLw (base rt : RegIdx) (offset : BitVec 16) (s : State) : Result :=
  andThen (memRead32 s (effAddr s base offset)) fun v => .next (s.setX rt (sext64 v))

/-- LWU, R815. -/
def execLwu (base rt : RegIdx) (offset : BitVec 16) (s : State) : Result :=
  andThen (memRead32 s (effAddr s base offset)) fun v => .next (s.setX rt (zext64 v))

/-- LD, R816. -/
def execLd (base rt : RegIdx) (offset : BitVec 16) (s : State) : Result :=
  andThen (memRead64 s (effAddr s base offset)) fun v => .next (s.setX rt v)

/-! ## Stores -/

/-- SB, R820. -/
def execSb (base rt : RegIdx) (offset : BitVec 16) (s : State) : Result :=
  memWrite8 s (effAddr s base offset) ((s.x rt).setWidth 8)

/-- SH, R821. -/
def execSh (base rt : RegIdx) (offset : BitVec 16) (s : State) : Result :=
  memWrite16 s (effAddr s base offset) ((s.x rt).setWidth 16)

/-- SW, R822. -/
def execSw (base rt : RegIdx) (offset : BitVec 16) (s : State) : Result :=
  memWrite32 s (effAddr s base offset) (xLo s rt)

/-- SD, R823. -/
def execSd (base rt : RegIdx) (offset : BitVec 16) (s : State) : Result :=
  memWrite64 s (effAddr s base offset) (s.x rt)

/-! ## Partial-word and partial-doubleword accesses -/

/-- LWL, R840. -/
def execLwl (base rt : RegIdx) (offset : BitVec 16) (s : State) : Result :=
  let va := effAddr s base offset
  andThen (memRead32 s (wordBase va)) fun w =>
  .next (s.setX rt (sext64 (mergeLoadLeft w (xLo s rt) (leftShift4 s.be va))))

/-- The register LWR leaves, R841: the low word `r`, sign-extended when all four bytes were loaded
(`t = 0`), else under a draw in bits 63:32, which advances the draw counter. The draw is a FREE VALUE
(D28, log 12). -/
def writeLwr (rt : RegIdx) (t : Nat) (r : BitVec 32) (s : State) : State :=
  if t = 0 then s.setX rt (sext64 r)
  else (s.setX rt (Config.freeWord s.draws ++ r)).setDraws (s.draws + 1)

/-- LWR, R841. -/
def execLwr (base rt : RegIdx) (offset : BitVec 16) (s : State) : Result :=
  let va := effAddr s base offset
  let t := rightShift4 s.be va
  andThen (memRead32 s (wordBase va)) fun w => .next (writeLwr rt t (mergeLoadRight w (xLo s rt) t) s)

/-- SWL, R842: a bus read, then a bus write. -/
def execSwl (base rt : RegIdx) (offset : BitVec 16) (s : State) : Result :=
  let va := effAddr s base offset
  andThen (memRead32 s (wordBase va)) fun w =>
  memWrite32 s (wordBase va) (mergeStoreLeft w (xLo s rt) (leftShift4 s.be va))

/-- SWR, R843. -/
def execSwr (base rt : RegIdx) (offset : BitVec 16) (s : State) : Result :=
  let va := effAddr s base offset
  andThen (memRead32 s (wordBase va)) fun w =>
  memWrite32 s (wordBase va) (mergeStoreRight w (xLo s rt) (rightShift4 s.be va))

/-- LDL, R844. -/
def execLdl (base rt : RegIdx) (offset : BitVec 16) (s : State) : Result :=
  let va := effAddr s base offset
  andThen (memRead64 s (dwordBase va)) fun m =>
  .next (s.setX rt (mergeLoadLeft m (s.x rt) (leftShift8 s.be va)))

/-- LDR, R845. -/
def execLdr (base rt : RegIdx) (offset : BitVec 16) (s : State) : Result :=
  let va := effAddr s base offset
  andThen (memRead64 s (dwordBase va)) fun m =>
  .next (s.setX rt (mergeLoadRight m (s.x rt) (rightShift8 s.be va)))

/-- SDL, R846: two bus reads, then two bus writes. -/
def execSdl (base rt : RegIdx) (offset : BitVec 16) (s : State) : Result :=
  let va := effAddr s base offset
  andThen (memRead64 s (dwordBase va)) fun m =>
  memWrite64 s (dwordBase va) (mergeStoreLeft m (s.x rt) (leftShift8 s.be va))

/-- SDR, R847. -/
def execSdr (base rt : RegIdx) (offset : BitVec 16) (s : State) : Result :=
  let va := effAddr s base offset
  andThen (memRead64 s (dwordBase va)) fun m =>
  memWrite64 s (dwordBase va) (mergeStoreRight m (s.x rt) (rightShift8 s.be va))

/-! ## Load-linked and store-conditional -/

/-- What LL and LLD write beside the register, R860, R861: LLbit, and LLAddr with the physical address
shifted right by 4. -/
def loadLinked (rt : RegIdx) (v : Word) (pa : Addr) (s : State) : State :=
  ((s.setX rt v).setLlbit true).setC0 Cp0.llAddr (sext64 (lo32 (pa >>> 4)))

/-- LL, R860. -/
def execLl (base rt : RegIdx) (offset : BitVec 16) (s : State) : Result :=
  let va := effAddr s base offset
  andThen (memRead32 s va) fun v =>
  andThen (translate va) fun pa => .next (loadLinked rt (sext64 v) pa s)

/-- LLD, R861. -/
def execLld (base rt : RegIdx) (offset : BitVec 16) (s : State) : Result :=
  let va := effAddr s base offset
  andThen (memRead64 s va) fun v =>
  andThen (translate va) fun pa => .next (loadLinked rt v pa s)

/-- SC, R862. A failed SC makes no access, translation or alignment check. -/
def execSc (base rt : RegIdx) (offset : BitVec 16) (s : State) : Result :=
  if s.llbit then
    andThen (memWrite32 s (effAddr s base offset) (xLo s rt)) fun t => .next (t.setX rt 1)
  else .next (s.setX rt 0)

/-- SCD, R863. -/
def execScd (base rt : RegIdx) (offset : BitVec 16) (s : State) : Result :=
  if s.llbit then
    andThen (memWrite64 s (effAddr s base offset) (s.x rt)) fun t => .next (t.setX rt 1)
  else .next (s.setX rt 0)

end Sys2Proof.Machine
end

