-- ==== Sys2Proof/Machine/MulDiv.lean ====
section
/-! DEFINITION. Multiply, divide and HI/LO transfers (spec/42_muldiv.md). LO receives the low half of a
product or the quotient, HI the high half or the remainder. -/

namespace Sys2Proof.Machine

/-- HI and LO are written whole and together, R630. -/
def setHiLo (hi lo : Word) (s : State) : State := (s.setHi hi).setLo lo

/-- The halves of a 64-bit product, each sign-extended, R612. -/
def product32 (p : Word) (s : State) : State :=
  setHiLo (sext64 (p.extractLsb' 32 32)) (sext64 (p.extractLsb' 0 32)) s

/-- The halves of a 128-bit product. -/
def product64 (p : BitVec 128) (s : State) : State :=
  setHiLo (p.extractLsb' 64 64) (p.extractLsb' 0 64) s

/-- The quotient toward zero of two signed values, truncated to `w` bits, R611. For the most negative
value divided by -1 the truncation gives the most negative value again (R613). -/
def quotS {w : Nat} (a b : BitVec w) : BitVec w := BitVec.ofInt w (a.toInt.tdiv b.toInt)

/-- The remainder with the sign of the dividend, R611. -/
def remS {w : Nat} (a b : BitVec w) : BitVec w := BitVec.ofInt w (a.toInt.tmod b.toInt)

/-- The quotient of two unsigned values. -/
def quotU {w : Nat} (a b : BitVec w) : BitVec w := BitVec.ofNat w (a.toNat / b.toNat)

/-- The remainder of two unsigned values. -/
def remU {w : Nat} (a b : BitVec w) : BitVec w := BitVec.ofNat w (a.toNat % b.toNat)

/-- Divide by zero leaves HI and LO as they were and nothing else changes, R610. -/
def divide (byZero : Bool) (rem quot : Word) (s : State) : State :=
  if byZero then s else setHiLo rem quot s

/-- MULT, R600: the exact signed product of the low words. -/
def execMult (rs rt : RegIdx) (s : State) : Result :=
  .next (product32 (sext64 (xLo s rs) * sext64 (xLo s rt)) s)

/-- MULTU, R601: the exact unsigned product of the low words. -/
def execMultu (rs rt : RegIdx) (s : State) : Result :=
  .next (product32 (zext64 (xLo s rs) * zext64 (xLo s rt)) s)

/-- DIV, R602. -/
def execDiv (rs rt : RegIdx) (s : State) : Result :=
  .next (divide (xLo s rt == 0) (sext64 (remS (xLo s rs) (xLo s rt)))
    (sext64 (quotS (xLo s rs) (xLo s rt))) s)

/-- DIVU, R603: the 32-bit form (spec/90_conflicts.md C2). -/
def execDivu (rs rt : RegIdx) (s : State) : Result :=
  .next (divide (xLo s rt == 0) (sext64 (remU (xLo s rs) (xLo s rt)))
    (sext64 (quotU (xLo s rs) (xLo s rt))) s)

/-- DMULT, R604: the exact signed 128-bit product. -/
def execDmult (rs rt : RegIdx) (s : State) : Result :=
  .next (product64 ((s.x rs).signExtend 128 * (s.x rt).signExtend 128) s)

/-- DMULTU, R605: the exact unsigned 128-bit product. -/
def execDmultu (rs rt : RegIdx) (s : State) : Result :=
  .next (product64 ((s.x rs).setWidth 128 * (s.x rt).setWidth 128) s)

/-- DDIV, R606. -/
def execDdiv (rs rt : RegIdx) (s : State) : Result :=
  .next (divide (s.x rt == 0) (remS (s.x rs) (s.x rt)) (quotS (s.x rs) (s.x rt)) s)

/-- DDIVU, R607. -/
def execDdivu (rs rt : RegIdx) (s : State) : Result :=
  .next (divide (s.x rt == 0) (remU (s.x rs) (s.x rt)) (quotU (s.x rs) (s.x rt)) s)

/-- MFHI, R620. -/
def execMfhi (rd : RegIdx) (s : State) : Result := .next (s.setX rd s.hi)

/-- MTHI, R621. -/
def execMthi (rs : RegIdx) (s : State) : Result := .next (s.setHi (s.x rs))

/-- MFLO, R622. -/
def execMflo (rd : RegIdx) (s : State) : Result := .next (s.setX rd s.lo)

/-- MTLO, R623. -/
def execMtlo (rs : RegIdx) (s : State) : Result := .next (s.setLo (s.x rs))

end Sys2Proof.Machine
end

