-- ==== Sys2Proof/Machine/System.lean ====
section
/-! DEFINITION. System call, breakpoint, traps, CACHE and SYNC (spec/45_system.md). The code fields are
ignored by the hardware. -/

namespace Sys2Proof.Machine

/-- SYSCALL, R900. -/
def execSyscall (_code : BitVec 20) (s : State) : Result := raise .sys s

/-- BREAK, R901. -/
def execBreak (_code : BitVec 20) (s : State) : Result := raise .bp s

/-- TGE, R910. -/
def execTge (rs rt : RegIdx) (_code : BitVec 10) (s : State) : Result :=
  trapIf (!ltS (s.x rs) (s.x rt)) s

/-- TGEU, R911. -/
def execTgeu (rs rt : RegIdx) (_code : BitVec 10) (s : State) : Result :=
  trapIf (!ltU (s.x rs) (s.x rt)) s

/-- TLT, R912. -/
def execTlt (rs rt : RegIdx) (_code : BitVec 10) (s : State) : Result :=
  trapIf (ltS (s.x rs) (s.x rt)) s

/-- TLTU, R913. -/
def execTltu (rs rt : RegIdx) (_code : BitVec 10) (s : State) : Result :=
  trapIf (ltU (s.x rs) (s.x rt)) s

/-- TEQ, R914. -/
def execTeq (rs rt : RegIdx) (_code : BitVec 10) (s : State) : Result := trapIf (s.x rs == s.x rt) s

/-- TNE, R915. -/
def execTne (rs rt : RegIdx) (_code : BitVec 10) (s : State) : Result := trapIf (s.x rs != s.x rt) s

/-- TGEI, R920. -/
def execTgei (rs : RegIdx) (imm : BitVec 16) (s : State) : Result :=
  trapIf (!ltS (s.x rs) (simm imm)) s

/-- TGEIU, R921. -/
def execTgeiu (rs : RegIdx) (imm : BitVec 16) (s : State) : Result :=
  trapIf (!ltU (s.x rs) (simm imm)) s

/-- TLTI, R922. -/
def execTlti (rs : RegIdx) (imm : BitVec 16) (s : State) : Result :=
  trapIf (ltS (s.x rs) (simm imm)) s

/-- TLTIU, R923. -/
def execTltiu (rs : RegIdx) (imm : BitVec 16) (s : State) : Result :=
  trapIf (ltU (s.x rs) (simm imm)) s

/-- TEQI, R924. -/
def execTeqi (rs : RegIdx) (imm : BitVec 16) (s : State) : Result := trapIf (s.x rs == simm imm) s

/-- TNEI, R925. -/
def execTnei (rs : RegIdx) (imm : BitVec 16) (s : State) : Result := trapIf (s.x rs != simm imm) s

/-- CACHE, R930: Coprocessor Unusable on unit 0, else nothing; no address is computed. -/
def execCache (_base : RegIdx) (_op : BitVec 5) (_offset : BitVec 16) (s : State) : Result :=
  copGate 0 s (.next s)

/-- SYNC, R931: nothing. -/
def execSync (_stype : BitVec 5) (s : State) : Result := .next s

end Sys2Proof.Machine
end

