-- ==== Sys2Proof/Machine/Dispatch.lean ====
section
/-! DEFINITION. The dispatch of an instruction to its meaning, one arm per constructor. -/

namespace Sys2Proof.Machine

def exec (i : Instr) (s : State) : Host.Outcome State Fault Refusal :=
  match i with
  | .j target => Sys2Proof.Machine.execJ target s
  | .jal target => Sys2Proof.Machine.execJal target s
  | .beq rs rt offset => Sys2Proof.Machine.execBeq rs rt offset s
  | .bne rs rt offset => Sys2Proof.Machine.execBne rs rt offset s
  | .blez rs offset => Sys2Proof.Machine.execBlez rs offset s
  | .bgtz rs offset => Sys2Proof.Machine.execBgtz rs offset s
  | .addi rs rt imm => Sys2Proof.Machine.execAddi rs rt imm s
  | .addiu rs rt imm => Sys2Proof.Machine.execAddiu rs rt imm s
  | .slti rs rt imm => Sys2Proof.Machine.execSlti rs rt imm s
  | .sltiu rs rt imm => Sys2Proof.Machine.execSltiu rs rt imm s
  | .andi rs rt imm => Sys2Proof.Machine.execAndi rs rt imm s
  | .ori rs rt imm => Sys2Proof.Machine.execOri rs rt imm s
  | .xori rs rt imm => Sys2Proof.Machine.execXori rs rt imm s
  | .lui rt imm => Sys2Proof.Machine.execLui rt imm s
  | .beql rs rt offset => Sys2Proof.Machine.execBeql rs rt offset s
  | .bnel rs rt offset => Sys2Proof.Machine.execBnel rs rt offset s
  | .blezl rs offset => Sys2Proof.Machine.execBlezl rs offset s
  | .bgtzl rs offset => Sys2Proof.Machine.execBgtzl rs offset s
  | .daddi rs rt imm => Sys2Proof.Machine.execDaddi rs rt imm s
  | .daddiu rs rt imm => Sys2Proof.Machine.execDaddiu rs rt imm s
  | .ldl base rt offset => Sys2Proof.Machine.execLdl base rt offset s
  | .ldr base rt offset => Sys2Proof.Machine.execLdr base rt offset s
  | .lb base rt offset => Sys2Proof.Machine.execLb base rt offset s
  | .lh base rt offset => Sys2Proof.Machine.execLh base rt offset s
  | .lwl base rt offset => Sys2Proof.Machine.execLwl base rt offset s
  | .lw base rt offset => Sys2Proof.Machine.execLw base rt offset s
  | .lbu base rt offset => Sys2Proof.Machine.execLbu base rt offset s
  | .lhu base rt offset => Sys2Proof.Machine.execLhu base rt offset s
  | .lwr base rt offset => Sys2Proof.Machine.execLwr base rt offset s
  | .lwu base rt offset => Sys2Proof.Machine.execLwu base rt offset s
  | .sb base rt offset => Sys2Proof.Machine.execSb base rt offset s
  | .sh base rt offset => Sys2Proof.Machine.execSh base rt offset s
  | .swl base rt offset => Sys2Proof.Machine.execSwl base rt offset s
  | .sw base rt offset => Sys2Proof.Machine.execSw base rt offset s
  | .sdl base rt offset => Sys2Proof.Machine.execSdl base rt offset s
  | .sdr base rt offset => Sys2Proof.Machine.execSdr base rt offset s
  | .swr base rt offset => Sys2Proof.Machine.execSwr base rt offset s
  | .cache base op offset => Sys2Proof.Machine.execCache base op offset s
  | .ll base rt offset => Sys2Proof.Machine.execLl base rt offset s
  | .lwc1 base ft offset => Sys2Proof.Machine.execLwc1 base ft offset s
  | .lwc2 base ft offset => Sys2Proof.Machine.execLwc2 base ft offset s
  | .lld base rt offset => Sys2Proof.Machine.execLld base rt offset s
  | .ldc1 base ft offset => Sys2Proof.Machine.execLdc1 base ft offset s
  | .ldc2 base ft offset => Sys2Proof.Machine.execLdc2 base ft offset s
  | .ld base rt offset => Sys2Proof.Machine.execLd base rt offset s
  | .sc base rt offset => Sys2Proof.Machine.execSc base rt offset s
  | .swc1 base ft offset => Sys2Proof.Machine.execSwc1 base ft offset s
  | .swc2 base ft offset => Sys2Proof.Machine.execSwc2 base ft offset s
  | .scd base rt offset => Sys2Proof.Machine.execScd base rt offset s
  | .sdc1 base ft offset => Sys2Proof.Machine.execSdc1 base ft offset s
  | .sdc2 base ft offset => Sys2Proof.Machine.execSdc2 base ft offset s
  | .sd base rt offset => Sys2Proof.Machine.execSd base rt offset s
  | .sll rt rd sa => Sys2Proof.Machine.execSll rt rd sa s
  | .add rs rt rd => Sys2Proof.Machine.execAdd rs rt rd s
  | .addu rs rt rd => Sys2Proof.Machine.execAddu rs rt rd s
  | .srl rt rd sa => Sys2Proof.Machine.execSrl rt rd sa s
  | .sub rs rt rd => Sys2Proof.Machine.execSub rs rt rd s
  | .sra rt rd sa => Sys2Proof.Machine.execSra rt rd sa s
  | .subu rs rt rd => Sys2Proof.Machine.execSubu rs rt rd s
  | .sllv rs rt rd => Sys2Proof.Machine.execSllv rs rt rd s
  | .and rs rt rd => Sys2Proof.Machine.execAnd rs rt rd s
  | .or rs rt rd => Sys2Proof.Machine.execOr rs rt rd s
  | .srlv rs rt rd => Sys2Proof.Machine.execSrlv rs rt rd s
  | .xor rs rt rd => Sys2Proof.Machine.execXor rs rt rd s
  | .srav rs rt rd => Sys2Proof.Machine.execSrav rs rt rd s
  | .nor rs rt rd => Sys2Proof.Machine.execNor rs rt rd s
  | .jr rs => Sys2Proof.Machine.execJr rs s
  | .jalr rs rd => Sys2Proof.Machine.execJalr rs rd s
  | .slt rs rt rd => Sys2Proof.Machine.execSlt rs rt rd s
  | .sltu rs rt rd => Sys2Proof.Machine.execSltu rs rt rd s
  | .syscall code => Sys2Proof.Machine.execSyscall code s
  | .dadd rs rt rd => Sys2Proof.Machine.execDadd rs rt rd s
  | .break_ code => Sys2Proof.Machine.execBreak code s
  | .daddu rs rt rd => Sys2Proof.Machine.execDaddu rs rt rd s
  | .dsub rs rt rd => Sys2Proof.Machine.execDsub rs rt rd s
  | .sync stype => Sys2Proof.Machine.execSync stype s
  | .dsubu rs rt rd => Sys2Proof.Machine.execDsubu rs rt rd s
  | .mfhi rd => Sys2Proof.Machine.execMfhi rd s
  | .tge rs rt code => Sys2Proof.Machine.execTge rs rt code s
  | .mthi rs => Sys2Proof.Machine.execMthi rs s
  | .tgeu rs rt code => Sys2Proof.Machine.execTgeu rs rt code s
  | .mflo rd => Sys2Proof.Machine.execMflo rd s
  | .tlt rs rt code => Sys2Proof.Machine.execTlt rs rt code s
  | .mtlo rs => Sys2Proof.Machine.execMtlo rs s
  | .tltu rs rt code => Sys2Proof.Machine.execTltu rs rt code s
  | .dsllv rs rt rd => Sys2Proof.Machine.execDsllv rs rt rd s
  | .teq rs rt code => Sys2Proof.Machine.execTeq rs rt code s
  | .dsrlv rs rt rd => Sys2Proof.Machine.execDsrlv rs rt rd s
  | .tne rs rt code => Sys2Proof.Machine.execTne rs rt code s
  | .dsrav rs rt rd => Sys2Proof.Machine.execDsrav rs rt rd s
  | .mult rs rt => Sys2Proof.Machine.execMult rs rt s
  | .dsll rt rd sa => Sys2Proof.Machine.execDsll rt rd sa s
  | .multu rs rt => Sys2Proof.Machine.execMultu rs rt s
  | .div rs rt => Sys2Proof.Machine.execDiv rs rt s
  | .dsrl rt rd sa => Sys2Proof.Machine.execDsrl rt rd sa s
  | .divu rs rt => Sys2Proof.Machine.execDivu rs rt s
  | .dsra rt rd sa => Sys2Proof.Machine.execDsra rt rd sa s
  | .dmult rs rt => Sys2Proof.Machine.execDmult rs rt s
  | .dsll32 rt rd sa => Sys2Proof.Machine.execDsll32 rt rd sa s
  | .dmultu rs rt => Sys2Proof.Machine.execDmultu rs rt s
  | .ddiv rs rt => Sys2Proof.Machine.execDdiv rs rt s
  | .dsrl32 rt rd sa => Sys2Proof.Machine.execDsrl32 rt rd sa s
  | .ddivu rs rt => Sys2Proof.Machine.execDdivu rs rt s
  | .dsra32 rt rd sa => Sys2Proof.Machine.execDsra32 rt rd sa s
  | .bltz rs offset => Sys2Proof.Machine.execBltz rs offset s
  | .bgez rs offset => Sys2Proof.Machine.execBgez rs offset s
  | .bltzl rs offset => Sys2Proof.Machine.execBltzl rs offset s
  | .bgezl rs offset => Sys2Proof.Machine.execBgezl rs offset s
  | .tgei rs imm => Sys2Proof.Machine.execTgei rs imm s
  | .tgeiu rs imm => Sys2Proof.Machine.execTgeiu rs imm s
  | .tlti rs imm => Sys2Proof.Machine.execTlti rs imm s
  | .tltiu rs imm => Sys2Proof.Machine.execTltiu rs imm s
  | .teqi rs imm => Sys2Proof.Machine.execTeqi rs imm s
  | .tnei rs imm => Sys2Proof.Machine.execTnei rs imm s
  | .bltzal rs offset => Sys2Proof.Machine.execBltzal rs offset s
  | .bgezal rs offset => Sys2Proof.Machine.execBgezal rs offset s
  | .bltzall rs offset => Sys2Proof.Machine.execBltzall rs offset s
  | .bgezall rs offset => Sys2Proof.Machine.execBgezall rs offset s
  | .mfc0 rt rd => Sys2Proof.Machine.execMfc0 rt rd s
  | .dmfc0 rt rd => Sys2Proof.Machine.execDmfc0 rt rd s
  | .mtc0 rt rd => Sys2Proof.Machine.execMtc0 rt rd s
  | .dmtc0 rt rd => Sys2Proof.Machine.execDmtc0 rt rd s
  | .bc0 ndTf offset => Sys2Proof.Machine.execBc0 ndTf offset s
  | .tlbr => Sys2Proof.Machine.execTlbr s
  | .tlbwi => Sys2Proof.Machine.execTlbwi s
  | .tlbwr => Sys2Proof.Machine.execTlbwr s
  | .tlbp => Sys2Proof.Machine.execTlbp s
  | .eret => Sys2Proof.Machine.execEret s
  | .cfc1 rt fs => Sys2Proof.Machine.execCfc1 rt fs s
  | .ctc1 rt fs => Sys2Proof.Machine.execCtc1 rt fs s
  | .mfc1 rt fs => Sys2Proof.Machine.execMfc1 rt fs s
  | .dmfc1 rt fs => Sys2Proof.Machine.execDmfc1 rt fs s
  | .mtc1 rt fs => Sys2Proof.Machine.execMtc1 rt fs s
  | .dmtc1 rt fs => Sys2Proof.Machine.execDmtc1 rt fs s
  | .bc1 ndTf offset => Sys2Proof.Machine.execBc1 ndTf offset s
  | .cop1S ft fs fd funct => Sys2Proof.Machine.execCop1S ft fs fd funct s
  | .cop1D ft fs fd funct => Sys2Proof.Machine.execCop1D ft fs fd funct s
  | .cop1W ft fs fd funct => Sys2Proof.Machine.execCop1W ft fs fd funct s
  | .cop1L ft fs fd funct => Sys2Proof.Machine.execCop1L ft fs fd funct s
  | .cop2 cofun => Sys2Proof.Machine.execCop2 cofun s
  | .cop3 cofun => Sys2Proof.Machine.execCop3 cofun s

end Sys2Proof.Machine
end

