-- ==== Sys2Proof/Machine/Engine.lean ====
section
/-! DEFINITION. The execution engine (spec/40_engine.md): the dispatch of a fetched word, Step and Cycle. -/

namespace Sys2Proof.Machine

/-- Whether the dispatch table holds a row's handler, spec/00_scope.md R10: `named` rows always,
`family` and `gk` rows when they are in IMPLEMENTED. A row of class `ri` has no handler in any map; its
meaning is the path of such a word. -/
def implemented (p : Params) (r : OpcodeRow) : Bool :=
  match r.cls with
  | .named | .ri => true
  | .family | .gk => !p.leftOut.contains r.pattern

/-- `Execute(w)`, spec/40_engine.md R410. -/
def execute (w : BusWord) (s : State) : Result :=
  match decode w with
  | .ok i => if implemented s.params i.row then exec i s else noHandler w s
  | .error _ => noHandler w s

/-- The state Execute sees of a word fetched normally (R403): `pc` advanced past it. -/
def beginNormal (w : BusWord) (s : State) : State := (s.setWord w).setPc (s.pc + 4)

/-- The state Execute sees of a word fetched through the delay-slot marker (R403). -/
def beginDelaySlot (w : BusWord) (s : State) : State := s.setWord w

/-- The end of a Step of a delay slot: the marker is cleared (R403) and `x[0] <- 0` (R404). -/
def endDelaySlot (s : State) : State := (s.setDs none).setX 0 0

/-- The end of a normal Step: `x[0] <- 0` (R404). -/
def endNormal (s : State) : State := s.setX 0 0

/-- `Step()`, R403. -/
def runStep (s : State) : Result :=
  match s.ds with
  | some a =>
    andThen (fetch s a) fun w =>
    andThen (execute w (beginDelaySlot w s)) fun t => .next (endDelaySlot t)
  | none =>
    andThen (fetch s s.pc) fun w =>
    andThen (execute w (beginNormal w s)) fun t => .next (endNormal t)

/-- The end of a Cycle: `x[0] <- 0` (R402), and the model's word latch is cleared (log 11). -/
def endCycle (s : State) : State := (s.setX 0 0).setWord 0

/-- `Cycle()`, R401: the counter, then a pending interrupt or one Step. -/
def cycle (s : State) : Result :=
  let t := incrementCounter s
  andThen (if hasPendingInterrupt t then .next (takeInterrupt t) else runStep t) fun u =>
  .next (endCycle u)

/-- The virtual address the next Step fetches from, R403. -/
def fetchAddress (s : State) : Addr :=
  match s.ds with
  | some a => a
  | none => s.pc

/-- BUS_MAP with plain memory that can be read at the word at `pa`, and the cell of that word: the map
as it is when it has such memory there, else with a one-word memory entry before it. -/
def mapForFetch (t : BusTable) (pa : Nat) : BusTable × Nat :=
  match readPort t pa with
  | .next (.memory base, a) => (t, base + a)
  | _ => (.entry ⟨⟨pa, pa + 3, false⟩, .memory 0, true, true⟩ t, pa)

/-- `s` with the word `w` stored where the next Step fetches. -/
def placeFetchWord (s : State) (w : BusWord) : State :=
  let m := mapForFetch s.params.busMap (physical (fetchAddress s)).toNat
  let t := s.setMem (Memory.writeWord s.mem m.2 w)
  { t with params := { s.params with busMap := m.1 } }

end Sys2Proof.Machine
end

