-- ==== Sys2Proof/Machine/Step.lean ====
section
/-! DEFINITION. One step of the machine: one Cycle (spec/40_engine.md R401). -/

namespace Sys2Proof.Machine

/-- One step. -/
def step (s : State) : Host.Outcome State Fault Refusal := cycle s

/-- `s` with the instruction whose bits are the low `nbits` bits of `w` stored where `step` fetches its
next instruction: behind the bus word at the physical address of the pc, or of a pending delay slot,
which BUS_MAP is made to map to plain memory where it did not. The pc is not changed, so it must lie in
kseg0 or kseg1 on a word boundary, and no interrupt may be pending. Log 14. -/
def State.withFetchWord (s : State) (nbits w : Nat) : State := placeFetchWord s (tableWord nbits w)

end Sys2Proof.Machine
end

