-- ==== Sys2Proof/Machine/HostInterface.lean ====
section
/-! DEFINITION. What the host can do to the machine between Cycles (spec/70_reset_and_hazards.md R1330 to
R1335). Reset() is `coldReset` and Cycle() is `step`. Log 15. -/

namespace Sys2Proof.Machine

/-- `GPR[i]` read. -/
def hostReadGpr (s : State) (r : RegIdx) : Word := s.x r

/-- `GPR[i]` write, also of `x[0]`: the value is stored, and reads zero after the next Cycle (R1333). -/
def hostWriteGpr (r : RegIdx) (v : Word) (s : State) : State := s.setX r v

/-- `CP0.Registers[n]` read. -/
def hostReadC0 (s : State) (n : RegIdx) : Word := s.c0 n

/-- `CP0.Registers[n]` write: raw, with no Cause mask and no Compare side effect (R1331). -/
def hostWriteC0 (n : RegIdx) (v : Word) (s : State) : State := s.setC0 n v

/-- `PC` get. -/
def hostReadPc (s : State) : Addr := s.pc

/-- `PC` set. -/
def hostWritePc (a : Addr) (s : State) : State := s.setPc a

/-- `DelaySlot` read. -/
def hostReadDelaySlot (s : State) : Option Addr := s.ds

/-- A floating-point register read, spec/10_state.md R140. -/
def hostReadFpr (s : State) (n : RegIdx) : Word := s.f n

/-- A floating-point register write, R140. -/
def hostWriteFpr (n : RegIdx) (v : Word) (s : State) : State := s.setF n v

/-- The platform's interrupt controller drives the external lines, Cause.IP[6:2]; they hold their value
until it drives them again (spec/60_exceptions.md R1251). -/
def setExternalLines (lines : BitVec 5) (s : State) : State :=
  s.setC0 Cp0.cause (CauseReg.setIpExternal s.cause lines)

/-- The host changes the run status, spec/40_engine.md R430. -/
def setRunStatus (r : RunStatus) (s : State) : State := s.setRunStatus r

/-- The run loop, R430 and R1335: at most `n` Cycles, none once the status is Stopped. -/
def runLoop : Nat → State → Result
  | 0, s => .next s
  | n + 1, s => if s.runStatus = .stopped then .next s else andThen (step s) (runLoop n)

/-! Reports to the host, R1336: the unimplemented-operation signals and the fatal faults, "with the
instruction address, raw word, and decoded mnemonic". A report is read off the machine and changes no
state. -/

/-- What is reported. -/
inductive Reported where
  | unimplemented
  | fatal (r : Fault)
deriving DecidableEq, Repr

/-- One report. No word is reported when the fetch itself stopped the machine, and no mnemonic for a word
of no row. -/
structure Report where
  what     : Reported
  address  : Addr
  word     : Option BusWord
  mnemonic : Option String
deriving DecidableEq, Repr

/-- The mnemonic a word decodes to. -/
def mnemonicOf (w : BusWord) : Option String :=
  match decode w with
  | .ok i => some i.row.mnemonic
  | .error _ => none

/-- The report of a recorded signal, spec/00_scope.md R18. -/
def signalReport (p : Addr × BusWord) : Report := ⟨.unimplemented, p.1, some p.2, mnemonicOf p.2⟩

/-- The word the next Step fetches, where the fetch does not stop the machine. -/
def nextWord (s : State) : Option BusWord :=
  match fetch s (fetchAddress s) with
  | .next w => some w
  | _ => none

/-- The report of a fatal fault that the next Cycle of `s` ends in, at the address it fetches from. -/
def faultReport (s : State) (r : Fault) : Report :=
  ⟨.fatal r, fetchAddress s, nextWord s, (nextWord s).bind mnemonicOf⟩

/-- What the next Cycle of `s` reports: the fatal fault it ends in, or the signal it raises, whether or not
the sticky set of `s` already holds it. -/
def cycleReports (s : State) : List Report :=
  match step { s with unimplemented := [] } with
  | .next t => t.unimplemented.map signalReport
  | .fault r => [faultReport s r]
  | .refused _ => []

end Sys2Proof.Machine
end

