-- ==== Sys2Proof/WellFormed.lean ====
section
/-! DEFINITION. Checks on instructions and on BUS_MAP. Neither restricts the decoder or the meanings: an
ill-formed instruction still decodes and has the meaning the spec gives it (log 16). -/

namespace Sys2Proof

/-- Operand fields are bit vectors of the widths of spec/30_encoding.md R301, so every field is in
range by its type. What is left to check is spec/43_branch_jump.md R790: JALR whose link register is
its source, and a linking branch whose source is the link register, whose meaning is a fatal fault. -/
def Instr.wf : Instr → Bool
  | .jalr rs rd => rd != rs
  | .bltzal rs _ | .bgezal rs _ | .bltzall rs _ | .bgezall rs _ => rs != 31#5
  | _ => true

/-- Two ranges share no address. -/
def MapRange.disjoint (a b : MapRange) : Bool := a.stop < b.start || b.stop < a.start

/-- The ranges of one dispatch table, in table order. -/
def BusTable.ranges : BusTable → List MapRange
  | .empty => []
  | .entry e rest => e.range :: rest.ranges
  | .forward r _ rest => r :: rest.ranges

/-- The mapping entries of one dispatch table itself. -/
def BusTable.entries : BusTable → List MapEntry
  | .empty => []
  | .entry e rest => e :: rest.entries
  | .forward _ _ rest => rest.entries

/-- The forwarding entries of one dispatch table itself. -/
def BusTable.forwards : BusTable → List (MapRange × BusTable)
  | .empty => []
  | .entry _ rest => rest.forwards
  | .forward r sub rest => (r, sub) :: rest.forwards

/-- spec/20_memory.md R230: every range has its ends in order, and entries within one dispatch table do
not overlap; the same holds inside every sub-table. -/
def BusTable.wf : BusTable → Bool
  | .empty => true
  | .entry e rest =>
    e.range.start ≤ e.range.stop && rest.ranges.all e.range.disjoint && rest.wf
  | .forward r sub rest =>
    r.start ≤ r.stop && rest.ranges.all r.disjoint && sub.wf && rest.wf

end Sys2Proof
end

