-- ==== Sys2Proof/Safety.lean ====
section
/-! DEFINITION. The terms claims are stated in: which registers and bytes an instruction may write, the
invariant of the machine between Cycles, and runs. -/

namespace Sys2Proof.Machine

/-! ## What an instruction may write -/

/-- The general register an instruction's rule writes, if it writes one. -/
def destReg : Instr → Option RegIdx
  | .addi _ rt _ | .addiu _ rt _ | .slti _ rt _ | .sltiu _ rt _ | .andi _ rt _ | .ori _ rt _
  | .xori _ rt _ | .daddi _ rt _ | .daddiu _ rt _ | .lui rt _ => some rt
  | .lb _ rt _ | .lbu _ rt _ | .lh _ rt _ | .lhu _ rt _ | .lw _ rt _ | .lwu _ rt _ | .ld _ rt _
  | .lwl _ rt _ | .lwr _ rt _ | .ldl _ rt _ | .ldr _ rt _ | .ll _ rt _ | .lld _ rt _
  | .sc _ rt _ | .scd _ rt _ => some rt
  | .add _ _ rd | .addu _ _ rd | .sub _ _ rd | .subu _ _ rd | .dadd _ _ rd | .daddu _ _ rd
  | .dsub _ _ rd | .dsubu _ _ rd | .and _ _ rd | .or _ _ rd | .xor _ _ rd | .nor _ _ rd
  | .slt _ _ rd | .sltu _ _ rd | .sllv _ _ rd | .srlv _ _ rd | .srav _ _ rd | .dsllv _ _ rd
  | .dsrlv _ _ rd | .dsrav _ _ rd => some rd
  | .sll _ rd _ | .srl _ rd _ | .sra _ rd _ | .dsll _ rd _ | .dsrl _ rd _ | .dsra _ rd _
  | .dsll32 _ rd _ | .dsrl32 _ rd _ | .dsra32 _ rd _ => some rd
  | .mfhi rd | .mflo rd | .jalr _ rd => some rd
  | .jal _ | .bltzal _ _ | .bgezal _ _ | .bltzall _ _ | .bgezall _ _ => some 31
  | .mfc0 rt _ | .dmfc0 rt _ | .cfc1 rt _ => some rt
  | _ => none

/-- Instructions whose rule writes HI or LO (spec/42_muldiv.md). -/
def writesHiLo : Instr → Bool
  | .mult .. | .multu .. | .div .. | .divu .. | .dmult .. | .dmultu .. | .ddiv .. | .ddivu ..
  | .mthi .. | .mtlo .. => true
  | _ => false

/-- Instructions that are control transfers, spec/40_engine.md R406. -/
def isControlTransfer : Instr → Bool
  | .beq .. | .bne .. | .blez .. | .bgtz .. | .beql .. | .bnel .. | .blezl .. | .bgtzl ..
  | .j .. | .jal .. | .jr .. | .jalr .. | .bltz .. | .bgez .. | .bltzl .. | .bgezl ..
  | .bltzal .. | .bgezal .. | .bltzall .. | .bgezall .. | .eret => true
  | _ => false

/-- Instructions that move a value into CP0. -/
def isMoveToC0 : Instr → Bool
  | .mtc0 .. | .dmtc0 .. => true
  | _ => false

/-- The addresses from `lo` to `lo + n - 1`. -/
def addrRange (lo : Addr) (n : Nat) : List Addr := (List.range n).map fun k => lo + BitVec.ofNat 64 k

/-- The virtual addresses of the bytes an instruction stores to, in the state it runs in: the form's
width from its effective address; the bytes of its word or doubleword on its side of the effective
address for the left and right forms (spec/44_load_store.md section 4); none for a conditional store
whose LLbit is clear (R862). -/
def storedAddrs (i : Instr) (s : State) : List Addr :=
  match i with
  | .sb base _ o => addrRange (effAddr s base o) 1
  | .sh base _ o => addrRange (effAddr s base o) 2
  | .sw base _ o => addrRange (effAddr s base o) 4
  | .sd base _ o => addrRange (effAddr s base o) 8
  | .sc base _ o => if s.llbit then addrRange (effAddr s base o) 4 else []
  | .scd base _ o => if s.llbit then addrRange (effAddr s base o) 8 else []
  | .swl base _ o =>
    let va := effAddr s base o
    if s.be then addrRange va (4 - offset4 va) else addrRange (wordBase va) (offset4 va + 1)
  | .swr base _ o =>
    let va := effAddr s base o
    if s.be then addrRange (wordBase va) (offset4 va + 1) else addrRange va (4 - offset4 va)
  | .sdl base _ o =>
    let va := effAddr s base o
    if s.be then addrRange va (8 - offset8 va) else addrRange (dwordBase va) (offset8 va + 1)
  | .sdr base _ o =>
    let va := effAddr s base o
    if s.be then addrRange (dwordBase va) (offset8 va + 1) else addrRange va (8 - offset8 va)
  | _ => []

/-- The memory cells of those bytes. -/
def storedCells (i : Instr) (s : State) : List Nat := (storedAddrs i s).filterMap (byteCell s)

/-! ## Memory as an instruction sees it -/

/-- The bus word that holds `va` is plain memory that can be read. -/
def ramReadable (s : State) (va : Addr) : Bool :=
  inSegment va &&
    match readPort s.params.busMap (wordBase (physical va)).toNat with
    | .next (.memory _, _) => true
    | _ => false

/-- The bus word that holds `va` is plain memory that can be written. -/
def ramWritable (s : State) (va : Addr) : Bool :=
  inSegment va &&
    match writePort s.params.busMap (wordBase (physical va)).toNat with
    | .next (.memory _, _) => true
    | _ => false

/-- The bus words that hold `va` and `va + 4` do not share a cell. -/
def wordsApart (s : State) (va : Addr) : Bool :=
  match memCell s.params.busMap (wordBase (physical va)).toNat,
    memCell s.params.busMap (wordBase (physical (va + 4))).toNat with
  | some c, some d => c + 4 ≤ d || d + 4 ≤ c
  | _, _ => true

/-- How an access stops the machine. -/
inductive Stop where
  | fault (r : Fault)
  | refused (r : Refusal)
deriving DecidableEq, Repr

/-- The outcome of an access that stops. -/
def Stop.outcome {α : Type} : Stop → Access α
  | .fault r => .fault r
  | .refused r => .refused r

/-- How a bus read at `pa` stops, if it does (spec/20_memory.md R231, R233): no entry, an entry without a
read function, or a device, whose answer no rule gives (R235, log 5). -/
def readStop (t : BusTable) (pa : Nat) : Option Stop :=
  match findEntry t pa with
  | .error a => some (.fault (.unmappedAddress a))
  | .ok (e, a) =>
    if e.readable = false then some (.fault (.noReadHandler a))
    else match e.backing with
      | .memory _ => none
      | .device id => some (.refused (.deviceRead id (if e.range.offset then a - e.range.start else a)))

/-- How a bus write of `w` at `pa` stops, if it does (R232, R233, R235, log 5). -/
def writeStop (t : BusTable) (pa : Nat) (w : BusWord) : Option Stop :=
  match findEntry t pa with
  | .error a => some (.fault (.unmappedAddress a))
  | .ok (e, a) =>
    if e.writable = false then some (.fault (.noWriteHandler a))
    else match e.backing with
      | .memory _ => none
      | .device id => some (.refused (.deviceWrite id (if e.range.offset then a - e.range.start else a) w))

/-- The byte at `va` under the current Config.BE (spec/20_memory.md R241, R247). -/
def guestByte (s : State) (va : Addr) : Byte :=
  match byteCell s va with
  | some c => Memory.read s.mem c
  | none => Memory.unlisted

/-- The number a byte string stands for, most significant byte first. -/
def joinBytes : List Byte → Nat
  | [] => 0
  | b :: rest => b.toNat * 256 ^ rest.length + joinBytes rest

/-- The number the `n` bytes from `va` on stand for in the current byte order (R247). -/
def guestValue (s : State) (va : Addr) (n : Nat) : Nat :=
  let bytes := (addrRange va n).map (guestByte s)
  joinBytes (if s.be then bytes else bytes.reverse)

/-- Byte `k` of a register value, byte 0 the least significant. -/
def regByte (v : Word) (k : Nat) : Byte := v.extractLsb' (8 * k) 8

/-! ## Coprocessor words -/

/-- The coprocessor whose usability an instruction checks (spec/40_engine.md R410,
spec/45_system.md R930). -/
def copUnit : Instr → Option (BitVec 2)
  | .mfc0 .. | .dmfc0 .. | .mtc0 .. | .dmtc0 .. | .bc0 .. | .tlbr | .tlbwi | .tlbwr | .tlbp
  | .eret | .cache .. => some 0
  | .cfc1 .. | .ctc1 .. | .mfc1 .. | .dmfc1 .. | .mtc1 .. | .dmtc1 .. | .bc1 .. | .cop1S ..
  | .cop1D .. | .cop1W .. | .cop1L .. => some 1
  | .cop2 _ => some 2
  | .cop3 _ => some 3
  | _ => none

/-! ## Control transfers -/

/-- The state after a taken branch at `cur` with this immediate, executed normally: the delay slot at
`cur + 4` is pending and `pc` is `cur + 4 + 4 * imm` modulo 2^64 (spec/43_branch_jump.md R701). -/
def takenBranch (s : State) (imm : BitVec 16) : State :=
  (s.setDs (some (s.cur + 4))).setPc (BitVec.ofInt 64 (s.cur.toInt + 4 + 4 * imm.toInt))

/-- The state after a Reserved Instruction exception (spec/40_engine.md R420). -/
def reservedEntry (s : State) : State := (raised .ri s).signal s.cur s.word

/-! ## The machine between Cycles -/

/-- What holds between Cycles: memory in its canonical form, `x[0]` zero, the word latch clear, and no
signal recorded twice. -/
structure Inv (s : State) : Prop where
  memory  : Memory.wf s.mem = true
  zero    : s.x 0 = 0
  latch   : s.word = 0
  signals : s.unimplemented.Nodup

/-- The coprocessor privilege of spec/60_exceptions.md R1271: CP0 can not be used. -/
def cp0Locked (s : State) : Bool := !usable s 0

/-! ## Runs -/

/-- `t` is reached from `s` by steps of the machine. -/
inductive Reaches (s : State) : State → Prop where
  | refl : Reaches s s
  | tail {t u : State} : Reaches s t → step t = .next u → Reaches s u

/-- A safe run: every state it reaches has a next state, so it meets no fatal fault and no refusal. -/
def SafeRun (s : State) : Prop := ∀ t, Reaches s t → ∃ u, step t = .next u

end Sys2Proof.Machine
end

