-- ==== Sys2Proof/Certificates/Slice0/Obligations.lean ====
section
/-! DEFINITION. The statements for the provers. Each says what a numbered rule of spec/ says an
instruction or the machine does, over every state and every operand. `s` is the state the instruction's
rule runs in (spec/40_engine.md R405): `pc` is already past the instruction, `s.cur` is its address and
`s.inDS` says whether it came through the delay-slot marker. A result of the form
`exec i s = .next (s.setX rd v)` is also the instruction's frame: register `rd` alone differs from `s`.
An instruction may name register 0: it is written like any other, and `ZeroAfterEveryCycle` says that it
reads zero once the Cycle ends. -/

open Sys2Proof Sys2Proof.Machine

/-! ## Encoding and decoding -/

/-- R302 to R306, R340 to R346: the decoder undoes the encoder, for every instruction and every operand
value, on words and on bytes. -/
def Obligations.DecodeUndoesEncode : Prop :=
  ∀ i : Instr, decode (encode i) = .ok i ∧
    ∀ rest, decodeBytes (encodeBytes i ++ rest) = .ok (i, rest)

/-- R340 to R346, R322: a word decodes to an instruction exactly when it has the fixed bits of that
instruction's row, whatever its other bits; the bits of the instruction's own encoding are all in it. -/
def Obligations.DecodeFollowsTheTable : Prop :=
  (∀ w i, decode w = .ok i → w &&& i.row.mask = i.row.pattern ∧ encode i &&& w = encode i) ∧
  (∀ w (i : Instr), w &&& i.row.mask = i.row.pattern → ∃ j, decode w = .ok j ∧ j.row = i.row)

/-- R320, R321: the canonical keys are their own keys, every key is its own key, and two words with one
key that carry no coprocessor unit number select one row. -/
def Obligations.DispatchKeysAreCanonical : Prop :=
  (∀ op, dispatchKey (keyOfOpcode op) = keyOfOpcode op) ∧
  (∀ f, dispatchKey (keyOfSpecial f) = keyOfSpecial f) ∧
  (∀ rt, dispatchKey (keyOfRegimm rt) = keyOfRegimm rt) ∧
  (∀ w, dispatchKey (dispatchKey w) = dispatchKey w) ∧
  (∀ w w' i, decode w = .ok i → hasUnit w = false → dispatchKey w' = dispatchKey w →
    ∃ j, decode w' = .ok j ∧ j.row = i.row)

/-- Words the spec writes out beside the instructions they stand for, one or more of every family, decode
to those instructions. -/
def Obligations.SampleWordsDecode : Prop :=
  decode 0x012A4020#32 = .ok (.add 9 10 8) ∧
  decode 0x2128FFFF#32 = .ok (.addi 9 8 0xFFFF) ∧
  decode 0x00094100#32 = .ok (.sll 9 8 4) ∧
  decode 0x0009403F#32 = .ok (.dsra32 9 8 0) ∧
  decode 0x012A001B#32 = .ok (.divu 9 10) ∧
  decode 0x00004010#32 = .ok (.mfhi 8) ∧
  decode 0x112A0003#32 = .ok (.beq 9 10 3) ∧
  decode 0x0C000800#32 = .ok (.jal 0x800) ∧
  decode 0x0120F809#32 = .ok (.jalr 9 31) ∧
  decode 0x05310003#32 = .ok (.bgezal 9 3) ∧
  decode 0x8D280000#32 = .ok (.lw 9 8 0) ∧
  decode 0xB5280003#32 = .ok (.sdr 9 8 3) ∧
  decode 0xC1280000#32 = .ok (.ll 9 8 0) ∧
  decode 0x0000000C#32 = .ok (.syscall 0) ∧
  decode 0x05280005#32 = .ok (.tgei 9 5) ∧
  decode 0xBD390000#32 = .ok (.cache 9 0x19 0) ∧
  decode 0x40886800#32 = .ok (.mtc0 8 13) ∧
  decode 0x42000018#32 = .ok .eret ∧
  decode 0x44C8F800#32 = .ok (.ctc1 8 31) ∧
  decode 0x48080000#32 = .ok (.cop2 0x080000)

/-- R410, R420, R351: a word of no row, and a word of a family or gk row left out of IMPLEMENTED, raises
Coprocessor Unusable when it carries the number of a unit that is not usable, else Reserved Instruction
with the signal. Holding IMPLEMENTED as the rows left out of it is the model's choice (log 3). -/
def Obligations.WordsWithoutHandler : Prop :=
  ∀ w s, s.word = w →
    ((∃ e, decode w = .error e) ∨
      ∃ i, decode w = .ok i ∧ (i.row.cls = .family ∨ i.row.cls = .gk) ∧
        i.row.pattern ∈ s.params.leftOut) →
    execute w s = .next (
      if hasUnit w = true ∧ usable s (unitOf w) = false then raised (.cpu (unitOf w)) s
      else (raised .ri s).signal s.cur w)

/-! ## Cycle and Step -/

/-- R401, R403, R410: when no interrupt is pending after the count and the four bytes of plain memory at
the fetch address decode to an instruction whose row is dispatched, the step is that instruction run with
its word in the latch (the model's own, log 11) and, for a normal fetch, `pc` past the word; then `x[0]`
is zeroed, and a delay-slot marker that was pending is cleared. Plain memory and its byte layout are the
model's choice (log 5, log 10). -/
def Obligations.StepRunsDecodedInstruction : Prop :=
  ∀ (s : State) (base a : Nat) (i : Instr),
    let t := incrementCounter s
    let c := base + a
    let w := wordOfBytes (Memory.read s.mem c) (Memory.read s.mem (c + 1)) (Memory.read s.mem (c + 2))
      (Memory.read s.mem (c + 3))
    hasPendingInterrupt t = false →
    (fetchAddress s).toNat % 4 = 0 → inSegment (fetchAddress s) = true →
    readPort s.params.busMap (physical (fetchAddress s)).toNat = .next (.memory base, a) →
    decodeBytes [Memory.read s.mem c, Memory.read s.mem (c + 1), Memory.read s.mem (c + 2),
      Memory.read s.mem (c + 3)] = .ok (i, []) →
    implemented s.params i.row = true →
    (s.ds = none →
      step s = andThen (exec i ((t.setWord w).setPc (s.pc + 4))) fun u =>
        .next ((u.setX 0 0).setWord 0)) ∧
    (s.ds.isSome = true →
      step s = andThen (exec i (t.setWord w)) fun u => .next (((u.setDs none).setX 0 0).setWord 0))

/-- R260, R210, R231, R233: the fetch of a step in which no interrupt is taken stops the machine on an
address that is no multiple of 4, then on one outside kseg0 and kseg1, then on an unmapped one, then on an
entry without a read function; on a device it is refused, at the address the entry hands on (R235: no rule
gives the device's answer, log 5). -/
def Obligations.FetchFaults : Prop :=
  ∀ s : State, hasPendingInterrupt (incrementCounter s) = false →
    let va := fetchAddress s
    let found := findEntry s.params.busMap (physical va).toNat
    (va.toNat % 4 ≠ 0 → step s = .fault (.misaligned va 4)) ∧
    (va.toNat % 4 = 0 → inSegment va = false → step s = .fault (.unknownSegment va)) ∧
    (∀ a, va.toNat % 4 = 0 → inSegment va = true → found = .error a →
      step s = .fault (.unmappedAddress a)) ∧
    (∀ e a, va.toNat % 4 = 0 → inSegment va = true → found = .ok (e, a) →
      (e.readable = false → step s = .fault (.noReadHandler a)) ∧
      (∀ id, e.readable = true → e.backing = .device id →
        step s = .refused (.deviceRead id (if e.range.offset then a - e.range.start else a))))

/-- R402, R404: `x[0]` is zero after every step, whether or not an instruction ran. -/
def Obligations.ZeroAfterEveryCycle : Prop :=
  ∀ s t, step s = .next t → t.x 0 = 0

/-- Over all instructions: a step that starts with a delay-slot marker pending leaves none pending (R400,
R403); no step changes a floating-point register (R140), the parameters or the run status, or drops a
recorded signal (R18). The parameters in State are the model's choice, log 1. -/
def Obligations.EveryStepKeeps : Prop :=
  ∀ s t, step s = .next t →
    (s.ds.isSome = true → t.ds = none) ∧
    t.params = s.params ∧ t.runStatus = s.runStatus ∧ (∀ n, t.f n = s.f n) ∧
    (∀ p, p ∈ s.unimplemented → p ∈ t.unimplemented)

/-- Every step keeps the invariant `Inv` (memory in canonical form, `x[0]` zero, the word latch clear, no
signal recorded twice), from every state that has it. -/
def Obligations.StepKeepsInvariant : Prop :=
  ∀ s t, Machine.Inv s → step s = .next t → Machine.Inv t

/-- The state after reset has the invariant, is what Reset() makes of the model's power-on state
(log 8), and runs in Kernel mode with interrupts masked whatever Cause holds (R1302). -/
def Obligations.ResetState : Prop :=
  Machine.Inv State.reset ∧ State.reset = coldReset State.powerOn ∧
  ∀ v, effectiveMode (State.reset.setC0 Cp0.cause v) = .kernel ∧
    hasPendingInterrupt (State.reset.setC0 Cp0.cause v) = false

/-- R1301, R1307, R1308: Reset() clears SR, TS and RP, sets ERL and BEV, sets Config.BE, writes
Random and Config.EC, drops the marker, saves pc in ErrorEPC and goes to the reset vector; it writes
nothing else but `x[0]`. -/
def Obligations.ColdReset : Prop :=
  ∀ s : State, let t := coldReset s
    t.pc = 0xFFFFFFFFBFC00000 ∧ t.ds = none ∧ t.c0 1 = 31 ∧ t.c0 30 = s.pc ∧ t.x 0 = 0 ∧
    (∀ k, t.status.getLsbD k =
      (k == 2 || k == 22 || (k != 20 && k != 21 && k != 27 && s.status.getLsbD k))) ∧
    (∀ k, t.config.getLsbD k =
      if k = 15 then true
      else if 28 ≤ k ∧ k < 31 then s.params.ecValue.getLsbD (k - 28)
      else s.config.getLsbD k) ∧
    (∀ n, n ≠ 1 → n ≠ 12 → n ≠ 16 → n ≠ 30 → t.c0 n = s.c0 n) ∧
    (∀ r, r ≠ 0 → t.x r = s.x r) ∧ (∀ n, t.f n = s.f n) ∧
    t.hi = s.hi ∧ t.lo = s.lo ∧ t.llbit = s.llbit ∧ t.fcr31 = s.fcr31 ∧ t.mem = s.mem ∧
    t.unimplemented = s.unimplemented ∧ t.params = s.params ∧ t.runStatus = s.runStatus

/-! ## Counter and interrupts -/

/-- R1260: Count counts modulo 2^32 and its upper half is zero; Cause.IP[7] is set exactly when the new
count equals the low word of Compare, else kept; nothing else changes. -/
def Obligations.CounterRule : Prop :=
  ∀ s : State, let t := incrementCounter s
    (t.c0 9).toNat = ((s.c0 9).toNat % 2 ^ 32 + 1) % 2 ^ 32 ∧
    (∀ k, t.cause.getLsbD k =
      ((k == 15 && (t.c0 9).toNat == (s.c0 11).toNat % 2 ^ 32) || s.cause.getLsbD k)) ∧
    t = (s.setC0 9 (t.c0 9)).setC0 13 t.cause

/-- R1352: a step advances Count by one modulo 2^32, unless it runs a move to Count: it takes no
interrupt, CP0 is usable, and the word it fetches is MTC0 to Count, or DMTC0 to Count where IMPLEMENTED
holds its row. -/
def Obligations.CountAdvancesEveryCycle : Prop :=
  ∀ s t, step s = .next t →
    (hasPendingInterrupt (incrementCounter s) = false → usable s 0 = true →
      ∀ w rt, fetch (incrementCounter s) (fetchAddress s) = .next w →
        decode w ≠ .ok (.mtc0 rt 9) ∧
        (decode w = .ok (.dmtc0 rt 9) → implemented s.params (Instr.dmtc0 rt 9).row = false)) →
    (t.c0 9).toNat = ((s.c0 9).toNat % 2 ^ 32 + 1) % 2 ^ 32

/-- R1250: an interrupt is pending exactly when IE is set, EXL and ERL are clear and some IM bit meets the
IP bit of its index. -/
def Obligations.InterruptPending : Prop :=
  ∀ s : State, hasPendingInterrupt s = true ↔
    s.status.getLsbD 0 = true ∧ s.status.getLsbD 1 = false ∧ s.status.getLsbD 2 = false ∧
    ∃ k, k < 8 ∧ s.status.getLsbD (8 + k) = true ∧ s.cause.getLsbD (8 + k) = true

/-- R1252, R1221, R1254, R1255: an interrupt pending after this Cycle's count is taken in this Cycle and
no instruction runs: code 0, EPC the next instruction, or the control transfer whose delay slot was
pending, with BD telling which; BadVAddr the faulting pc; IP kept; no general register but `x[0]`, no HI,
LO or LLbit and no memory written. -/
def Obligations.InterruptTaken : Prop :=
  ∀ s : State, let t := incrementCounter s
    hasPendingInterrupt t = true → ∃ u, step s = .next u ∧
      u.c0 8 = fetchAddress s ∧
      u.c0 14 = (match s.ds with | some a => a - 4 | none => s.pc) ∧
      CauseReg.excCode u.cause = 0 ∧ CauseReg.bd u.cause = s.ds.isSome ∧
      CauseReg.ip u.cause = CauseReg.ip t.cause ∧
      u.pc = (if s.status.getLsbD 22 then 0xFFFFFFFFBFC00380 else 0xFFFFFFFF80000180) ∧
      u.ds = none ∧ u.status.getLsbD 1 = true ∧
      (∀ r, r ≠ 0 → u.x r = s.x r) ∧ u.hi = s.hi ∧ u.lo = s.lo ∧ u.mem = s.mem ∧ u.llbit = s.llbit

/-! ## Exceptions -/

/-- R1220, R1222 to R1226: what an exception entry writes (ExcCode, CE for Coprocessor Unusable only,
BadVAddr, BD and EPC only when EXL was clear, EXL, the marker, pc) and that it writes nothing else; after
it the mode is Kernel and no interrupt is pending. -/
def Obligations.ExceptionEntry : Prop :=
  ∀ (e : ExcCode) (fpc : Addr) (bd : Bool) (s : State), let t := enterException e fpc bd s
    t.pc = (if s.status.getLsbD 22 then 0xFFFFFFFFBFC00380 else 0xFFFFFFFF80000180) ∧
    t.c0 8 = fpc ∧
    t.c0 14 = (if s.status.getLsbD 1 then s.c0 14 else if bd then fpc - 4 else fpc) ∧
    (∀ k, t.status.getLsbD k = (k == 1 || s.status.getLsbD k)) ∧
    (∀ k, t.cause.getLsbD k =
      if 2 ≤ k ∧ k < 7 then (excNumber e).getLsbD (k - 2)
      else if 28 ≤ k ∧ k < 30 then
        match e with
        | .cpu z => z.getLsbD (k - 28)
        | _ => s.cause.getLsbD k
      else if k = 31 ∧ s.status.getLsbD 1 = false then bd
      else s.cause.getLsbD k) ∧
    t = (((((s.setC0 8 (t.c0 8)).setC0 12 t.status).setC0 13 t.cause).setC0 14 (t.c0 14)).setDs
      none).setPc t.pc ∧
    effectiveMode t = .kernel ∧ hasPendingInterrupt t = false

/-- R900, R901, R902: SYSCALL and BREAK enter the general exception, whatever their code field: codes 8
and 9, BadVAddr the instruction's address, and with EXL clear EPC that address, or 4 less with BD set in a
delay slot. -/
def Obligations.SyscallAndBreak : Prop :=
  ∀ (s : State) (code : BitVec 20),
    (exec (.syscall code) s = .next (raised .sys s) ∧ exec (.break_ code) s = .next (raised .bp s)) ∧
    CauseReg.excCode (raised .sys s).cause = 8 ∧ CauseReg.excCode (raised .bp s).cause = 9 ∧
    ∀ t, t = raised .sys s ∨ t = raised .bp s →
      t.c0 8 = s.cur ∧ t.status.getLsbD 1 = true ∧ t.ds = none ∧
      t.pc = (if s.status.getLsbD 22 then 0xFFFFFFFFBFC00380 else 0xFFFFFFFF80000180) ∧
      (s.status.getLsbD 1 = false →
        CauseReg.bd t.cause = s.inDS ∧ t.c0 14 = if s.inDS then s.cur - 4 else s.cur)

/-- R1221: over a whole step, a word whose execution enters an exception leaves BD set and EPC at `a - 4`
when it was fetched from a delay slot at `a`, and BD clear and EPC at its own address when it was fetched
normally (EXL clear before it). The word may be of no row; the entry may come with a signal (Reserved
Instruction) or after CTC1 wrote FCR31 (Floating-Point). -/
def Obligations.DelaySlotException : Prop :=
  ∀ (s t u : State) (w : BusWord),
    let c := incrementCounter s
    let m := match s.ds with
      | some _ => beginDelaySlot w c
      | none => beginNormal w c
    step s = .next t → hasPendingInterrupt c = false → s.status.getLsbD 1 = false →
    fetch c (fetchAddress s) = .next w → execute w m = .next u →
    ((∃ e, u = raised e m) ∨ u = reservedEntry m ∨ (∃ v, u = raised .fpe (m.setFcr31 v))) →
    t.c0 8 = fetchAddress s ∧ CauseReg.bd t.cause = s.ds.isSome ∧
      t.c0 14 = (match s.ds with | some a => a - 4 | none => s.pc)

/-- R910 to R925: each trap instruction traps when its condition holds, signed or unsigned, against the
register or the sign-extended immediate, with code 13, and otherwise does nothing. -/
def Obligations.Traps : Prop :=
  ∀ (s : State) (rs rt : RegIdx) (code : BitVec 10) (imm : BitVec 16),
    let a := s.x rs
    let b := s.x rt
    let u := (imm.toInt % 2 ^ 64).toNat
    let tr (c : Prop) [Decidable c] : Host.Outcome State Fault Refusal :=
      .next (if c then raised .tr s else s)
    exec (.tge rs rt code) s = tr (b.toInt ≤ a.toInt) ∧
    exec (.tgeu rs rt code) s = tr (b.toNat ≤ a.toNat) ∧
    exec (.tlt rs rt code) s = tr (a.toInt < b.toInt) ∧
    exec (.tltu rs rt code) s = tr (a.toNat < b.toNat) ∧
    exec (.teq rs rt code) s = tr (a = b) ∧
    exec (.tne rs rt code) s = tr (a ≠ b) ∧
    exec (.tgei rs imm) s = tr (imm.toInt ≤ a.toInt) ∧
    exec (.tgeiu rs imm) s = tr (u ≤ a.toNat) ∧
    exec (.tlti rs imm) s = tr (a.toInt < imm.toInt) ∧
    exec (.tltiu rs imm) s = tr (a.toNat < u) ∧
    exec (.teqi rs imm) s = tr (a.toInt = imm.toInt) ∧
    exec (.tnei rs imm) s = tr (a.toInt ≠ imm.toInt) ∧
    CauseReg.excCode (raised .tr s).cause = 13

/-- R1212: over all instructions but the moves to CP0 and ERET, an instruction either enters an exception
and does nothing else (CTC1 also leaves FCR31 written, a Reserved Instruction also signals), or leaves
Status, Cause, EPC and BadVAddr as they were. -/
def Obligations.PreciseExceptions : Prop :=
  ∀ (i : Instr) (s t : State), exec i s = .next t → isMoveToC0 i = false → i ≠ .eret →
    (∃ e, t = raised e s) ∨ t = reservedEntry s ∨
    (∃ rt v, i = .ctc1 rt 31 ∧ t = raised .fpe (s.setFcr31 v)) ∨
    (t.status = s.status ∧ t.cause = s.cause ∧ t.c0 14 = s.c0 14 ∧ t.c0 8 = s.c0 8)

/-! ## Integer arithmetic, logic, compare, shifts -/

/-- R501, R503, R505, R511, R513, R515, R521, R522: ADDU, ADDIU and SUBU write the sum or difference of
the low words modulo 2^32, sign-extended; the D forms wrap modulo 2^64. None traps. -/
def Obligations.WrappingAddSub : Prop :=
  ∀ (s : State) (rs rt rd : RegIdx) (imm : BitVec 16),
    let a := (s.x rs).toInt
    let b := (s.x rt).toInt
    (∃ v, exec (.addu rs rt rd) s = .next (s.setX rd v) ∧ v.toInt = (a + b).bmod (2 ^ 32)) ∧
    (∃ v, exec (.addiu rs rt imm) s = .next (s.setX rt v) ∧ v.toInt = (a + imm.toInt).bmod (2 ^ 32)) ∧
    (∃ v, exec (.subu rs rt rd) s = .next (s.setX rd v) ∧ v.toInt = (a - b).bmod (2 ^ 32)) ∧
    (∃ v, exec (.daddu rs rt rd) s = .next (s.setX rd v) ∧ v.toInt = (a + b).bmod (2 ^ 64)) ∧
    (∃ v, exec (.daddiu rs rt imm) s = .next (s.setX rt v) ∧ v.toInt = (a + imm.toInt).bmod (2 ^ 64)) ∧
    (∃ v, exec (.dsubu rs rt rd) s = .next (s.setX rd v) ∧ v.toInt = (a - b).bmod (2 ^ 64))

/-- R500, R502, R504, R510, R512, R514, R520: when the exact signed result on the operand width fits it,
the register gets exactly that result; when it does not, Overflow (code 12) is raised and nothing is
written under ARITH_OVERFLOW = trap, and the instruction does what its unsigned form does under wrap. The
parameter stands in State by the model's choice (log 1). -/
def Obligations.SignedAddSub : Prop :=
  ∀ (s : State) (rs rt rd : RegIdx) (imm : BitVec 16),
    let a := ((s.x rs).toInt).bmod (2 ^ 32)
    let b := ((s.x rt).toInt).bmod (2 ^ 32)
    let p := (s.x rs).toInt
    let q := (s.x rt).toInt
    let law (i u : Instr) (r : RegIdx) (exact : Int) (w : Nat) : Prop :=
      (-(2 ^ (w - 1)) ≤ exact ∧ exact < 2 ^ (w - 1) →
        ∃ v, exec i s = .next (s.setX r v) ∧ v.toInt = exact) ∧
      (¬ (-(2 ^ (w - 1)) ≤ exact ∧ exact < 2 ^ (w - 1)) →
        (s.params.arithOverflow = .trap → exec i s = .next (raised .ov s)) ∧
        (s.params.arithOverflow = .wrap → exec i s = exec u s))
    law (.add rs rt rd) (.addu rs rt rd) rd (a + b) 32 ∧
    law (.addi rs rt imm) (.addiu rs rt imm) rt (a + imm.toInt) 32 ∧
    law (.sub rs rt rd) (.subu rs rt rd) rd (a - b) 32 ∧
    law (.dadd rs rt rd) (.daddu rs rt rd) rd (p + q) 64 ∧
    law (.daddi rs rt imm) (.daddiu rs rt imm) rt (p + imm.toInt) 64 ∧
    law (.dsub rs rt rd) (.dsubu rs rt rd) rd (p - q) 64 ∧
    CauseReg.excCode (raised .ov s).cause = 12

/-- R530 to R537: the logical instructions bit by bit, the immediate zero-extended, and LUI. -/
def Obligations.LogicalBits : Prop :=
  ∀ (s : State) (rs rt rd : RegIdx) (imm : BitVec 16),
    let a (k : Nat) := (s.x rs).getLsbD k
    let b (k : Nat) := (s.x rt).getLsbD k
    let law (i : Instr) (r : RegIdx) (bit : Nat → Bool) : Prop :=
      ∃ v : Word, exec i s = .next (s.setX r v) ∧ ∀ k, k < 64 → v.getLsbD k = bit k
    law (.and rs rt rd) rd (fun k => a k && b k) ∧
    law (.or rs rt rd) rd (fun k => a k || b k) ∧
    law (.xor rs rt rd) rd (fun k => a k != b k) ∧
    law (.nor rs rt rd) rd (fun k => !(a k || b k)) ∧
    law (.andi rs rt imm) rt (fun k => k < 16 && a k && imm.getLsbD k) ∧
    law (.ori rs rt imm) rt (fun k => a k || (k < 16 && imm.getLsbD k)) ∧
    law (.xori rs rt imm) rt (fun k => a k != (k < 16 && imm.getLsbD k)) ∧
    (∃ v : Word, exec (.lui rt imm) s = .next (s.setX rt v) ∧ v.toInt = imm.toInt * 2 ^ 16)

/-- R540 to R543: the comparisons are on 64-bit values; SLTIU compares unsigned against the sign-extended
immediate. -/
def Obligations.SetOnLessThan : Prop :=
  ∀ (s : State) (rs rt rd : RegIdx) (imm : BitVec 16),
    let a := s.x rs
    let b := s.x rt
    exec (.slt rs rt rd) s = .next (s.setX rd (if a.toInt < b.toInt then 1 else 0)) ∧
    exec (.sltu rs rt rd) s = .next (s.setX rd (if a.toNat < b.toNat then 1 else 0)) ∧
    exec (.slti rs rt imm) s = .next (s.setX rt (if a.toInt < imm.toInt then 1 else 0)) ∧
    exec (.sltiu rs rt imm) s =
      .next (s.setX rt (if a.toNat < (imm.toInt % 2 ^ 64).toNat then 1 else 0))

/-- R550 to R555, R521, R312: the 32-bit shifts as products and quotients of the low word, sign-extended;
a register count is taken modulo 32. -/
def Obligations.WordShifts : Prop :=
  ∀ (s : State) (rs rt rd : RegIdx) (sa : BitVec 5),
    let x := (s.x rt).toInt
    let low := (s.x rt).toNat % 2 ^ 32
    let c := (s.x rs).toNat % 32
    let law (i : Instr) (value : Int) : Prop :=
      ∃ v, exec i s = .next (s.setX rd v) ∧ v.toInt = value
    law (.sll rt rd sa) ((x * 2 ^ sa.toNat).bmod (2 ^ 32)) ∧
    law (.srl rt rd sa) (((low / 2 ^ sa.toNat : Nat) : Int).bmod (2 ^ 32)) ∧
    law (.sra rt rd sa) (x.bmod (2 ^ 32) / 2 ^ sa.toNat) ∧
    law (.sllv rs rt rd) ((x * 2 ^ c).bmod (2 ^ 32)) ∧
    law (.srlv rs rt rd) (((low / 2 ^ c : Nat) : Int).bmod (2 ^ 32)) ∧
    law (.srav rs rt rd) (x.bmod (2 ^ 32) / 2 ^ c)

/-- R556 to R564, R312: the 64-bit shifts as products and quotients; a register count is taken modulo
64, and the 32 forms shift by sa + 32. -/
def Obligations.DoubleShifts : Prop :=
  ∀ (s : State) (rs rt rd : RegIdx) (sa : BitVec 5),
    let n := (s.x rt).toNat
    let x := (s.x rt).toInt
    let c := (s.x rs).toNat % 64
    let left (i : Instr) (k : Nat) : Prop :=
      ∃ v, exec i s = .next (s.setX rd v) ∧ v.toNat = n * 2 ^ k % 2 ^ 64
    let right (i : Instr) (k : Nat) : Prop :=
      ∃ v, exec i s = .next (s.setX rd v) ∧ v.toNat = n / 2 ^ k
    let arith (i : Instr) (k : Nat) : Prop :=
      ∃ v, exec i s = .next (s.setX rd v) ∧ v.toInt = x / 2 ^ k
    left (.dsll rt rd sa) sa.toNat ∧ left (.dsll32 rt rd sa) (sa.toNat + 32) ∧ left (.dsllv rs rt rd) c ∧
    right (.dsrl rt rd sa) sa.toNat ∧ right (.dsrl32 rt rd sa) (sa.toNat + 32) ∧
    right (.dsrlv rs rt rd) c ∧
    arith (.dsra rt rd sa) sa.toNat ∧ arith (.dsra32 rt rd sa) (sa.toNat + 32) ∧
    arith (.dsrav rs rt rd) c

/-! ## Multiply, divide, HI and LO -/

/-- R600, R601, R604, R605, R612: the exact product, its halves in HI and LO, each sign-extended in the
32-bit forms; nothing else changes. -/
def Obligations.Products : Prop :=
  ∀ (s : State) (rs rt : RegIdx),
    let a := s.x rs
    let b := s.x rt
    (∃ h l, exec (.mult rs rt) s = .next ((s.setHi h).setLo l) ∧
      h.toInt * 2 ^ 32 + (l.toNat % 2 ^ 32 : Nat) =
        a.toInt.bmod (2 ^ 32) * b.toInt.bmod (2 ^ 32) ∧
      l.toInt = l.toInt.bmod (2 ^ 32) ∧ h.toInt = h.toInt.bmod (2 ^ 32)) ∧
    (∃ h l, exec (.multu rs rt) s = .next ((s.setHi h).setLo l) ∧
      (h.toNat % 2 ^ 32) * 2 ^ 32 + l.toNat % 2 ^ 32 = (a.toNat % 2 ^ 32) * (b.toNat % 2 ^ 32) ∧
      l.toInt = l.toInt.bmod (2 ^ 32) ∧ h.toInt = h.toInt.bmod (2 ^ 32)) ∧
    (∃ h l, exec (.dmult rs rt) s = .next ((s.setHi h).setLo l) ∧
      h.toInt * 2 ^ 64 + l.toNat = a.toInt * b.toInt) ∧
    (∃ h l, exec (.dmultu rs rt) s = .next ((s.setHi h).setLo l) ∧
      h.toNat * 2 ^ 64 + l.toNat = a.toNat * b.toNat)

/-- R610: a divide by zero changes nothing. -/
def Obligations.DivideByZero : Prop :=
  ∀ (s : State) (rs rt : RegIdx),
    ((s.x rt).toNat % 2 ^ 32 = 0 → exec (.div rs rt) s = .next s ∧ exec (.divu rs rt) s = .next s) ∧
    (s.x rt = 0 → exec (.ddiv rs rt) s = .next s ∧ exec (.ddivu rs rt) s = .next s)

/-- R602, R603, R606, R607, R611, R613: a divide by anything else leaves in LO and HI the quotient toward
zero and the remainder of the dividend's sign (the low words, sign-extended, in the 32-bit forms); the one
signed quotient that does not fit wraps to the dividend with remainder 0. -/
def Obligations.QuotientAndRemainder : Prop :=
  ∀ (s : State) (rs rt : RegIdx),
    let a := s.x rs
    let b := s.x rt
    let signed (i : Instr) (a b : Int) (w : Nat) : Prop :=
      b ≠ 0 → ∃ q r : Int,
        exec i s = .next ((s.setHi (BitVec.ofInt 64 r)).setLo (BitVec.ofInt 64 (q.bmod (2 ^ w)))) ∧
        a = b * q + r ∧ r.natAbs < b.natAbs ∧ 0 ≤ r * a
    signed (.div rs rt) (a.toInt.bmod (2 ^ 32)) (b.toInt.bmod (2 ^ 32)) 32 ∧
    signed (.ddiv rs rt) a.toInt b.toInt 64 ∧
    (b.toNat % 2 ^ 32 ≠ 0 → ∃ q r : Nat,
      exec (.divu rs rt) s = .next ((s.setHi (BitVec.ofInt 64 ((r : Int).bmod (2 ^ 32)))).setLo
        (BitVec.ofInt 64 ((q : Int).bmod (2 ^ 32)))) ∧
      a.toNat % 2 ^ 32 = (b.toNat % 2 ^ 32) * q + r ∧ r < b.toNat % 2 ^ 32) ∧
    (b ≠ 0 → ∃ q r : Nat,
      exec (.ddivu rs rt) s = .next ((s.setHi (BitVec.ofNat 64 r)).setLo (BitVec.ofNat 64 q)) ∧
      a.toNat = b.toNat * q + r ∧ r < b.toNat)

/-- R620 to R623: the moves between HI, LO and a general register, read back in a following instruction
with no delay (R1340). -/
def Obligations.HiLoMoves : Prop :=
  ∀ (s : State) (rd rs : RegIdx),
    exec (.mfhi rd) s = .next (s.setX rd s.hi) ∧ exec (.mflo rd) s = .next (s.setX rd s.lo) ∧
    (∃ t u, exec (.mthi rs) s = .next t ∧ exec (.mfhi rd) t = .next u ∧ u.x rd = s.x rs ∧
      t.lo = s.lo ∧ t = s.setHi (s.x rs)) ∧
    (∃ t u, exec (.mtlo rs) s = .next t ∧ exec (.mflo rd) t = .next u ∧ u.x rd = s.x rs ∧
      t.hi = s.hi ∧ t = s.setLo (s.x rs))

/-! ## Branches and jumps -/

/-- R710 to R713, R740, R741, R700 to R702: outside a delay slot a plain branch whose condition holds
leaves its delay slot pending and `pc` at its target, and otherwise changes nothing. -/
def Obligations.PlainBranches : Prop :=
  ∀ (s : State) (rs rt : RegIdx) (imm : BitVec 16), s.ds = none →
    let a := (s.x rs).toInt
    let law (i : Instr) (c : Prop) : Prop :=
      (c → exec i s = .next (takenBranch s imm)) ∧ (¬ c → exec i s = .next s)
    law (.beq rs rt imm) (s.x rs = s.x rt) ∧ law (.bne rs rt imm) (s.x rs ≠ s.x rt) ∧
    law (.blez rs imm) (a ≤ 0) ∧ law (.bgtz rs imm) (0 < a) ∧
    law (.bltz rs imm) (a < 0) ∧ law (.bgez rs imm) (0 ≤ a)

/-- R714 to R717, R742, R743, R700 to R702: outside a delay slot a branch-likely whose condition holds is
taken like a plain one, and otherwise skips its delay slot: `pc` is its address plus 8. -/
def Obligations.LikelyBranches : Prop :=
  ∀ (s : State) (rs rt : RegIdx) (imm : BitVec 16), s.ds = none →
    let a := (s.x rs).toInt
    let law (i : Instr) (c : Prop) : Prop :=
      (c → exec i s = .next (takenBranch s imm)) ∧ (¬ c → exec i s = .next (s.setPc (s.cur + 8)))
    law (.beql rs rt imm) (s.x rs = s.x rt) ∧ law (.bnel rs rt imm) (s.x rs ≠ s.x rt) ∧
    law (.blezl rs imm) (a ≤ 0) ∧ law (.bgtzl rs imm) (0 < a) ∧
    law (.bltzl rs imm) (a < 0) ∧ law (.bgezl rs imm) (0 ≤ a)

/-- R744 to R747, R730: a linking branch writes its address plus 8 into `x[31]` whether taken or not. -/
def Obligations.LinkingBranches : Prop :=
  ∀ (s : State) (rs : RegIdx) (imm : BitVec 16), s.ds = none → rs ≠ 31 →
    let a := (s.x rs).toInt
    let linked := s.setX 31 (s.cur + 8)
    let law (i : Instr) (c : Prop) (untaken : State) : Prop :=
      (c → exec i s = .next (takenBranch linked imm)) ∧ (¬ c → exec i s = .next untaken)
    law (.bltzal rs imm) (a < 0) linked ∧ law (.bgezal rs imm) (0 ≤ a) linked ∧
    law (.bltzall rs imm) (a < 0) (linked.setPc (s.cur + 8)) ∧
    law (.bgezall rs imm) (0 ≤ a) (linked.setPc (s.cur + 8))

/-- R720 to R723, R311, R730: the jumps leave their delay slot pending; J and JAL go to the target in the
256 MiB region of the delay slot, JR and JALR to the register's value; JAL and JALR link. -/
def Obligations.Jumps : Prop :=
  ∀ (s : State) (rs rd : RegIdx) (target : BitVec 26), s.ds = none →
    let slot := s.cur + 4
    let region := BitVec.ofNat 64 (slot.toNat / 2 ^ 28 * 2 ^ 28 + target.toNat * 4)
    let go (t : State) (a : Addr) : State := (t.setDs (some slot)).setPc a
    exec (.j target) s = .next (go s region) ∧
    exec (.jal target) s = .next (go (s.setX 31 (s.cur + 8)) region) ∧
    exec (.jr rs) s = .next (go s (s.x rs)) ∧
    (rd ≠ rs → exec (.jalr rs rd) s = .next (go (s.setX rd (s.cur + 8)) (s.x rs)))

/-- R406, R790, R791: a control transfer in a delay slot is the fatal fault CtiInDelaySlot, checked first
(ERET: after its usability check); outside one, JALR with rd = rs and a linking branch with rs = 31 are
the fatal fault LinkOverwritesSource. -/
def Obligations.FatalControlTransfers : Prop :=
  (∀ (i : Instr) (s : State), isControlTransfer i = true → s.inDS = true →
    (i = .eret → usable s 0 = true) → exec i s = .fault (.ctiInDelaySlot s.cur s.word)) ∧
  (∀ (s : State) (r : RegIdx) (imm : BitVec 16) (i : Instr), s.inDS = false →
    i = .jalr r r ∨ i = .bltzal 31 imm ∨ i = .bgezal 31 imm ∨ i = .bltzall 31 imm ∨
      i = .bgezall 31 imm →
    exec i s = .fault (.linkOverwritesSource s.cur s.word))

/-! ## Loads and stores -/

/-- R810 to R816, R800, R803, R241, R247: where the bus words are readable plain memory and the address is
aligned, a load writes the bytes at its address, in the order Config.BE gives, with the extension it
names. Plain memory and its byte layout are the model's choice (log 5, log 10). -/
def Obligations.SizedLoads : Prop :=
  ∀ (s : State) (base rt : RegIdx) (off : BitVec 16),
    let va := BitVec.ofInt 64 ((s.x base).toInt + off.toInt)
    let law (i : Instr) (value : Int) : Prop := exec i s = .next (s.setX rt (BitVec.ofInt 64 value))
    let v (n : Nat) : Int := guestValue s va n
    ramReadable s va = true →
      (law (.lb base rt off) ((v 1).bmod (2 ^ 8)) ∧ law (.lbu base rt off) (v 1)) ∧
      (va.toNat % 2 = 0 →
        law (.lh base rt off) ((v 2).bmod (2 ^ 16)) ∧ law (.lhu base rt off) (v 2)) ∧
      (va.toNat % 4 = 0 →
        law (.lw base rt off) ((v 4).bmod (2 ^ 32)) ∧ law (.lwu base rt off) (v 4)) ∧
      (va.toNat % 8 = 0 → ramReadable s (va + 4) = true → law (.ld base rt off) (v 8))

/-- R820 to R823, R800, R803, R244 to R247: where the bus words are plain memory (readable as well for the
sub-word forms, two words that share no cell for SD), a store leaves the low bytes of its register at its
address, in the order Config.BE gives, and changes no other byte and nothing but memory. The canonical
form of memory is an invariant (StepKeepsInvariant). Plain memory and its byte layout are the model's
choice (log 5, log 10). -/
def Obligations.SizedStores : Prop :=
  ∀ (s : State) (base rt : RegIdx) (off : BitVec 16), Memory.wf s.mem = true →
    let va := BitVec.ofInt 64 ((s.x base).toInt + off.toInt)
    let law (i : Instr) (n : Nat) : Prop :=
      ∃ m, exec i s = .next (s.setMem m) ∧
        guestValue (s.setMem m) va n = (s.x rt).toNat % 2 ^ (8 * n) ∧
        ∀ c, c ∉ storedCells i s → Memory.read m c = Memory.read s.mem c
    ramWritable s va = true →
      (ramReadable s va = true →
        law (.sb base rt off) 1 ∧ (va.toNat % 2 = 0 → law (.sh base rt off) 2)) ∧
      (va.toNat % 4 = 0 → law (.sw base rt off) 4) ∧
      (va.toNat % 8 = 0 → ramWritable s (va + 4) = true → wordsApart s va = true →
        law (.sd base rt off) 8)

/-- R248: whatever Config.BE holds, a value stored with a width and reloaded with the same width from the
same address, zero-extended, is the value stored. Plain memory and its byte layout are the model's choice
(log 5, log 10). -/
def Obligations.StoreThenLoad : Prop :=
  ∀ (s : State) (base rt base' rt' : RegIdx) (off off' : BitVec 16), Memory.wf s.mem = true →
    let va := effAddr s base off
    let law (store load : Instr) (n : Nat) : Prop :=
      ∃ t, exec store s = .next t ∧
        exec load t = .next (t.setX rt' (BitVec.ofNat 64 ((s.x rt).toNat % 2 ^ (8 * n))))
    effAddr s base' off' = va → ramWritable s va = true → ramReadable s va = true →
      law (.sb base rt off) (.lbu base' rt' off') 1 ∧
      (va.toNat % 2 = 0 → law (.sh base rt off) (.lhu base' rt' off') 2) ∧
      (va.toNat % 4 = 0 → law (.sw base rt off) (.lwu base' rt' off') 4) ∧
      (va.toNat % 8 = 0 → ramWritable s (va + 4) = true → ramReadable s (va + 4) = true →
        wordsApart s va = true → law (.sd base rt off) (.ld base' rt' off') 8)

/-- R282, R1342: a word stored is the word the very next fetch from its address reads, in either byte
order. Plain memory and its byte layout are the model's choice (log 5, log 10). -/
def Obligations.StoreSeenByFetch : Prop :=
  ∀ (s : State) (base rt : RegIdx) (off : BitVec 16), Memory.wf s.mem = true →
    let va := effAddr s base off
    va.toNat % 4 = 0 → ramWritable s va = true → ramReadable s va = true →
    ∃ t, exec (.sw base rt off) s = .next t ∧ fetch t va = .next ((s.x rt).setWidth 32)

/-- R840, R841, R844, R845: the left loads put the bytes from `va` to the end of its word (BE = 1), or
from `va` down to the start of its word (BE = 0), at the most significant end of the register; the right
loads put the bytes from `va` down to the start of the word (BE = 1), or up to its end (BE = 0), at the
least significant end; the other bytes are kept. LWL sign-extends, LWR when it loads four bytes; else
LWR's upper half is a free value, which advances the draw counter, and nothing is said about it (D28).
Plain memory and its byte layout are the model's choice (log 5, log 10). -/
def Obligations.PartialLoads : Prop :=
  ∀ (s : State) (base rt : RegIdx) (off : BitVec 16),
    let va := effAddr s base off
    let up (k : Nat) := guestByte s (va + BitVec.ofNat 64 k)
    let down (k : Nat) := guestByte s (va - BitVec.ofNat 64 k)
    let old (k : Nat) := regByte (s.x rt) k
    let o := va.toNat % 4
    let p := va.toNat % 8
    (ramReadable s va = true →
      (∃ v, exec (.lwl base rt off) s = .next (s.setX rt v) ∧ v.toInt = v.toInt.bmod (2 ^ 32) ∧
        ∀ k, k < 4 → regByte v (3 - k) =
          if s.be then (if k < 4 - o then up k else old (3 - k))
          else (if k ≤ o then down k else old (3 - k))) ∧
      (∃ v, exec (.lwr base rt off) s =
          .next (if o = (if s.be then 3 else 0) then s.setX rt v
            else (s.setX rt v).setDraws (s.draws + 1)) ∧
        (o = (if s.be then 3 else 0) → v.toInt = v.toInt.bmod (2 ^ 32)) ∧
        ∀ k, k < 4 → regByte v k =
          if s.be then (if k ≤ o then down k else old k)
          else (if k < 4 - o then up k else old k))) ∧
    (ramReadable s (dwordBase va) = true → ramReadable s (dwordBase va + 4) = true →
      (∃ v, exec (.ldl base rt off) s = .next (s.setX rt v) ∧
        ∀ k, k < 8 → regByte v (7 - k) =
          if s.be then (if k < 8 - p then up k else old (7 - k))
          else (if k ≤ p then down k else old (7 - k))) ∧
      (∃ v, exec (.ldr base rt off) s = .next (s.setX rt v) ∧
        ∀ k, k < 8 → regByte v k =
          if s.be then (if k ≤ p then down k else old k)
          else (if k < 8 - p then up k else old k)))

/-- R842, R843, R846, R847: the partial stores write the register's bytes to the places the partial loads
read them from, and change no other byte of memory and nothing but memory. Plain memory and its byte
layout are the model's choice (log 5, log 10). -/
def Obligations.PartialStores : Prop :=
  ∀ (s : State) (base rt : RegIdx) (off : BitVec 16), Memory.wf s.mem = true →
    let va := effAddr s base off
    let reg (k : Nat) := regByte (s.x rt) k
    let law (i : Instr) (bytes : State → Prop) : Prop :=
      ∃ m, exec i s = .next (s.setMem m) ∧ bytes (s.setMem m) ∧
        ∀ c, c ∉ storedCells i s → Memory.read m c = Memory.read s.mem c
    let up (t : State) (k : Nat) := guestByte t (va + BitVec.ofNat 64 k)
    let down (t : State) (k : Nat) := guestByte t (va - BitVec.ofNat 64 k)
    let o := va.toNat % 4
    let p := va.toNat % 8
    (ramReadable s va = true → ramWritable s va = true →
      law (.swl base rt off) (fun t => ∀ k,
        (s.be = true → k < 4 - o → up t k = reg (3 - k)) ∧
        (s.be = false → k ≤ o → down t k = reg (3 - k))) ∧
      law (.swr base rt off) (fun t => ∀ k,
        (s.be = true → k ≤ o → down t k = reg k) ∧
        (s.be = false → k < 4 - o → up t k = reg k))) ∧
    (ramReadable s (dwordBase va) = true → ramReadable s (dwordBase va + 4) = true →
      ramWritable s (dwordBase va) = true → ramWritable s (dwordBase va + 4) = true →
      wordsApart s (dwordBase va) = true →
      law (.sdl base rt off) (fun t => ∀ k,
        (s.be = true → k < 8 - p → up t k = reg (7 - k)) ∧
        (s.be = false → k ≤ p → down t k = reg (7 - k))) ∧
      law (.sdr base rt off) (fun t => ∀ k,
        (s.be = true → k ≤ p → down t k = reg k) ∧
        (s.be = false → k < 8 - p → up t k = reg k)))

/-- R848: a left and a right load of an unaligned word, in the order the byte order asks for, leave in the
low half of the register the four bytes at the address in the order a word load would. The base register
is not the loaded one, so both name one address. Plain memory and its byte layout are the model's choice
(log 5, log 10). -/
def Obligations.UnalignedWordPair : Prop :=
  ∀ (s : State) (base rt : RegIdx) (off off3 : BitVec 16), base ≠ rt →
    let a := effAddr s base off
    effAddr s base off3 = a + 3 → ramReadable s a = true → ramReadable s (a + 3) = true →
    let first : Instr := if s.be then .lwl base rt off else .lwr base rt off
    let second : Instr := if s.be then .lwr base rt off3 else .lwl base rt off3
    ∃ t u, exec first s = .next t ∧ exec second t = .next u ∧
      (u.x rt).toNat % 2 ^ 32 = guestValue s a 4

/-- R860, R861, R137: LL and LLD load like LW and LD, set LLbit, and leave the physical address divided by
16 in LLAddr. Plain memory and its byte layout are the model's choice (log 5, log 10). -/
def Obligations.LoadLinked : Prop :=
  ∀ (s : State) (base rt : RegIdx) (off : BitVec 16),
    let va := effAddr s base off
    let law (i : Instr) (value : Int) : Prop :=
      exec i s = .next (((s.setX rt (BitVec.ofInt 64 value)).setLlbit true).setC0 17
        (BitVec.ofNat 64 (va.toNat % 2 ^ 29 / 16)))
    ramReadable s va = true →
      (va.toNat % 4 = 0 → law (.ll base rt off) ((guestValue s va 4 : Int).bmod (2 ^ 32))) ∧
      (va.toNat % 8 = 0 → ramReadable s (va + 4) = true → law (.lld base rt off) (guestValue s va 8))

/-- R862, R863: with LLbit set, SC and SCD store like SW and SD and write 1; with it clear they write 0
and do nothing else, whatever the address. LLbit stays as it was. Plain memory and its byte layout are the
model's choice (log 5, log 10). -/
def Obligations.StoreConditional : Prop :=
  ∀ (s : State) (base rt : RegIdx) (off : BitVec 16), Memory.wf s.mem = true →
    let va := effAddr s base off
    let law (i : Instr) (n : Nat) : Prop :=
      ∃ m, exec i s = .next ((s.setMem m).setX rt 1) ∧
        guestValue (s.setMem m) va n = (s.x rt).toNat % 2 ^ (8 * n) ∧
        ∀ c, c ∉ storedCells i s → Memory.read m c = Memory.read s.mem c
    (s.llbit = false →
      exec (.sc base rt off) s = .next (s.setX rt 0) ∧ exec (.scd base rt off) s = .next (s.setX rt 0)) ∧
    (s.llbit = true → ramWritable s va = true →
      (va.toNat % 4 = 0 → law (.sc base rt off) 4) ∧
      (va.toNat % 8 = 0 → ramWritable s (va + 4) = true → wordsApart s va = true →
        law (.scd base rt off) 8))

/-- R242: an access of 2, 4 or 8 bytes at an address that is no multiple of its size is the fatal fault
Misaligned, before translation and whatever the address; a byte access is never misaligned. -/
def Obligations.MisalignedIsFatal : Prop :=
  ∀ (s : State) (base rt : RegIdx) (off : BitVec 16),
    let va := effAddr s base off
    let law (n : Nat) (i : Instr) : Prop := exec i s = .fault (.misaligned va n)
    (va.toNat % 2 ≠ 0 → law 2 (.lh base rt off) ∧ law 2 (.lhu base rt off) ∧ law 2 (.sh base rt off)) ∧
    (va.toNat % 4 ≠ 0 → law 4 (.lw base rt off) ∧ law 4 (.lwu base rt off) ∧ law 4 (.sw base rt off) ∧
      law 4 (.ll base rt off) ∧ (s.llbit = true → law 4 (.sc base rt off))) ∧
    (va.toNat % 8 ≠ 0 → law 8 (.ld base rt off) ∧ law 8 (.sd base rt off) ∧ law 8 (.lld base rt off) ∧
      (s.llbit = true → law 8 (.scd base rt off))) ∧
    (∀ i a n, i = .lb base rt off ∨ i = .lbu base rt off ∨ i = .sb base rt off →
      exec i s ≠ .fault (.misaligned a n))

/-- R210: kseg0 and kseg1 map to the low 29 bits of the address, and every other address is the fatal
fault UnknownSegment. -/
def Obligations.TranslateSegments : Prop :=
  ∀ va : Addr,
    (0xFFFFFFFF80000000 ≤ va.toNat ∧ va.toNat ≤ 0xFFFFFFFF9FFFFFFF →
      Machine.translate va = .next (va - 0xFFFFFFFF80000000)) ∧
    (0xFFFFFFFFA0000000 ≤ va.toNat ∧ va.toNat ≤ 0xFFFFFFFFBFFFFFFF →
      Machine.translate va = .next (va - 0xFFFFFFFFA0000000)) ∧
    (va.toNat < 0xFFFFFFFF80000000 ∨ 0xFFFFFFFFBFFFFFFF < va.toNat →
      Machine.translate va = .fault (.unknownSegment va))

/-- R801, R210, R211, R231 to R233: an aligned access outside kseg0 and kseg1 is the fatal fault
UnknownSegment of the address accessed, never an exception. Inside them it stops as its bus transactions
do, the first that stops deciding: a load reads, SW, SD, SC and SCD write, every other store reads its word
and then writes it; a doubleword's first word comes first. How one transaction stops is `readStop` and
`writeStop`: the fatal faults UnmappedAddress, NoReadHandler and NoWriteHandler, and a refusal on a device
(R235: no rule gives its answer, log 5). -/
def Obligations.OutsideSegmentsIsFatal : Prop :=
  ∀ (s : State) (base rt : RegIdx) (off : BitVec 16),
    let va := effAddr s base off
    (let law (a : Addr) (i : Instr) : Prop := exec i s = .fault (.unknownSegment a)
    va.toNat < 0xFFFFFFFF80000000 ∨ 0xFFFFFFFFBFFFFFFF < va.toNat →
      (law va (.lb base rt off) ∧ law va (.lbu base rt off) ∧ law va (.sb base rt off)) ∧
      (va.toNat % 2 = 0 → law va (.lh base rt off) ∧ law va (.lhu base rt off) ∧
        law va (.sh base rt off)) ∧
      (va.toNat % 4 = 0 → law va (.lw base rt off) ∧ law va (.lwu base rt off) ∧
        law va (.sw base rt off) ∧ law va (.ll base rt off) ∧
        (s.llbit = true → law va (.sc base rt off))) ∧
      (va.toNat % 8 = 0 → law va (.ld base rt off) ∧ law va (.sd base rt off) ∧
        law va (.lld base rt off) ∧ (s.llbit = true → law va (.scd base rt off))) ∧
      (law (wordBase va) (.lwl base rt off) ∧ law (wordBase va) (.lwr base rt off) ∧
        law (wordBase va) (.swl base rt off) ∧ law (wordBase va) (.swr base rt off)) ∧
      (law (dwordBase va) (.ldl base rt off) ∧ law (dwordBase va) (.ldr base rt off) ∧
        law (dwordBase va) (.sdl base rt off) ∧ law (dwordBase va) (.sdr base rt off))) ∧
    (let word (a : Addr) : Nat := (wordBase (physical a)).toNat
    let reading (a : Addr) : Option Stop := readStop s.params.busMap (word a)
    let writing (a : Addr) (w : BusWord) : Option Stop := writeStop s.params.busMap (word a) w
    let law (o : Stop) (i : Instr) : Prop := exec i s = o.outcome
    let v := s.x rt
    let hi : BusWord := v.extractLsb' 32 32
    let lo : BusWord := v.extractLsb' 0 32
    let d := dwordBase va
    0xFFFFFFFF80000000 ≤ va.toNat → va.toNat ≤ 0xFFFFFFFFBFFFFFFF → ∀ o : Stop,
      (reading va = some o →
        (law o (.lb base rt off) ∧ law o (.lbu base rt off) ∧ law o (.sb base rt off)) ∧
        (va.toNat % 2 = 0 → law o (.lh base rt off) ∧ law o (.lhu base rt off) ∧
          law o (.sh base rt off)) ∧
        (va.toNat % 4 = 0 → law o (.lw base rt off) ∧ law o (.lwu base rt off) ∧
          law o (.ll base rt off)) ∧
        (law o (.lwl base rt off) ∧ law o (.lwr base rt off) ∧ law o (.swl base rt off) ∧
          law o (.swr base rt off))) ∧
      (∀ w, reading va = none → writing va w = some o →
        law o (.sb base rt off) ∧ (va.toNat % 2 = 0 → law o (.sh base rt off)) ∧
        law o (.swl base rt off) ∧ law o (.swr base rt off)) ∧
      (va.toNat % 4 = 0 → writing va lo = some o →
        law o (.sw base rt off) ∧ (s.llbit = true → law o (.sc base rt off))) ∧
      (va.toNat % 8 = 0 → (reading va).or (reading (va + 4)) = some o →
        law o (.ld base rt off) ∧ law o (.lld base rt off)) ∧
      ((reading d).or (reading (d + 4)) = some o →
        law o (.ldl base rt off) ∧ law o (.ldr base rt off) ∧ law o (.sdl base rt off) ∧
        law o (.sdr base rt off)) ∧
      (∀ w w', reading d = none → reading (d + 4) = none →
        (writing d w).or (writing (d + 4) w') = some o →
        law o (.sdl base rt off) ∧ law o (.sdr base rt off)) ∧
      (va.toNat % 8 = 0 →
        (writing va (if s.be then hi else lo)).or (writing (va + 4) (if s.be then lo else hi)) = some o →
        law o (.sd base rt off) ∧ (s.llbit = true → law o (.scd base rt off))))

/-- R230 to R234: in a table whose entries do not overlap, an address at or between the ends of an entry
resolves to that entry wherever it stands, and a read or a write of it gives the address to the entry's
read or write function, offset by its start when its flag is set, or is the fatal fault NoReadHandler or
NoWriteHandler of an entry without that function. A forwarding entry answers as its sub-table does at the
address it hands on, an error included, which so carries the sub-table's address with the outer table not
tried again (the model's reading, log 18). An address in no range is an error: UnmappedAddress for both. The
table's shape as data is the model's choice (log 5). -/
def Obligations.BusLookup : Prop :=
  ∀ (t : BusTable) (a : Nat), BusTable.wf t = true →
    let given (r : MapRange) : Nat := if r.offset then a - r.start else a
    (∀ e, e ∈ t.entries → e.range.start ≤ a → a ≤ e.range.stop →
      findEntry t a = .ok (e, a) ∧
      readPort t a = (if e.readable then .next (e.backing, given e.range) else .fault (.noReadHandler a)) ∧
      writePort t a =
        (if e.writable then .next (e.backing, given e.range) else .fault (.noWriteHandler a))) ∧
    (∀ r sub, (r, sub) ∈ t.forwards → r.start ≤ a → a ≤ r.stop →
      findEntry t a = findEntry sub (given r) ∧ readPort t a = readPort sub (given r) ∧
      writePort t a = writePort sub (given r)) ∧
    ((∀ r, r ∈ t.ranges → a < r.start ∨ r.stop < a) →
      findEntry t a = .error a ∧ readPort t a = .fault (.unmappedAddress a) ∧
      writePort t a = .fault (.unmappedAddress a))

/-! ## System, CP0, CP1, CP2, CP3 -/

/-- R930, R931, R1020: SYNC does nothing; CACHE and TLBWI do nothing when CP0 is usable, whatever their
fields, and raise Coprocessor Unusable on unit 0 when it is not. -/
def Obligations.SyncCacheTlbwi : Prop :=
  ∀ (s : State) (base : RegIdx) (op stype : BitVec 5) (off : BitVec 16),
    exec (.sync stype) s = .next s ∧
    (usable s 0 = true → exec (.cache base op off) s = .next s ∧ exec .tlbwi s = .next s) ∧
    (usable s 0 = false → exec (.cache base op off) s = .next (raised (.cpu 0) s) ∧
      exec .tlbwi s = .next (raised (.cpu 0) s))

/-- R1000, R1001, R1031: with CP0 usable, MFC0 reads the low word of any CP0 register sign-extended, DMFC0
all of it. -/
def Obligations.MovesFromCp0 : Prop :=
  ∀ (s : State) (rt rd : RegIdx), usable s 0 = true →
    (∃ v, exec (.mfc0 rt rd) s = .next (s.setX rt v) ∧ v.toInt = (s.c0 rd).toInt.bmod (2 ^ 32)) ∧
    exec (.dmfc0 rt rd) s = .next (s.setX rt (s.c0 rd))

/-- R1010 to R1013: with CP0 usable, a move to Cause writes bits 9 and 8 only, a move to Compare also
clears bit 15 of Cause, a move to any other register stores the value; MTC0's value is the low word
sign-extended, DMTC0's all 64 bits. Nothing else changes. -/
def Obligations.MovesToCp0 : Prop :=
  ∀ (s : State) (rt : RegIdx), usable s 0 = true →
    let law (i : RegIdx → Instr) (v : Word) : Prop :=
      (∃ u, exec (i 13) s = .next (s.setC0 13 u) ∧
        ∀ k, u.getLsbD k = if k = 8 ∨ k = 9 then (s.x rt).getLsbD k else s.cause.getLsbD k) ∧
      (∃ u, exec (i 11) s = .next ((s.setC0 11 v).setC0 13 u) ∧
        ∀ k, u.getLsbD k = (k != 15 && s.cause.getLsbD k)) ∧
      (∀ rd, rd ≠ 13 → rd ≠ 11 → exec (i rd) s = .next (s.setC0 rd v))
    law (fun rd => .mtc0 rt rd) (BitVec.ofInt 64 ((s.x rt).toInt.bmod (2 ^ 32))) ∧
    law (fun rd => .dmtc0 rt rd) (s.x rt)

/-- R1040: ERET, with CP0 usable and outside a delay slot, goes to ErrorEPC and clears ERL when ERL is
set, else to EPC and clears EXL; it clears LLbit and the marker and changes nothing else. In a delay slot
it is fatal. -/
def Obligations.ExceptionReturn : Prop :=
  ∀ s : State, usable s 0 = true →
    (s.inDS = true → exec .eret s = .fault (.ctiInDelaySlot s.cur s.word)) ∧
    (s.inDS = false → ∃ v, let back := if s.status.getLsbD 2 then s.c0 30 else s.c0 14
      exec .eret s = .next ((((s.setPc back).setC0 12 v).setLlbit false).setDs none) ∧
      ∀ k, v.getLsbD k =
        (s.status.getLsbD k && k != (if s.status.getLsbD 2 then 2 else 1)))

/-- R1050, R1120, R1121, R1130, R420: the rows with no operation raise Reserved Instruction, whatever
their fields, once their unit is usable (the LWCz, SWCz, LDCz and SDCz words whatever CU holds): the
entry, then the signal of the word at its address, and nothing else. -/
def Obligations.ReservedRows : Prop :=
  ∀ (s : State) (a b c : RegIdx) (nd : BitVec 2) (off : BitVec 16) (f : BitVec 6) (cf : BitVec 26),
    let law (i : Instr) : Prop := exec i s = .next (reservedEntry s)
    (law (.lwc1 a b off) ∧ law (.lwc2 a b off) ∧ law (.ldc1 a b off) ∧ law (.ldc2 a b off) ∧
      law (.swc1 a b off) ∧ law (.swc2 a b off) ∧ law (.sdc1 a b off) ∧ law (.sdc2 a b off)) ∧
    (usable s 0 = true → law (.bc0 nd off) ∧ law .tlbr ∧ law .tlbwr ∧ law .tlbp) ∧
    (usable s 1 = true → law (.mfc1 a b) ∧ law (.dmfc1 a b) ∧ law (.mtc1 a b) ∧ law (.dmtc1 a b) ∧
      law (.bc1 nd off) ∧ law (.cop1S a b c f) ∧ law (.cop1D a b c f) ∧ law (.cop1W a b c f) ∧
      law (.cop1L a b c f)) ∧
    (usable s 2 = true → law (.cop2 cf)) ∧ (usable s 3 = true → law (.cop3 cf)) ∧
    (s.cur, s.word) ∈ (reservedEntry s).unimplemented ∧
    CauseReg.excCode (reservedEntry s).cause = 10

/-- R331, R410, R1271: CP0 is usable in Kernel mode (EXL, ERL, or KSU = 00) or with CU[0] set, another unit
with its CU bit set; a COPz instruction, and CACHE for unit 0, whose unit is not usable raises Coprocessor
Unusable with Cause.CE its unit, in any mode and with any operands. -/
def Obligations.CoprocessorUnusable : Prop :=
  (∀ (s : State) (z : BitVec 2), usable s z = true ↔
    s.status.getLsbD (28 + z.toNat) = true ∨
      (z = 0 ∧ (s.status.getLsbD 1 = true ∨ s.status.getLsbD 2 = true ∨
        (s.status.getLsbD 3 = false ∧ s.status.getLsbD 4 = false)))) ∧
  (∀ (i : Instr) (s : State) (z : BitVec 2), copUnit i = some z → usable s z = false →
    exec i s = .next (raised (.cpu z) s) ∧ CauseReg.excCode (raised (.cpu z) s).cause = 11 ∧
      CauseReg.ce (raised (.cpu z) s).cause = z)

/-- R1100, R1101, R1110 to R1112: with CP1 usable, CFC1 reads FCR0 and FCR31 sign-extended; CTC1 ignores a
write of FCR0 and stores FCR31 whole, and then raises Floating-Point (code 15) when Cause.E or a cause bit
with its enable is set; every other register number is Reserved Instruction. FCR0 is Imp in bits 15:8, Rev
in bits 7:0 and zeros above, which R141 marks as general knowledge (log 7). -/
def Obligations.ControlRegistersOfCp1 : Prop :=
  ∀ (s : State) (rt fs : RegIdx), usable s 1 = true →
    let v : BitVec 32 := (s.x rt).setWidth 32
    exec (.cfc1 rt 0) s = .next (s.setX rt (BitVec.ofInt 64 s.fcr0.toInt)) ∧
    exec (.cfc1 rt 31) s = .next (s.setX rt (BitVec.ofInt 64 s.fcr31.toInt)) ∧
    exec (.ctc1 rt 0) s = .next s ∧
    ((v.getLsbD 17 = true ∨ ∃ k, k < 5 ∧ v.getLsbD (12 + k) = true ∧ v.getLsbD (7 + k) = true) →
      exec (.ctc1 rt 31) s = .next (raised .fpe (s.setFcr31 v))) ∧
    (¬ (v.getLsbD 17 = true ∨ ∃ k, k < 5 ∧ v.getLsbD (12 + k) = true ∧ v.getLsbD (7 + k) = true) →
      exec (.ctc1 rt 31) s = .next (s.setFcr31 v)) ∧
    (fs ≠ 0 → fs ≠ 31 →
      exec (.cfc1 rt fs) s = .next (reservedEntry s) ∧ exec (.ctc1 rt fs) s = .next (reservedEntry s)) ∧
    CauseReg.excCode (raised .fpe (s.setFcr31 v)).cause = 15 ∧
    (∀ k, s.fcr0.getLsbD k =
      (k < 16 && if k < 8 then s.params.fcr0Value.rev.getLsbD k
        else s.params.fcr0Value.imp.getLsbD (k - 8)))

/-! ## Frames over all instructions -/

/-- R440: an instruction that answers a next state changes no general register but the one its rule writes
(JAL and the linking branches: `x[31]`). -/
def Obligations.FrameGeneralRegisters : Prop :=
  ∀ (i : Instr) (s t : State), exec i s = .next t → ∀ r, destReg i ≠ some r → t.x r = s.x r

/-- R440: an instruction that answers a next state changes no byte of memory but those it stores to: the
cells of `storedAddrs`, computed from its effective address; all of memory is kept by a form that stores
nothing. Plain memory and its byte layout are the model's choice (log 5, log 10). -/
def Obligations.FrameMemory : Prop :=
  ∀ (i : Instr) (s t : State), Memory.wf s.mem = true → exec i s = .next t →
    (∀ c, c ∉ storedCells i s → Memory.read t.mem c = Memory.read s.mem c) ∧
    (storedAddrs i s = [] → t.mem = s.mem)

/-- R440, R630, R110, R140: HI and LO change only by the multiplies, divides, MTHI and MTLO; LLbit only
by LL, LLD and ERET; FCR31 only by CTC1; the draw counter (the model's, log 12) only by LWR; the parameters
and the floating-point registers never. -/
def Obligations.FrameSpecialRegisters : Prop :=
  ∀ (i : Instr) (s t : State), exec i s = .next t →
    (writesHiLo i = false → t.hi = s.hi ∧ t.lo = s.lo) ∧
    ((∀ b r o, i ≠ .ll b r o ∧ i ≠ .lld b r o) → i ≠ .eret → t.llbit = s.llbit) ∧
    ((∀ r, i ≠ .ctc1 r 31) → t.fcr31 = s.fcr31) ∧
    ((∀ b r o, i ≠ .lwr b r o) → t.draws = s.draws) ∧
    (∀ n, t.f n = s.f n) ∧ t.params = s.params

/-- R116, R1271, R1225: an instruction that is no move to CP0 changes of CP0 only BadVAddr, Status, Cause,
EPC and LLAddr; and where CP0 is locked (outside Kernel mode with CU[0] clear) every instruction, a move
to CP0 included, leaves every other CP0 register and every Status bit but EXL as it was. -/
def Obligations.Cp0Isolation : Prop :=
  ∀ (i : Instr) (s t : State), exec i s = .next t → isMoveToC0 i = false ∨ cp0Locked s = true →
    (∀ n, n ≠ 8 → n ≠ 12 → n ≠ 13 → n ≠ 14 → n ≠ 17 → t.c0 n = s.c0 n) ∧
    (cp0Locked s = true → ∀ k, k ≠ 1 → t.status.getLsbD k = s.status.getLsbD k)
end

