-- ==== Sys2Proof/Laws/Arith.lean ====
section
/-! SUPPORT. The words instructions compute, as integers: extension and truncation, immediates, shifts,
products, overflow. -/

namespace Sys2Proof.Machine

/-! ## Extension and truncation -/

theorem toInt_sext64 {n : Nat} (v : BitVec n) (h : n ≤ 64) : (sext64 v).toInt = v.toInt := by
  unfold sext64; exact BitVec.toInt_signExtend_of_le h

theorem toInt_lo32 (v : Word) : (lo32 v).toInt = v.toInt.bmod (2 ^ 32) := by
  unfold lo32
  rw [BitVec.toInt_setWidth, BitVec.toInt_eq_toNat_bmod, Int.bmod_bmod_of_dvd]
  decide

theorem toNat_lo32 (v : Word) : (lo32 v).toNat = v.toNat % 2 ^ 32 := by simp [lo32]

theorem lo32_sext64 (v : BitVec 32) : lo32 (sext64 v) = v := by
  apply BitVec.eq_of_getLsbD_eq
  intro i hi
  simp [lo32, sext64, BitVec.getLsbD_signExtend]
  grind

theorem toNat_sext64_mod (v : BitVec 32) : (sext64 v).toNat % 2 ^ 32 = v.toNat := by
  rw [← toNat_lo32, lo32_sext64]

/-- A sign-extended word is canonical. -/
theorem toInt_sext64_canonical (v : BitVec 32) :
    (sext64 v).toInt = (sext64 v).toInt.bmod (2 ^ 32) := by
  rw [toInt_sext64 _ (by decide), BitVec.toInt_eq_toNat_bmod, Int.bmod_bmod]

theorem sext64_ofInt (x : Int) : sext64 (BitVec.ofInt 32 x) = BitVec.ofInt 64 (x.bmod (2 ^ 32)) := by
  rw [← BitVec.ofInt_toInt (x := sext64 _), toInt_sext64 _ (by decide), BitVec.toInt_ofInt]

/-- A sign-extended value is the word of its signed reading. -/
theorem sext64_eq_ofInt {n : Nat} (v : BitVec n) (h : n ≤ 64) : sext64 v = BitVec.ofInt 64 v.toInt := by
  rw [← toInt_sext64 v h, BitVec.ofInt_toInt]

theorem toInt_simm32 (imm : BitVec 16) : (simm32 imm).toInt = imm.toInt := by
  unfold simm32; exact BitVec.toInt_signExtend_of_le (by decide)

theorem toInt_simm (imm : BitVec 16) : (simm imm).toInt = imm.toInt := toInt_sext64 _ (by decide)

theorem toNat_simm (imm : BitVec 16) : (simm imm).toNat = (imm.toInt % 2 ^ 64).toNat := by
  have h := toInt_simm imm
  rw [BitVec.toInt_eq_toNat_bmod] at h
  have h2 := (simm imm).isLt
  have h3 : ((↑(simm imm).toNat : Int).bmod (2 ^ 64)) % (2 ^ 64) = (↑(simm imm).toNat : Int) % (2 ^ 64) :=
    Int.bmod_emod
  rw [← h, h3]
  omega

theorem bmod_eq_self_32 (x : Int) (h1 : -(2 ^ 31) ≤ x) (h2 : x < 2 ^ 31) : x.bmod (2 ^ 32) = x := by
  apply Int.bmod_eq_of_le_mul_two <;> simp at * <;> omega

theorem bmod_eq_self_64 (x : Int) (h1 : -(2 ^ 63) ≤ x) (h2 : x < 2 ^ 63) : x.bmod (2 ^ 64) = x := by
  apply Int.bmod_eq_of_le_mul_two <;> simp at * <;> omega

theorem ofInt_bmod_64 (x : Int) : BitVec.ofInt 64 (x.bmod (2 ^ 64)) = BitVec.ofInt 64 x := by
  apply BitVec.eq_of_toInt_eq; rw [BitVec.toInt_ofInt, BitVec.toInt_ofInt, Int.bmod_bmod]

/-! ## Shifts -/

theorem toInt_sshiftRight_eq {w : Nat} (v : BitVec w) (n : Nat) :
    (v.sshiftRight n).toInt = v.toInt / 2 ^ n := by
  rw [BitVec.toInt_sshiftRight, Int.shiftRight_eq_div_pow]; simp

theorem toInt_lo32_shiftLeft (v : Word) (n : Nat) :
    (lo32 v <<< n).toInt = (v.toInt * 2 ^ n).bmod (2 ^ 32) := by
  rw [BitVec.toInt_shiftLeft, toNat_lo32, Nat.shiftLeft_eq, ← Int.emod_bmod (x := v.toInt * 2 ^ n),
    Int.mul_emod, ← Int.emod_bmod]
  congr 1
  have h : v.toInt % (2 ^ 32 : Nat) = ((v.toNat % 2 ^ 32 : Nat) : Int) % (2 ^ 32 : Nat) := by
    rw [BitVec.toInt_eq_toNat_bmod]
    have := v.isLt
    have h3 : ((↑v.toNat : Int).bmod (2 ^ 64)) % (2 ^ 32 : Nat) = (↑v.toNat : Int) % (2 ^ 32 : Nat) := by
      rw [Int.bmod_def]; split <;> omega
    rw [h3]; simp
  rw [h, ← Int.mul_emod]; simp [Int.mul_emod]

theorem toInt_lo32_ushiftRight (v : Word) (n : Nat) :
    (lo32 v >>> n).toInt = ((v.toNat % 2 ^ 32 / 2 ^ n : Nat) : Int).bmod (2 ^ 32) := by
  rw [BitVec.toInt_eq_toNat_bmod, BitVec.toNat_ushiftRight, toNat_lo32, Nat.shiftRight_eq_div_pow]

theorem count5_eq (v : Word) : count5 v = v.toNat % 32 := by simp [count5, getField]

theorem count6_eq (v : Word) : count6 v = v.toNat % 64 := by simp [count6, getField]

/-! ## Products -/

theorem eq_append_halves {w : Nat} (p : BitVec (w + w)) :
    p = p.extractLsb' w w ++ p.extractLsb' 0 w := by
  apply BitVec.eq_of_getLsbD_eq; intro i hi; simp

theorem toInt_halves {w : Nat} (p : BitVec (w + w)) (hw : w ≠ 0) :
    (p.extractLsb' w w).toInt * 2 ^ w + ((p.extractLsb' 0 w).toNat : Int) = p.toInt := by
  conv => rhs; rw [eq_append_halves p, BitVec.toInt_append]
  simp [hw]; rw [Int.mul_comm]

theorem toNat_halves {w : Nat} (p : BitVec (w + w)) :
    (p.extractLsb' w w).toNat * 2 ^ w + (p.extractLsb' 0 w).toNat = p.toNat := by
  conv => rhs; rw [eq_append_halves p, BitVec.toNat_append]
  rw [← Nat.shiftLeft_add_eq_or_of_lt (BitVec.isLt _), Nat.shiftLeft_eq]

theorem toInt_product32 (a b : BitVec 32) : (sext64 a * sext64 b).toInt = a.toInt * b.toInt := by
  rw [BitVec.toInt_mul, toInt_sext64 _ (by decide), toInt_sext64 _ (by decide)]
  have h1 := @BitVec.le_toInt_mul_toInt 32 a b
  have h2 := @BitVec.toInt_mul_toInt_le 32 a b
  apply Int.bmod_eq_of_le_mul_two <;> simp at * <;> omega

theorem toInt_product64 (a b : BitVec 64) :
    (a.signExtend 128 * b.signExtend 128).toInt = a.toInt * b.toInt := by
  rw [BitVec.toInt_mul, BitVec.toInt_signExtend_of_le (by decide),
    BitVec.toInt_signExtend_of_le (by decide)]
  have h1 := @BitVec.le_toInt_mul_toInt 64 a b
  have h2 := @BitVec.toInt_mul_toInt_le 64 a b
  apply Int.bmod_eq_of_le_mul_two <;> simp at * <;> omega

theorem toNat_product32 (a b : BitVec 32) : (zext64 a * zext64 b).toNat = a.toNat * b.toNat := by
  unfold zext64
  have : a.toNat * b.toNat < 2 ^ 32 * 2 ^ 32 := Nat.mul_lt_mul'' a.isLt b.isLt
  rw [BitVec.toNat_mul, BitVec.toNat_setWidth_of_le (by decide),
    BitVec.toNat_setWidth_of_le (by decide)]
  exact Nat.mod_eq_of_lt this

theorem toNat_product64 (a b : BitVec 64) :
    (a.setWidth 128 * b.setWidth 128).toNat = a.toNat * b.toNat := by
  have : a.toNat * b.toNat < 2 ^ 64 * 2 ^ 64 := Nat.mul_lt_mul'' a.isLt b.isLt
  rw [BitVec.toNat_mul, BitVec.toNat_setWidth_of_le (by decide),
    BitVec.toNat_setWidth_of_le (by decide)]
  exact Nat.mod_eq_of_lt this

/-! ## Overflow -/

theorem overflows_eq_true (w : Nat) (e : Int) :
    overflows w e = true ↔ ¬ (-(2 ^ (w - 1)) ≤ e ∧ e < 2 ^ (w - 1)) := by
  simp [overflows]; omega

theorem overflows_eq_false (w : Nat) (e : Int) :
    overflows w e = false ↔ (-(2 ^ (w - 1)) ≤ e ∧ e < 2 ^ (w - 1)) := by
  rw [← Bool.not_eq_true, overflows_eq_true, Decidable.not_not]

/-- A signed add or subtract whose exact result fits runs. -/
theorem overflowCheck_fits {s : State} {o : Bool} {w : Nat} {e : Int} {k : Result}
    (ho : o = overflows w e) (h : -(2 ^ (w - 1)) ≤ e ∧ e < 2 ^ (w - 1)) : overflowCheck o s k = k := by
  simp [overflowCheck, ho, (overflows_eq_false w e).2 h]

/-- One whose exact result does not fit raises Overflow under ARITH_OVERFLOW = trap. -/
theorem overflowCheck_trap {s : State} {o : Bool} {w : Nat} {e : Int} {k : Result}
    (ho : o = overflows w e) (h : ¬ (-(2 ^ (w - 1)) ≤ e ∧ e < 2 ^ (w - 1)))
    (hp : s.params.arithOverflow = .trap) : overflowCheck o s k = .next (raised .ov s) := by
  simp [overflowCheck, raise, ho, (overflows_eq_true w e).2 h, hp]

/-- Under ARITH_OVERFLOW = wrap every one runs. -/
theorem overflowCheck_wrap {s : State} {o : Bool} {k : Result} (hp : s.params.arithOverflow = .wrap) :
    overflowCheck o s k = k := by
  simp [overflowCheck, hp]

theorem addOverflow_lo32 (a b : Word) : addOverflow (lo32 a) (lo32 b) =
    overflows 32 (a.toInt.bmod (2 ^ 32) + b.toInt.bmod (2 ^ 32)) := by
  simp only [addOverflow, toInt_lo32]

theorem subOverflow_lo32 (a b : Word) : subOverflow (lo32 a) (lo32 b) =
    overflows 32 (a.toInt.bmod (2 ^ 32) - b.toInt.bmod (2 ^ 32)) := by
  simp only [subOverflow, toInt_lo32]

theorem addOverflow_simm32 (a : Word) (imm : BitVec 16) : addOverflow (lo32 a) (simm32 imm) =
    overflows 32 (a.toInt.bmod (2 ^ 32) + imm.toInt) := by
  simp only [addOverflow, toInt_lo32, toInt_simm32]

theorem addOverflow_simm (a : Word) (imm : BitVec 16) : addOverflow a (simm imm) =
    overflows 64 (a.toInt + imm.toInt) := by
  simp only [addOverflow, toInt_simm]

end Sys2Proof.Machine
end

