-- ==== Sys2Proof/Laws/Bits.lean ====
section
/-! SUPPORT. Bit fields (spec/46_cp0.md R1060, R1061): a field written reads back, and no other bit
changes. -/

namespace Sys2Proof.Machine

/-- Every bit of a register after one of its fields is written. -/
theorem getLsbD_setField (v : Word) (lo : Nat) {n : Nat} (x : BitVec n) (i : Nat) (hi : i < 64) :
    (setField v lo x).getLsbD i = if lo ≤ i ∧ i < lo + n then x.getLsbD (i - lo) else v.getLsbD i := by
  have mask : ∀ j, ((1#64 <<< n) - 1#64).getLsbD j = (decide (j < n) && decide (j < 64)) := by
    intro j
    rcases Nat.lt_or_ge n 64 with hn | hn
    · have h1 : ((1#64 <<< n) - 1#64) = BitVec.ofNat 64 (2 ^ n - 1) := by
        apply BitVec.eq_of_toNat_eq
        have : 2 ^ n < 2 ^ 64 := Nat.pow_lt_pow_right (by decide) hn
        have h0 : 0 < 2 ^ n := Nat.two_pow_pos n
        simp only [BitVec.toNat_sub, BitVec.toNat_shiftLeft, BitVec.toNat_ofNat, Nat.shiftLeft_eq]
        rw [Nat.mod_eq_of_lt (show 1 < 2 ^ 64 by decide), Nat.one_mul, Nat.mod_eq_of_lt this]
        omega
      rw [h1, BitVec.getLsbD_ofNat, Nat.testBit_two_pow_sub_one, Bool.and_comm]
    · have h1 : (1#64 <<< n) = 0#64 := by
        apply BitVec.eq_of_getLsbD_eq
        intro k hk
        simp
        omega
      rw [h1, show (0#64 - 1#64) = BitVec.allOnes 64 from by decide, BitVec.getLsbD_allOnes]
      by_cases hj : j < 64
      · simp [hj]; omega
      · simp [hj]
  unfold setField
  simp only [BitVec.getLsbD_or, BitVec.getLsbD_and, BitVec.getLsbD_not, BitVec.getLsbD_shiftLeft,
    BitVec.getLsbD_setWidth, mask, hi, decide_true, Bool.true_and]
  by_cases h1 : lo ≤ i
  · by_cases h2 : i < lo + n
    · have : i - lo < n := by omega
      have h3 : i - lo < 64 := by omega
      simp [h1, h2, this, h3, show ¬ i < lo by omega]
    · have : ¬ i - lo < n := by omega
      have h3 : x.getLsbD (i - lo) = false := BitVec.getLsbD_of_ge _ _ (by omega)
      simp [h1, h2, this, h3]
  · simp [h1, show i < lo by omega]

/-- R1061: the bits outside a field keep their value. -/
theorem getLsbD_setField_outside (v : Word) (lo : Nat) {n : Nat} (x : BitVec n) (i : Nat)
    (h : i < lo ∨ lo + n ≤ i) : (setField v lo x).getLsbD i = v.getLsbD i := by
  by_cases hi : i < 64
  · rw [getLsbD_setField v lo x i hi, if_neg (by omega)]
  · rw [BitVec.getLsbD_of_ge _ _ (by omega), BitVec.getLsbD_of_ge _ _ (by omega)]

/-- R1061: a field read right after it is set is the value set. -/
theorem getField_setField (v : Word) (lo : Nat) {n : Nat} (x : BitVec n) (h : lo + n ≤ 64) :
    getField (setField v lo x) lo n = x := by
  apply BitVec.eq_of_getLsbD_eq
  intro i hi
  unfold getField
  rw [BitVec.getLsbD_extractLsb', getLsbD_setField v lo x (lo + i) (by omega),
    if_pos ⟨by omega, by omega⟩]
  simp [hi]

/-- R1061: a field that does not overlap the one set keeps its value. -/
theorem getField_setField_disjoint (v : Word) (lo : Nat) {n : Nat} (x : BitVec n) (lo' n' : Nat)
    (h : lo' + n' ≤ lo ∨ lo + n ≤ lo') : getField (setField v lo x) lo' n' = getField v lo' n' := by
  apply BitVec.eq_of_getLsbD_eq
  intro i hi
  unfold getField
  simp only [BitVec.getLsbD_extractLsb']
  rw [getLsbD_setField_outside v lo x (lo' + i) (by omega)]

/-- A flag set to a truth value reads it. -/
theorem getLsbD_setFlag_self (v : Word) (lo : Nat) (b : Bool) (h : lo < 64) :
    (setFlag v lo b).getLsbD lo = b := by
  unfold setFlag
  rw [getLsbD_setField v lo _ lo h, if_pos ⟨Nat.le_refl _, by omega⟩]
  cases b <;> simp

/-- Every other bit keeps its value. -/
theorem getLsbD_setFlag_ne (v : Word) (lo : Nat) (b : Bool) (i : Nat) (h : i ≠ lo) :
    (setFlag v lo b).getLsbD i = v.getLsbD i := by
  unfold setFlag
  exact getLsbD_setField_outside v lo _ i (by omega)

end Sys2Proof.Machine
end

