-- ==== Sys2Proof/Laws/State.lean ====
section
/-! SUPPORT. One lemma per field per update of State, so that no later proof unfolds a record update. -/

namespace Sys2Proof.Machine.State

/-! ## The updated field -/

theorem x_setX (s : State) (r q : RegIdx) (v : Word) :
    (s.setX r v).x q = if q = r then v else s.x q := by
  simp only [x, setX, Vector.getElem_set]
  simp [BitVec.toNat_inj, eq_comm]

theorem c0_setC0 (s : State) (n q : RegIdx) (v : Word) :
    (s.setC0 n v).c0 q = if q = n then v else s.c0 q := by
  simp only [c0, setC0, Vector.getElem_set]
  simp [BitVec.toNat_inj, eq_comm]

theorem f_setF (s : State) (n q : RegIdx) (v : Word) :
    (s.setF n v).f q = if q = n then v else s.f q := by
  simp only [f, setF, Vector.getElem_set]
  simp [BitVec.toNat_inj, eq_comm]

@[simp] theorem x_setX_self (s : State) (r : RegIdx) (v : Word) : (s.setX r v).x r = v := by
  simp [x_setX]

/-- A second write of one register wins. -/
@[simp] theorem setX_setX (s : State) (r : RegIdx) (v w : Word) : (s.setX r v).setX r w = s.setX r w := by
  simp [setX]

theorem x_setX_ne (s : State) (r q : RegIdx) (v : Word) (h : q ≠ r) : (s.setX r v).x q = s.x q := by
  simp [x_setX, h]

@[simp] theorem c0_setC0_self (s : State) (n : RegIdx) (v : Word) : (s.setC0 n v).c0 n = v := by
  simp [c0_setC0]

theorem c0_setC0_ne (s : State) (n q : RegIdx) (v : Word) (h : q ≠ n) :
    (s.setC0 n v).c0 q = s.c0 q := by
  simp [c0_setC0, h]

@[simp] theorem pc_setPc (s : State) (a : Addr) : (s.setPc a).pc = a := rfl
@[simp] theorem hi_setHi (s : State) (v : Word) : (s.setHi v).hi = v := rfl
@[simp] theorem lo_setLo (s : State) (v : Word) : (s.setLo v).lo = v := rfl
@[simp] theorem llbit_setLlbit (s : State) (b : Bool) : (s.setLlbit b).llbit = b := rfl
@[simp] theorem ds_setDs (s : State) (d : Option Addr) : (s.setDs d).ds = d := rfl
@[simp] theorem fcr31_setFcr31 (s : State) (v : BitVec 32) : (s.setFcr31 v).fcr31 = v := rfl
@[simp] theorem mem_setMem (s : State) (m : List Host.Cell) : (s.setMem m).mem = m := rfl
@[simp] theorem word_setWord (s : State) (w : BusWord) : (s.setWord w).word = w := rfl
@[simp] theorem draws_setDraws (s : State) (k : Nat) : (s.setDraws k).draws = k := rfl
@[simp] theorem runStatus_setRunStatus (s : State) (q : RunStatus) : (s.setRunStatus q).runStatus = q := rfl

/-! ## The fields an update leaves alone -/

@[simp] theorem c0_setX (s : State) (r : RegIdx) (v : Word) (i : RegIdx) : (s.setX r v).c0 i = s.c0 i := rfl
@[simp] theorem f_setX (s : State) (r : RegIdx) (v : Word) (i : RegIdx) : (s.setX r v).f i = s.f i := rfl
@[simp] theorem pc_setX (s : State) (r : RegIdx) (v : Word) : (s.setX r v).pc = s.pc := rfl
@[simp] theorem hi_setX (s : State) (r : RegIdx) (v : Word) : (s.setX r v).hi = s.hi := rfl
@[simp] theorem lo_setX (s : State) (r : RegIdx) (v : Word) : (s.setX r v).lo = s.lo := rfl
@[simp] theorem llbit_setX (s : State) (r : RegIdx) (v : Word) : (s.setX r v).llbit = s.llbit := rfl
@[simp] theorem ds_setX (s : State) (r : RegIdx) (v : Word) : (s.setX r v).ds = s.ds := rfl
@[simp] theorem fcr31_setX (s : State) (r : RegIdx) (v : Word) : (s.setX r v).fcr31 = s.fcr31 := rfl
@[simp] theorem mem_setX (s : State) (r : RegIdx) (v : Word) : (s.setX r v).mem = s.mem := rfl
@[simp] theorem unimplemented_setX (s : State) (r : RegIdx) (v : Word) : (s.setX r v).unimplemented = s.unimplemented := rfl
@[simp] theorem runStatus_setX (s : State) (r : RegIdx) (v : Word) : (s.setX r v).runStatus = s.runStatus := rfl
@[simp] theorem word_setX (s : State) (r : RegIdx) (v : Word) : (s.setX r v).word = s.word := rfl
@[simp] theorem draws_setX (s : State) (r : RegIdx) (v : Word) : (s.setX r v).draws = s.draws := rfl
@[simp] theorem params_setX (s : State) (r : RegIdx) (v : Word) : (s.setX r v).params = s.params := rfl
@[simp] theorem x_setC0 (s : State) (n : RegIdx) (v : Word) (i : RegIdx) : (s.setC0 n v).x i = s.x i := rfl
@[simp] theorem f_setC0 (s : State) (n : RegIdx) (v : Word) (i : RegIdx) : (s.setC0 n v).f i = s.f i := rfl
@[simp] theorem pc_setC0 (s : State) (n : RegIdx) (v : Word) : (s.setC0 n v).pc = s.pc := rfl
@[simp] theorem hi_setC0 (s : State) (n : RegIdx) (v : Word) : (s.setC0 n v).hi = s.hi := rfl
@[simp] theorem lo_setC0 (s : State) (n : RegIdx) (v : Word) : (s.setC0 n v).lo = s.lo := rfl
@[simp] theorem llbit_setC0 (s : State) (n : RegIdx) (v : Word) : (s.setC0 n v).llbit = s.llbit := rfl
@[simp] theorem ds_setC0 (s : State) (n : RegIdx) (v : Word) : (s.setC0 n v).ds = s.ds := rfl
@[simp] theorem fcr31_setC0 (s : State) (n : RegIdx) (v : Word) : (s.setC0 n v).fcr31 = s.fcr31 := rfl
@[simp] theorem mem_setC0 (s : State) (n : RegIdx) (v : Word) : (s.setC0 n v).mem = s.mem := rfl
@[simp] theorem unimplemented_setC0 (s : State) (n : RegIdx) (v : Word) : (s.setC0 n v).unimplemented = s.unimplemented := rfl
@[simp] theorem runStatus_setC0 (s : State) (n : RegIdx) (v : Word) : (s.setC0 n v).runStatus = s.runStatus := rfl
@[simp] theorem word_setC0 (s : State) (n : RegIdx) (v : Word) : (s.setC0 n v).word = s.word := rfl
@[simp] theorem draws_setC0 (s : State) (n : RegIdx) (v : Word) : (s.setC0 n v).draws = s.draws := rfl
@[simp] theorem params_setC0 (s : State) (n : RegIdx) (v : Word) : (s.setC0 n v).params = s.params := rfl
@[simp] theorem x_setF (s : State) (n : RegIdx) (v : Word) (i : RegIdx) : (s.setF n v).x i = s.x i := rfl
@[simp] theorem c0_setF (s : State) (n : RegIdx) (v : Word) (i : RegIdx) : (s.setF n v).c0 i = s.c0 i := rfl
@[simp] theorem pc_setF (s : State) (n : RegIdx) (v : Word) : (s.setF n v).pc = s.pc := rfl
@[simp] theorem hi_setF (s : State) (n : RegIdx) (v : Word) : (s.setF n v).hi = s.hi := rfl
@[simp] theorem lo_setF (s : State) (n : RegIdx) (v : Word) : (s.setF n v).lo = s.lo := rfl
@[simp] theorem llbit_setF (s : State) (n : RegIdx) (v : Word) : (s.setF n v).llbit = s.llbit := rfl
@[simp] theorem ds_setF (s : State) (n : RegIdx) (v : Word) : (s.setF n v).ds = s.ds := rfl
@[simp] theorem fcr31_setF (s : State) (n : RegIdx) (v : Word) : (s.setF n v).fcr31 = s.fcr31 := rfl
@[simp] theorem mem_setF (s : State) (n : RegIdx) (v : Word) : (s.setF n v).mem = s.mem := rfl
@[simp] theorem unimplemented_setF (s : State) (n : RegIdx) (v : Word) : (s.setF n v).unimplemented = s.unimplemented := rfl
@[simp] theorem runStatus_setF (s : State) (n : RegIdx) (v : Word) : (s.setF n v).runStatus = s.runStatus := rfl
@[simp] theorem word_setF (s : State) (n : RegIdx) (v : Word) : (s.setF n v).word = s.word := rfl
@[simp] theorem draws_setF (s : State) (n : RegIdx) (v : Word) : (s.setF n v).draws = s.draws := rfl
@[simp] theorem params_setF (s : State) (n : RegIdx) (v : Word) : (s.setF n v).params = s.params := rfl
@[simp] theorem x_setPc (s : State) (a : Addr) (i : RegIdx) : (s.setPc a).x i = s.x i := rfl
@[simp] theorem c0_setPc (s : State) (a : Addr) (i : RegIdx) : (s.setPc a).c0 i = s.c0 i := rfl
@[simp] theorem f_setPc (s : State) (a : Addr) (i : RegIdx) : (s.setPc a).f i = s.f i := rfl
@[simp] theorem hi_setPc (s : State) (a : Addr) : (s.setPc a).hi = s.hi := rfl
@[simp] theorem lo_setPc (s : State) (a : Addr) : (s.setPc a).lo = s.lo := rfl
@[simp] theorem llbit_setPc (s : State) (a : Addr) : (s.setPc a).llbit = s.llbit := rfl
@[simp] theorem ds_setPc (s : State) (a : Addr) : (s.setPc a).ds = s.ds := rfl
@[simp] theorem fcr31_setPc (s : State) (a : Addr) : (s.setPc a).fcr31 = s.fcr31 := rfl
@[simp] theorem mem_setPc (s : State) (a : Addr) : (s.setPc a).mem = s.mem := rfl
@[simp] theorem unimplemented_setPc (s : State) (a : Addr) : (s.setPc a).unimplemented = s.unimplemented := rfl
@[simp] theorem runStatus_setPc (s : State) (a : Addr) : (s.setPc a).runStatus = s.runStatus := rfl
@[simp] theorem word_setPc (s : State) (a : Addr) : (s.setPc a).word = s.word := rfl
@[simp] theorem draws_setPc (s : State) (a : Addr) : (s.setPc a).draws = s.draws := rfl
@[simp] theorem params_setPc (s : State) (a : Addr) : (s.setPc a).params = s.params := rfl
@[simp] theorem x_setHi (s : State) (v : Word) (i : RegIdx) : (s.setHi v).x i = s.x i := rfl
@[simp] theorem c0_setHi (s : State) (v : Word) (i : RegIdx) : (s.setHi v).c0 i = s.c0 i := rfl
@[simp] theorem f_setHi (s : State) (v : Word) (i : RegIdx) : (s.setHi v).f i = s.f i := rfl
@[simp] theorem pc_setHi (s : State) (v : Word) : (s.setHi v).pc = s.pc := rfl
@[simp] theorem lo_setHi (s : State) (v : Word) : (s.setHi v).lo = s.lo := rfl
@[simp] theorem llbit_setHi (s : State) (v : Word) : (s.setHi v).llbit = s.llbit := rfl
@[simp] theorem ds_setHi (s : State) (v : Word) : (s.setHi v).ds = s.ds := rfl
@[simp] theorem fcr31_setHi (s : State) (v : Word) : (s.setHi v).fcr31 = s.fcr31 := rfl
@[simp] theorem mem_setHi (s : State) (v : Word) : (s.setHi v).mem = s.mem := rfl
@[simp] theorem unimplemented_setHi (s : State) (v : Word) : (s.setHi v).unimplemented = s.unimplemented := rfl
@[simp] theorem runStatus_setHi (s : State) (v : Word) : (s.setHi v).runStatus = s.runStatus := rfl
@[simp] theorem word_setHi (s : State) (v : Word) : (s.setHi v).word = s.word := rfl
@[simp] theorem draws_setHi (s : State) (v : Word) : (s.setHi v).draws = s.draws := rfl
@[simp] theorem params_setHi (s : State) (v : Word) : (s.setHi v).params = s.params := rfl
@[simp] theorem x_setLo (s : State) (v : Word) (i : RegIdx) : (s.setLo v).x i = s.x i := rfl
@[simp] theorem c0_setLo (s : State) (v : Word) (i : RegIdx) : (s.setLo v).c0 i = s.c0 i := rfl
@[simp] theorem f_setLo (s : State) (v : Word) (i : RegIdx) : (s.setLo v).f i = s.f i := rfl
@[simp] theorem pc_setLo (s : State) (v : Word) : (s.setLo v).pc = s.pc := rfl
@[simp] theorem hi_setLo (s : State) (v : Word) : (s.setLo v).hi = s.hi := rfl
@[simp] theorem llbit_setLo (s : State) (v : Word) : (s.setLo v).llbit = s.llbit := rfl
@[simp] theorem ds_setLo (s : State) (v : Word) : (s.setLo v).ds = s.ds := rfl
@[simp] theorem fcr31_setLo (s : State) (v : Word) : (s.setLo v).fcr31 = s.fcr31 := rfl
@[simp] theorem mem_setLo (s : State) (v : Word) : (s.setLo v).mem = s.mem := rfl
@[simp] theorem unimplemented_setLo (s : State) (v : Word) : (s.setLo v).unimplemented = s.unimplemented := rfl
@[simp] theorem runStatus_setLo (s : State) (v : Word) : (s.setLo v).runStatus = s.runStatus := rfl
@[simp] theorem word_setLo (s : State) (v : Word) : (s.setLo v).word = s.word := rfl
@[simp] theorem draws_setLo (s : State) (v : Word) : (s.setLo v).draws = s.draws := rfl
@[simp] theorem params_setLo (s : State) (v : Word) : (s.setLo v).params = s.params := rfl
@[simp] theorem x_setLlbit (s : State) (b : Bool) (i : RegIdx) : (s.setLlbit b).x i = s.x i := rfl
@[simp] theorem c0_setLlbit (s : State) (b : Bool) (i : RegIdx) : (s.setLlbit b).c0 i = s.c0 i := rfl
@[simp] theorem f_setLlbit (s : State) (b : Bool) (i : RegIdx) : (s.setLlbit b).f i = s.f i := rfl
@[simp] theorem pc_setLlbit (s : State) (b : Bool) : (s.setLlbit b).pc = s.pc := rfl
@[simp] theorem hi_setLlbit (s : State) (b : Bool) : (s.setLlbit b).hi = s.hi := rfl
@[simp] theorem lo_setLlbit (s : State) (b : Bool) : (s.setLlbit b).lo = s.lo := rfl
@[simp] theorem ds_setLlbit (s : State) (b : Bool) : (s.setLlbit b).ds = s.ds := rfl
@[simp] theorem fcr31_setLlbit (s : State) (b : Bool) : (s.setLlbit b).fcr31 = s.fcr31 := rfl
@[simp] theorem mem_setLlbit (s : State) (b : Bool) : (s.setLlbit b).mem = s.mem := rfl
@[simp] theorem unimplemented_setLlbit (s : State) (b : Bool) : (s.setLlbit b).unimplemented = s.unimplemented := rfl
@[simp] theorem runStatus_setLlbit (s : State) (b : Bool) : (s.setLlbit b).runStatus = s.runStatus := rfl
@[simp] theorem word_setLlbit (s : State) (b : Bool) : (s.setLlbit b).word = s.word := rfl
@[simp] theorem draws_setLlbit (s : State) (b : Bool) : (s.setLlbit b).draws = s.draws := rfl
@[simp] theorem params_setLlbit (s : State) (b : Bool) : (s.setLlbit b).params = s.params := rfl
@[simp] theorem x_setDs (s : State) (d : Option Addr) (i : RegIdx) : (s.setDs d).x i = s.x i := rfl
@[simp] theorem c0_setDs (s : State) (d : Option Addr) (i : RegIdx) : (s.setDs d).c0 i = s.c0 i := rfl
@[simp] theorem f_setDs (s : State) (d : Option Addr) (i : RegIdx) : (s.setDs d).f i = s.f i := rfl
@[simp] theorem pc_setDs (s : State) (d : Option Addr) : (s.setDs d).pc = s.pc := rfl
@[simp] theorem hi_setDs (s : State) (d : Option Addr) : (s.setDs d).hi = s.hi := rfl
@[simp] theorem lo_setDs (s : State) (d : Option Addr) : (s.setDs d).lo = s.lo := rfl
@[simp] theorem llbit_setDs (s : State) (d : Option Addr) : (s.setDs d).llbit = s.llbit := rfl
@[simp] theorem fcr31_setDs (s : State) (d : Option Addr) : (s.setDs d).fcr31 = s.fcr31 := rfl
@[simp] theorem mem_setDs (s : State) (d : Option Addr) : (s.setDs d).mem = s.mem := rfl
@[simp] theorem unimplemented_setDs (s : State) (d : Option Addr) : (s.setDs d).unimplemented = s.unimplemented := rfl
@[simp] theorem runStatus_setDs (s : State) (d : Option Addr) : (s.setDs d).runStatus = s.runStatus := rfl
@[simp] theorem word_setDs (s : State) (d : Option Addr) : (s.setDs d).word = s.word := rfl
@[simp] theorem draws_setDs (s : State) (d : Option Addr) : (s.setDs d).draws = s.draws := rfl
@[simp] theorem params_setDs (s : State) (d : Option Addr) : (s.setDs d).params = s.params := rfl
@[simp] theorem x_setFcr31 (s : State) (v : BitVec 32) (i : RegIdx) : (s.setFcr31 v).x i = s.x i := rfl
@[simp] theorem c0_setFcr31 (s : State) (v : BitVec 32) (i : RegIdx) : (s.setFcr31 v).c0 i = s.c0 i := rfl
@[simp] theorem f_setFcr31 (s : State) (v : BitVec 32) (i : RegIdx) : (s.setFcr31 v).f i = s.f i := rfl
@[simp] theorem pc_setFcr31 (s : State) (v : BitVec 32) : (s.setFcr31 v).pc = s.pc := rfl
@[simp] theorem hi_setFcr31 (s : State) (v : BitVec 32) : (s.setFcr31 v).hi = s.hi := rfl
@[simp] theorem lo_setFcr31 (s : State) (v : BitVec 32) : (s.setFcr31 v).lo = s.lo := rfl
@[simp] theorem llbit_setFcr31 (s : State) (v : BitVec 32) : (s.setFcr31 v).llbit = s.llbit := rfl
@[simp] theorem ds_setFcr31 (s : State) (v : BitVec 32) : (s.setFcr31 v).ds = s.ds := rfl
@[simp] theorem mem_setFcr31 (s : State) (v : BitVec 32) : (s.setFcr31 v).mem = s.mem := rfl
@[simp] theorem unimplemented_setFcr31 (s : State) (v : BitVec 32) : (s.setFcr31 v).unimplemented = s.unimplemented := rfl
@[simp] theorem runStatus_setFcr31 (s : State) (v : BitVec 32) : (s.setFcr31 v).runStatus = s.runStatus := rfl
@[simp] theorem word_setFcr31 (s : State) (v : BitVec 32) : (s.setFcr31 v).word = s.word := rfl
@[simp] theorem draws_setFcr31 (s : State) (v : BitVec 32) : (s.setFcr31 v).draws = s.draws := rfl
@[simp] theorem params_setFcr31 (s : State) (v : BitVec 32) : (s.setFcr31 v).params = s.params := rfl
@[simp] theorem x_setMem (s : State) (m : List Host.Cell) (i : RegIdx) : (s.setMem m).x i = s.x i := rfl
@[simp] theorem c0_setMem (s : State) (m : List Host.Cell) (i : RegIdx) : (s.setMem m).c0 i = s.c0 i := rfl
@[simp] theorem f_setMem (s : State) (m : List Host.Cell) (i : RegIdx) : (s.setMem m).f i = s.f i := rfl
@[simp] theorem pc_setMem (s : State) (m : List Host.Cell) : (s.setMem m).pc = s.pc := rfl
@[simp] theorem hi_setMem (s : State) (m : List Host.Cell) : (s.setMem m).hi = s.hi := rfl
@[simp] theorem lo_setMem (s : State) (m : List Host.Cell) : (s.setMem m).lo = s.lo := rfl
@[simp] theorem llbit_setMem (s : State) (m : List Host.Cell) : (s.setMem m).llbit = s.llbit := rfl
@[simp] theorem ds_setMem (s : State) (m : List Host.Cell) : (s.setMem m).ds = s.ds := rfl
@[simp] theorem fcr31_setMem (s : State) (m : List Host.Cell) : (s.setMem m).fcr31 = s.fcr31 := rfl
@[simp] theorem unimplemented_setMem (s : State) (m : List Host.Cell) : (s.setMem m).unimplemented = s.unimplemented := rfl
@[simp] theorem runStatus_setMem (s : State) (m : List Host.Cell) : (s.setMem m).runStatus = s.runStatus := rfl
@[simp] theorem word_setMem (s : State) (m : List Host.Cell) : (s.setMem m).word = s.word := rfl
@[simp] theorem draws_setMem (s : State) (m : List Host.Cell) : (s.setMem m).draws = s.draws := rfl
@[simp] theorem params_setMem (s : State) (m : List Host.Cell) : (s.setMem m).params = s.params := rfl
@[simp] theorem x_setWord (s : State) (w : BusWord) (i : RegIdx) : (s.setWord w).x i = s.x i := rfl
@[simp] theorem c0_setWord (s : State) (w : BusWord) (i : RegIdx) : (s.setWord w).c0 i = s.c0 i := rfl
@[simp] theorem f_setWord (s : State) (w : BusWord) (i : RegIdx) : (s.setWord w).f i = s.f i := rfl
@[simp] theorem pc_setWord (s : State) (w : BusWord) : (s.setWord w).pc = s.pc := rfl
@[simp] theorem hi_setWord (s : State) (w : BusWord) : (s.setWord w).hi = s.hi := rfl
@[simp] theorem lo_setWord (s : State) (w : BusWord) : (s.setWord w).lo = s.lo := rfl
@[simp] theorem llbit_setWord (s : State) (w : BusWord) : (s.setWord w).llbit = s.llbit := rfl
@[simp] theorem ds_setWord (s : State) (w : BusWord) : (s.setWord w).ds = s.ds := rfl
@[simp] theorem fcr31_setWord (s : State) (w : BusWord) : (s.setWord w).fcr31 = s.fcr31 := rfl
@[simp] theorem mem_setWord (s : State) (w : BusWord) : (s.setWord w).mem = s.mem := rfl
@[simp] theorem unimplemented_setWord (s : State) (w : BusWord) : (s.setWord w).unimplemented = s.unimplemented := rfl
@[simp] theorem runStatus_setWord (s : State) (w : BusWord) : (s.setWord w).runStatus = s.runStatus := rfl
@[simp] theorem draws_setWord (s : State) (w : BusWord) : (s.setWord w).draws = s.draws := rfl
@[simp] theorem params_setWord (s : State) (w : BusWord) : (s.setWord w).params = s.params := rfl
@[simp] theorem x_setDraws (s : State) (k : Nat) (i : RegIdx) : (s.setDraws k).x i = s.x i := rfl
@[simp] theorem c0_setDraws (s : State) (k : Nat) (i : RegIdx) : (s.setDraws k).c0 i = s.c0 i := rfl
@[simp] theorem f_setDraws (s : State) (k : Nat) (i : RegIdx) : (s.setDraws k).f i = s.f i := rfl
@[simp] theorem pc_setDraws (s : State) (k : Nat) : (s.setDraws k).pc = s.pc := rfl
@[simp] theorem hi_setDraws (s : State) (k : Nat) : (s.setDraws k).hi = s.hi := rfl
@[simp] theorem lo_setDraws (s : State) (k : Nat) : (s.setDraws k).lo = s.lo := rfl
@[simp] theorem llbit_setDraws (s : State) (k : Nat) : (s.setDraws k).llbit = s.llbit := rfl
@[simp] theorem ds_setDraws (s : State) (k : Nat) : (s.setDraws k).ds = s.ds := rfl
@[simp] theorem fcr31_setDraws (s : State) (k : Nat) : (s.setDraws k).fcr31 = s.fcr31 := rfl
@[simp] theorem mem_setDraws (s : State) (k : Nat) : (s.setDraws k).mem = s.mem := rfl
@[simp] theorem unimplemented_setDraws (s : State) (k : Nat) : (s.setDraws k).unimplemented = s.unimplemented := rfl
@[simp] theorem runStatus_setDraws (s : State) (k : Nat) : (s.setDraws k).runStatus = s.runStatus := rfl
@[simp] theorem word_setDraws (s : State) (k : Nat) : (s.setDraws k).word = s.word := rfl
@[simp] theorem params_setDraws (s : State) (k : Nat) : (s.setDraws k).params = s.params := rfl
@[simp] theorem x_setRunStatus (s : State) (q : RunStatus) (i : RegIdx) : (s.setRunStatus q).x i = s.x i := rfl
@[simp] theorem c0_setRunStatus (s : State) (q : RunStatus) (i : RegIdx) : (s.setRunStatus q).c0 i = s.c0 i := rfl
@[simp] theorem f_setRunStatus (s : State) (q : RunStatus) (i : RegIdx) : (s.setRunStatus q).f i = s.f i := rfl
@[simp] theorem pc_setRunStatus (s : State) (q : RunStatus) : (s.setRunStatus q).pc = s.pc := rfl
@[simp] theorem hi_setRunStatus (s : State) (q : RunStatus) : (s.setRunStatus q).hi = s.hi := rfl
@[simp] theorem lo_setRunStatus (s : State) (q : RunStatus) : (s.setRunStatus q).lo = s.lo := rfl
@[simp] theorem llbit_setRunStatus (s : State) (q : RunStatus) : (s.setRunStatus q).llbit = s.llbit := rfl
@[simp] theorem ds_setRunStatus (s : State) (q : RunStatus) : (s.setRunStatus q).ds = s.ds := rfl
@[simp] theorem fcr31_setRunStatus (s : State) (q : RunStatus) : (s.setRunStatus q).fcr31 = s.fcr31 := rfl
@[simp] theorem mem_setRunStatus (s : State) (q : RunStatus) : (s.setRunStatus q).mem = s.mem := rfl
@[simp] theorem unimplemented_setRunStatus (s : State) (q : RunStatus) : (s.setRunStatus q).unimplemented = s.unimplemented := rfl
@[simp] theorem word_setRunStatus (s : State) (q : RunStatus) : (s.setRunStatus q).word = s.word := rfl
@[simp] theorem draws_setRunStatus (s : State) (q : RunStatus) : (s.setRunStatus q).draws = s.draws := rfl
@[simp] theorem params_setRunStatus (s : State) (q : RunStatus) : (s.setRunStatus q).params = s.params := rfl

/-! ## Derived views an update leaves alone -/

@[simp] theorem status_setX (s : State) (r : RegIdx) (v : Word) : (s.setX r v).status = s.status := rfl
@[simp] theorem cause_setX (s : State) (r : RegIdx) (v : Word) : (s.setX r v).cause = s.cause := rfl
@[simp] theorem config_setX (s : State) (r : RegIdx) (v : Word) : (s.setX r v).config = s.config := rfl
@[simp] theorem be_setX (s : State) (r : RegIdx) (v : Word) : (s.setX r v).be = s.be := rfl
@[simp] theorem inDS_setX (s : State) (r : RegIdx) (v : Word) : (s.setX r v).inDS = s.inDS := rfl
@[simp] theorem cur_setX (s : State) (r : RegIdx) (v : Word) : (s.setX r v).cur = s.cur := rfl
@[simp] theorem fcr0_setX (s : State) (r : RegIdx) (v : Word) : (s.setX r v).fcr0 = s.fcr0 := rfl
@[simp] theorem inDS_setC0 (s : State) (n : RegIdx) (v : Word) : (s.setC0 n v).inDS = s.inDS := rfl
@[simp] theorem cur_setC0 (s : State) (n : RegIdx) (v : Word) : (s.setC0 n v).cur = s.cur := rfl
@[simp] theorem fcr0_setC0 (s : State) (n : RegIdx) (v : Word) : (s.setC0 n v).fcr0 = s.fcr0 := rfl
@[simp] theorem status_setF (s : State) (n : RegIdx) (v : Word) : (s.setF n v).status = s.status := rfl
@[simp] theorem cause_setF (s : State) (n : RegIdx) (v : Word) : (s.setF n v).cause = s.cause := rfl
@[simp] theorem config_setF (s : State) (n : RegIdx) (v : Word) : (s.setF n v).config = s.config := rfl
@[simp] theorem be_setF (s : State) (n : RegIdx) (v : Word) : (s.setF n v).be = s.be := rfl
@[simp] theorem inDS_setF (s : State) (n : RegIdx) (v : Word) : (s.setF n v).inDS = s.inDS := rfl
@[simp] theorem cur_setF (s : State) (n : RegIdx) (v : Word) : (s.setF n v).cur = s.cur := rfl
@[simp] theorem fcr0_setF (s : State) (n : RegIdx) (v : Word) : (s.setF n v).fcr0 = s.fcr0 := rfl
@[simp] theorem status_setPc (s : State) (a : Addr) : (s.setPc a).status = s.status := rfl
@[simp] theorem cause_setPc (s : State) (a : Addr) : (s.setPc a).cause = s.cause := rfl
@[simp] theorem config_setPc (s : State) (a : Addr) : (s.setPc a).config = s.config := rfl
@[simp] theorem be_setPc (s : State) (a : Addr) : (s.setPc a).be = s.be := rfl
@[simp] theorem inDS_setPc (s : State) (a : Addr) : (s.setPc a).inDS = s.inDS := rfl
@[simp] theorem fcr0_setPc (s : State) (a : Addr) : (s.setPc a).fcr0 = s.fcr0 := rfl
@[simp] theorem status_setHi (s : State) (v : Word) : (s.setHi v).status = s.status := rfl
@[simp] theorem cause_setHi (s : State) (v : Word) : (s.setHi v).cause = s.cause := rfl
@[simp] theorem config_setHi (s : State) (v : Word) : (s.setHi v).config = s.config := rfl
@[simp] theorem be_setHi (s : State) (v : Word) : (s.setHi v).be = s.be := rfl
@[simp] theorem inDS_setHi (s : State) (v : Word) : (s.setHi v).inDS = s.inDS := rfl
@[simp] theorem cur_setHi (s : State) (v : Word) : (s.setHi v).cur = s.cur := rfl
@[simp] theorem fcr0_setHi (s : State) (v : Word) : (s.setHi v).fcr0 = s.fcr0 := rfl
@[simp] theorem status_setLo (s : State) (v : Word) : (s.setLo v).status = s.status := rfl
@[simp] theorem cause_setLo (s : State) (v : Word) : (s.setLo v).cause = s.cause := rfl
@[simp] theorem config_setLo (s : State) (v : Word) : (s.setLo v).config = s.config := rfl
@[simp] theorem be_setLo (s : State) (v : Word) : (s.setLo v).be = s.be := rfl
@[simp] theorem inDS_setLo (s : State) (v : Word) : (s.setLo v).inDS = s.inDS := rfl
@[simp] theorem cur_setLo (s : State) (v : Word) : (s.setLo v).cur = s.cur := rfl
@[simp] theorem fcr0_setLo (s : State) (v : Word) : (s.setLo v).fcr0 = s.fcr0 := rfl
@[simp] theorem status_setLlbit (s : State) (b : Bool) : (s.setLlbit b).status = s.status := rfl
@[simp] theorem cause_setLlbit (s : State) (b : Bool) : (s.setLlbit b).cause = s.cause := rfl
@[simp] theorem config_setLlbit (s : State) (b : Bool) : (s.setLlbit b).config = s.config := rfl
@[simp] theorem be_setLlbit (s : State) (b : Bool) : (s.setLlbit b).be = s.be := rfl
@[simp] theorem inDS_setLlbit (s : State) (b : Bool) : (s.setLlbit b).inDS = s.inDS := rfl
@[simp] theorem cur_setLlbit (s : State) (b : Bool) : (s.setLlbit b).cur = s.cur := rfl
@[simp] theorem fcr0_setLlbit (s : State) (b : Bool) : (s.setLlbit b).fcr0 = s.fcr0 := rfl
@[simp] theorem status_setDs (s : State) (d : Option Addr) : (s.setDs d).status = s.status := rfl
@[simp] theorem cause_setDs (s : State) (d : Option Addr) : (s.setDs d).cause = s.cause := rfl
@[simp] theorem config_setDs (s : State) (d : Option Addr) : (s.setDs d).config = s.config := rfl
@[simp] theorem be_setDs (s : State) (d : Option Addr) : (s.setDs d).be = s.be := rfl
@[simp] theorem fcr0_setDs (s : State) (d : Option Addr) : (s.setDs d).fcr0 = s.fcr0 := rfl
@[simp] theorem status_setFcr31 (s : State) (v : BitVec 32) : (s.setFcr31 v).status = s.status := rfl
@[simp] theorem cause_setFcr31 (s : State) (v : BitVec 32) : (s.setFcr31 v).cause = s.cause := rfl
@[simp] theorem config_setFcr31 (s : State) (v : BitVec 32) : (s.setFcr31 v).config = s.config := rfl
@[simp] theorem be_setFcr31 (s : State) (v : BitVec 32) : (s.setFcr31 v).be = s.be := rfl
@[simp] theorem inDS_setFcr31 (s : State) (v : BitVec 32) : (s.setFcr31 v).inDS = s.inDS := rfl
@[simp] theorem cur_setFcr31 (s : State) (v : BitVec 32) : (s.setFcr31 v).cur = s.cur := rfl
@[simp] theorem fcr0_setFcr31 (s : State) (v : BitVec 32) : (s.setFcr31 v).fcr0 = s.fcr0 := rfl
@[simp] theorem status_setMem (s : State) (m : List Host.Cell) : (s.setMem m).status = s.status := rfl
@[simp] theorem cause_setMem (s : State) (m : List Host.Cell) : (s.setMem m).cause = s.cause := rfl
@[simp] theorem config_setMem (s : State) (m : List Host.Cell) : (s.setMem m).config = s.config := rfl
@[simp] theorem be_setMem (s : State) (m : List Host.Cell) : (s.setMem m).be = s.be := rfl
@[simp] theorem inDS_setMem (s : State) (m : List Host.Cell) : (s.setMem m).inDS = s.inDS := rfl
@[simp] theorem cur_setMem (s : State) (m : List Host.Cell) : (s.setMem m).cur = s.cur := rfl
@[simp] theorem fcr0_setMem (s : State) (m : List Host.Cell) : (s.setMem m).fcr0 = s.fcr0 := rfl
@[simp] theorem status_setWord (s : State) (w : BusWord) : (s.setWord w).status = s.status := rfl
@[simp] theorem cause_setWord (s : State) (w : BusWord) : (s.setWord w).cause = s.cause := rfl
@[simp] theorem config_setWord (s : State) (w : BusWord) : (s.setWord w).config = s.config := rfl
@[simp] theorem be_setWord (s : State) (w : BusWord) : (s.setWord w).be = s.be := rfl
@[simp] theorem inDS_setWord (s : State) (w : BusWord) : (s.setWord w).inDS = s.inDS := rfl
@[simp] theorem cur_setWord (s : State) (w : BusWord) : (s.setWord w).cur = s.cur := rfl
@[simp] theorem fcr0_setWord (s : State) (w : BusWord) : (s.setWord w).fcr0 = s.fcr0 := rfl
@[simp] theorem status_setDraws (s : State) (k : Nat) : (s.setDraws k).status = s.status := rfl
@[simp] theorem cause_setDraws (s : State) (k : Nat) : (s.setDraws k).cause = s.cause := rfl
@[simp] theorem config_setDraws (s : State) (k : Nat) : (s.setDraws k).config = s.config := rfl
@[simp] theorem be_setDraws (s : State) (k : Nat) : (s.setDraws k).be = s.be := rfl
@[simp] theorem inDS_setDraws (s : State) (k : Nat) : (s.setDraws k).inDS = s.inDS := rfl
@[simp] theorem cur_setDraws (s : State) (k : Nat) : (s.setDraws k).cur = s.cur := rfl
@[simp] theorem fcr0_setDraws (s : State) (k : Nat) : (s.setDraws k).fcr0 = s.fcr0 := rfl
@[simp] theorem status_setRunStatus (s : State) (q : RunStatus) : (s.setRunStatus q).status = s.status := rfl
@[simp] theorem cause_setRunStatus (s : State) (q : RunStatus) : (s.setRunStatus q).cause = s.cause := rfl
@[simp] theorem config_setRunStatus (s : State) (q : RunStatus) : (s.setRunStatus q).config = s.config := rfl
@[simp] theorem be_setRunStatus (s : State) (q : RunStatus) : (s.setRunStatus q).be = s.be := rfl
@[simp] theorem inDS_setRunStatus (s : State) (q : RunStatus) : (s.setRunStatus q).inDS = s.inDS := rfl
@[simp] theorem cur_setRunStatus (s : State) (q : RunStatus) : (s.setRunStatus q).cur = s.cur := rfl
@[simp] theorem fcr0_setRunStatus (s : State) (q : RunStatus) : (s.setRunStatus q).fcr0 = s.fcr0 := rfl

/-! ## Signals -/

theorem mem_unimplemented_signal (s : State) (a : Addr) (w : BusWord) (p : Addr × BusWord) :
    p ∈ (s.signal a w).unimplemented ↔ p ∈ s.unimplemented ∨ p = (a, w) := by
  unfold signal
  split
  · constructor
    · exact .inl
    · rintro (h | rfl) <;> assumption
  · simp

theorem nodup_signal (s : State) (a : Addr) (w : BusWord) (h : s.unimplemented.Nodup) :
    (s.signal a w).unimplemented.Nodup := by
  unfold signal
  split
  · exact h
  · next hn =>
    refine List.nodup_append.2 ⟨h, by simp, ?_⟩
    rintro p hp q hq rfl
    exact hn (by simpa using List.mem_singleton.1 hq ▸ hp)

@[simp] theorem x_signal (s : State) (a : Addr) (w : BusWord) (i : RegIdx) : (s.signal a w).x i = s.x i := by
  unfold signal; split <;> rfl
@[simp] theorem c0_signal (s : State) (a : Addr) (w : BusWord) (i : RegIdx) : (s.signal a w).c0 i = s.c0 i := by
  unfold signal; split <;> rfl
@[simp] theorem f_signal (s : State) (a : Addr) (w : BusWord) (i : RegIdx) : (s.signal a w).f i = s.f i := by
  unfold signal; split <;> rfl
@[simp] theorem pc_signal (s : State) (a : Addr) (w : BusWord) : (s.signal a w).pc = s.pc := by
  unfold signal; split <;> rfl
@[simp] theorem hi_signal (s : State) (a : Addr) (w : BusWord) : (s.signal a w).hi = s.hi := by
  unfold signal; split <;> rfl
@[simp] theorem lo_signal (s : State) (a : Addr) (w : BusWord) : (s.signal a w).lo = s.lo := by
  unfold signal; split <;> rfl
@[simp] theorem llbit_signal (s : State) (a : Addr) (w : BusWord) : (s.signal a w).llbit = s.llbit := by
  unfold signal; split <;> rfl
@[simp] theorem ds_signal (s : State) (a : Addr) (w : BusWord) : (s.signal a w).ds = s.ds := by
  unfold signal; split <;> rfl
@[simp] theorem fcr31_signal (s : State) (a : Addr) (w : BusWord) : (s.signal a w).fcr31 = s.fcr31 := by
  unfold signal; split <;> rfl
@[simp] theorem mem_signal (s : State) (a : Addr) (w : BusWord) : (s.signal a w).mem = s.mem := by
  unfold signal; split <;> rfl
@[simp] theorem runStatus_signal (s : State) (a : Addr) (w : BusWord) : (s.signal a w).runStatus = s.runStatus := by
  unfold signal; split <;> rfl
@[simp] theorem word_signal (s : State) (a : Addr) (w : BusWord) : (s.signal a w).word = s.word := by
  unfold signal; split <;> rfl
@[simp] theorem draws_signal (s : State) (a : Addr) (w : BusWord) : (s.signal a w).draws = s.draws := by
  unfold signal; split <;> rfl
@[simp] theorem params_signal (s : State) (a : Addr) (w : BusWord) : (s.signal a w).params = s.params := by
  unfold signal; split <;> rfl

/-! ## FCR0 -/

/-- The bits of FCR0: Rev, then Imp, then zeros (spec/10_state.md R141). -/
theorem getLsbD_fcr0 (s : State) (k : Nat) : s.fcr0.getLsbD k =
    (k < 16 && if k < 8 then s.params.fcr0Value.rev.getLsbD k
      else s.params.fcr0Value.imp.getLsbD (k - 8)) := by
  unfold State.fcr0
  rw [BitVec.getLsbD_append, BitVec.getLsbD_append, BitVec.getLsbD_zero]
  by_cases h8 : k < 8
  · simp [h8, show k < 16 by omega]
  · by_cases h16 : k < 16
    · simp [h8, h16, show k - 8 < 8 by omega]
    · have hi : s.params.fcr0Value.imp.getLsbD (k - 8) = false := BitVec.getLsbD_of_ge _ _ (by omega)
      simp [h8, h16, hi]

/-! ## Extensionality -/

/-- Two states that agree on every register read and every other field are equal. -/
theorem ext_reads {s t : State} (hx : ∀ r, s.x r = t.x r) (hc : ∀ n, s.c0 n = t.c0 n)
    (hf : ∀ n, s.f n = t.f n) (hpc : s.pc = t.pc) (hhi : s.hi = t.hi) (hlo : s.lo = t.lo)
    (hll : s.llbit = t.llbit) (hds : s.ds = t.ds) (hfc : s.fcr31 = t.fcr31) (hm : s.mem = t.mem)
    (hu : s.unimplemented = t.unimplemented) (hr : s.runStatus = t.runStatus) (hw : s.word = t.word)
    (hd : s.draws = t.draws) (hp : s.params = t.params) : s = t := by
  have vec : ∀ (a b : Vector Word 32), (∀ r : RegIdx, a[r.toNat]'r.isLt = b[r.toNat]'r.isLt) → a = b := by
    intro a b h
    apply Vector.ext
    intro i hi
    have := h (BitVec.ofNat 5 i)
    simpa [Nat.mod_eq_of_lt (show i < 32 from hi)] using this
  cases s
  cases t
  simp only [State.mk.injEq]
  exact ⟨vec _ _ hx, hpc, hhi, hlo, hll, hds, vec _ _ hc, vec _ _ hf, hfc, hm, hu, hr, hw, hd, hp⟩

end Sys2Proof.Machine.State
end

