-- ==== Sys2Proof/Laws/Ops.lean ====
section
/-! SUPPORT. What each shared operation can do, said once: bits of the views it writes, exception entry,
the gates, and the counter. -/

namespace Sys2Proof.Machine

open State

/-! ## Outcomes -/

@[simp] theorem andThen_next {α β : Type} (a : α) (k : α → Access β) : andThen (.next a) k = k a := rfl
@[simp] theorem andThen_fault {α β : Type} (r : Fault) (k : α → Access β) :
    andThen (.fault r) k = .fault r := rfl
@[simp] theorem andThen_refused {α β : Type} (r : Refusal) (k : α → Access β) :
    andThen (.refused r) k = .refused r := rfl

/-- A sequence that answers ran both parts. -/
theorem andThen_eq_next {α β : Type} {o : Access α} {k : α → Access β} {b : β} :
    andThen o k = .next b ↔ ∃ a, o = .next a ∧ k a = .next b := by
  cases o <;> simp

/-! ## View bits -/

theorem getLsbD_setFlag (v : Word) (lo : Nat) (b : Bool) (h : lo < 64) (k : Nat) :
    (setFlag v lo b).getLsbD k = if k = lo then b else v.getLsbD k := by
  split
  · next h1 => rw [h1, getLsbD_setFlag_self _ _ _ h]
  · next h1 => exact getLsbD_setFlag_ne _ _ _ _ h1

theorem getLsbD_setField' (v : Word) (lo : Nat) {n : Nat} (x : BitVec n) (h : lo + n ≤ 64) (k : Nat) :
    (setField v lo x).getLsbD k = if lo ≤ k ∧ k < lo + n then x.getLsbD (k - lo) else v.getLsbD k := by
  by_cases hk : k < 64
  · exact getLsbD_setField _ _ _ _ hk
  · rw [if_neg (by omega), BitVec.getLsbD_of_ge _ _ (by omega), BitVec.getLsbD_of_ge _ _ (by omega)]

theorem getLsbD_setExl (v : Word) (b : Bool) (k : Nat) :
    (StatusReg.setExl v b).getLsbD k = if k = 1 then b else v.getLsbD k :=
  getLsbD_setFlag v 1 b (by decide) k

theorem getLsbD_setErl (v : Word) (b : Bool) (k : Nat) :
    (StatusReg.setErl v b).getLsbD k = if k = 2 then b else v.getLsbD k :=
  getLsbD_setFlag v 2 b (by decide) k

theorem getLsbD_setExcCode (c : Word) (x : BitVec 5) (k : Nat) :
    (CauseReg.setExcCode c x).getLsbD k = if 2 ≤ k ∧ k < 7 then x.getLsbD (k - 2) else c.getLsbD k :=
  getLsbD_setField' c 2 x (by decide) k

theorem getLsbD_setCe (c : Word) (x : BitVec 2) (k : Nat) :
    (CauseReg.setCe c x).getLsbD k = if 28 ≤ k ∧ k < 30 then x.getLsbD (k - 28) else c.getLsbD k :=
  getLsbD_setField' c 28 x (by decide) k

theorem getLsbD_setBd (c : Word) (b : Bool) (k : Nat) :
    (CauseReg.setBd c b).getLsbD k = if k = 31 then b else c.getLsbD k :=
  getLsbD_setFlag c 31 b (by decide) k

theorem getLsbD_setIpTimer (c : Word) (b : Bool) (k : Nat) :
    (CauseReg.setIpTimer c b).getLsbD k = if k = 15 then b else c.getLsbD k :=
  getLsbD_setFlag c 15 b (by decide) k

/-- The bits a move to Cause leaves, R1012. -/
theorem getLsbD_setIpSoftware (c v : Word) (k : Nat) :
    (CauseReg.setIpSoftware c (CauseReg.ipSoftware v)).getLsbD k =
      if k = 8 ∨ k = 9 then v.getLsbD k else c.getLsbD k := by
  rw [CauseReg.setIpSoftware, getLsbD_setField' _ _ _ (by decide), CauseReg.ipSoftware, getField,
    BitVec.getLsbD_extractLsb']
  grind

/-! ## Exception entry, R1220 -/

/-- Every bit of Cause after an entry. -/
theorem getLsbD_causeOnEntry (c : Word) (e : ExcCode) (exl bd : Bool) (k : Nat) :
    (causeOnEntry c e exl bd).getLsbD k =
      if 2 ≤ k ∧ k < 7 then (excNumber e).getLsbD (k - 2)
      else if 28 ≤ k ∧ k < 30 then
        match e with
        | .cpu z => z.getLsbD (k - 28)
        | _ => c.getLsbD k
      else if k = 31 ∧ exl = false then bd
      else c.getLsbD k := by
  cases e <;> cases exl <;> simp only [causeOnEntry, Bool.false_eq_true, if_false, if_true,
    getLsbD_setExcCode, getLsbD_setBd, getLsbD_setCe] <;> grind

theorem excCode_causeOnEntry (c : Word) (e : ExcCode) (exl bd : Bool) :
    CauseReg.excCode (causeOnEntry c e exl bd) = excNumber e := by
  apply BitVec.eq_of_getLsbD_eq
  intro k hk
  rw [CauseReg.excCode, getField, BitVec.getLsbD_extractLsb', getLsbD_causeOnEntry]
  simp [hk, show 2 + k < 7 by omega]

theorem bd_causeOnEntry (c : Word) (e : ExcCode) (bd : Bool) :
    CauseReg.bd (causeOnEntry c e false bd) = bd := by
  rw [CauseReg.bd, getLsbD_causeOnEntry]; simp

theorem ip_causeOnEntry (c : Word) (e : ExcCode) (exl bd : Bool) :
    CauseReg.ip (causeOnEntry c e exl bd) = CauseReg.ip c := by
  apply BitVec.eq_of_getLsbD_eq
  intro k hk
  simp only [CauseReg.ip, getField, BitVec.getLsbD_extractLsb', getLsbD_causeOnEntry]
  rw [if_neg (by omega), if_neg (by omega), if_neg (by omega)]

theorem ce_causeOnEntry_cpu (c : Word) (z : BitVec 2) (exl bd : Bool) :
    CauseReg.ce (causeOnEntry c (.cpu z) exl bd) = z := by
  apply BitVec.eq_of_getLsbD_eq
  intro k hk
  simp only [CauseReg.ce, getField, BitVec.getLsbD_extractLsb', getLsbD_causeOnEntry]
  rw [if_neg (by omega), if_pos (by omega)]
  simp [hk]

/-- Every CP0 register after an entry. -/
theorem c0_enterException (e : ExcCode) (fpc : Addr) (bd : Bool) (s : State) (n : RegIdx) :
    (enterException e fpc bd s).c0 n =
      if n = 8 then fpc
      else if n = 12 then StatusReg.setExl s.status true
      else if n = 13 then causeOnEntry s.cause e (StatusReg.exl s.status) bd
      else if n = 14 then
        if StatusReg.exl s.status then s.c0 14 else if bd then fpc - 4 else fpc
      else s.c0 n := by
  unfold enterException
  cases StatusReg.exl s.status <;> simp [c0_setC0, State.status, State.cause] <;> grind

theorem status_enterException (e : ExcCode) (fpc : Addr) (bd : Bool) (s : State) :
    (enterException e fpc bd s).status = StatusReg.setExl s.status true := by
  unfold State.status; rw [c0_enterException]; rfl

theorem cause_enterException (e : ExcCode) (fpc : Addr) (bd : Bool) (s : State) :
    (enterException e fpc bd s).cause = causeOnEntry s.cause e (StatusReg.exl s.status) bd := by
  unfold State.cause; rw [c0_enterException]; rfl

theorem pc_enterException (e : ExcCode) (fpc : Addr) (bd : Bool) (s : State) :
    (enterException e fpc bd s).pc =
      if s.status.getLsbD 22 then 0xFFFFFFFFBFC00380 else 0xFFFFFFFF80000180 := by
  show generalVector s = _
  unfold generalVector StatusReg.bev
  split <;> rfl

/-! The fields an entry leaves alone, but for the marker, which it clears. -/

@[simp] theorem ds_enterException (e : ExcCode) (fpc : Addr) (bd : Bool) (s : State) :
    (enterException e fpc bd s).ds = none := rfl
@[simp] theorem x_enterException (e : ExcCode) (fpc : Addr) (bd : Bool) (s : State) (r : RegIdx) :
    (enterException e fpc bd s).x r = s.x r := by
  unfold enterException; cases StatusReg.exl s.status <;> rfl
@[simp] theorem f_enterException (e : ExcCode) (fpc : Addr) (bd : Bool) (s : State) (n : RegIdx) :
    (enterException e fpc bd s).f n = s.f n := by
  unfold enterException; cases StatusReg.exl s.status <;> rfl
@[simp] theorem hi_enterException (e : ExcCode) (fpc : Addr) (bd : Bool) (s : State) :
    (enterException e fpc bd s).hi = s.hi := by
  unfold enterException; cases StatusReg.exl s.status <;> rfl
@[simp] theorem lo_enterException (e : ExcCode) (fpc : Addr) (bd : Bool) (s : State) :
    (enterException e fpc bd s).lo = s.lo := by
  unfold enterException; cases StatusReg.exl s.status <;> rfl
@[simp] theorem llbit_enterException (e : ExcCode) (fpc : Addr) (bd : Bool) (s : State) :
    (enterException e fpc bd s).llbit = s.llbit := by
  unfold enterException; cases StatusReg.exl s.status <;> rfl
@[simp] theorem fcr31_enterException (e : ExcCode) (fpc : Addr) (bd : Bool) (s : State) :
    (enterException e fpc bd s).fcr31 = s.fcr31 := by
  unfold enterException; cases StatusReg.exl s.status <;> rfl
@[simp] theorem mem_enterException (e : ExcCode) (fpc : Addr) (bd : Bool) (s : State) :
    (enterException e fpc bd s).mem = s.mem := by
  unfold enterException; cases StatusReg.exl s.status <;> rfl
@[simp] theorem unimplemented_enterException (e : ExcCode) (fpc : Addr) (bd : Bool) (s : State) :
    (enterException e fpc bd s).unimplemented = s.unimplemented := by
  unfold enterException; cases StatusReg.exl s.status <;> rfl
@[simp] theorem runStatus_enterException (e : ExcCode) (fpc : Addr) (bd : Bool) (s : State) :
    (enterException e fpc bd s).runStatus = s.runStatus := by
  unfold enterException; cases StatusReg.exl s.status <;> rfl
@[simp] theorem word_enterException (e : ExcCode) (fpc : Addr) (bd : Bool) (s : State) :
    (enterException e fpc bd s).word = s.word := by
  unfold enterException; cases StatusReg.exl s.status <;> rfl
@[simp] theorem draws_enterException (e : ExcCode) (fpc : Addr) (bd : Bool) (s : State) :
    (enterException e fpc bd s).draws = s.draws := by
  unfold enterException; cases StatusReg.exl s.status <;> rfl
@[simp] theorem params_enterException (e : ExcCode) (fpc : Addr) (bd : Bool) (s : State) :
    (enterException e fpc bd s).params = s.params := by
  unfold enterException; cases StatusReg.exl s.status <;> rfl

/-! ## Gates -/

theorem copGate_usable {z : BitVec 2} {s : State} {k : Result} (h : usable s z = true) :
    copGate z s k = k := if_pos h

theorem copGate_unusable {z : BitVec 2} {s : State} {k : Result} (h : usable s z = false) :
    copGate z s k = .next (raised (.cpu z) s) := if_neg (by rw [h]; decide)

theorem ctiCheck_ok {s : State} {k : Result} (h : s.ds = none) : ctiCheck s k = k := by
  simp [ctiCheck, inDS, h]

theorem ctiCheck_fatal {s : State} {k : Result} (h : s.inDS = true) :
    ctiCheck s k = .fault (.ctiInDelaySlot s.cur s.word) := by
  simp [ctiCheck, h]

theorem linkCheck_ok {c : Bool} {s : State} {k : Result} (h : s.ds = none) (hc : c = false) :
    linkCheck c s k = k := by
  simp [linkCheck, ctiCheck_ok h, hc]

theorem linkCheck_fatal {c : Bool} {s : State} {k : Result} (h : s.ds = none) (hc : c = true) :
    linkCheck c s k = .fault (.linkOverwritesSource s.cur s.word) := by
  simp [linkCheck, ctiCheck_ok h, hc]

/-- A trap by the meaning of its condition. -/
theorem trapIf_eq {c : Bool} {s : State} (p : Prop) [Decidable p] (h : c = true ↔ p) :
    trapIf c s = .next (if p then raised .tr s else s) := by
  unfold trapIf raise
  by_cases hp : p
  · rw [if_pos (h.2 hp), if_pos hp]
  · rw [if_neg (fun hc => hp (h.1 hc)), if_neg hp]

/-- What a conditional trap can answer. -/
theorem trapIf_cases {c : Bool} {s t : State} (h : trapIf c s = .next t) : t = s ∨ t = raised .tr s := by
  unfold trapIf raise at h
  split at h <;> simp_all

/-- What a gated instruction can answer. -/
theorem copGate_cases {z : BitVec 2} {s t : State} {k : Result} (h : copGate z s k = .next t) :
    t = raised (.cpu z) s ∨ k = .next t := by
  unfold copGate raise at h
  split at h
  · exact .inr h
  · exact .inl (by simpa using h.symm)

theorem ctiCheck_next {s t : State} {k : Result} (h : ctiCheck s k = .next t) :
    s.ds = none ∧ k = .next t := by
  unfold ctiCheck inDS at h
  cases hd : s.ds <;> simp_all

theorem linkCheck_next {c : Bool} {s t : State} {k : Result} (h : linkCheck c s k = .next t) :
    s.ds = none ∧ c = false ∧ k = .next t := by
  obtain ⟨h1, h2⟩ := ctiCheck_next h
  cases c <;> simp_all

theorem overflowCheck_next {o : Bool} {s t : State} {k : Result} (h : overflowCheck o s k = .next t) :
    t = raised .ov s ∨ k = .next t := by
  unfold overflowCheck raise at h
  split at h
  · exact .inl (by simpa using h.symm)
  · exact .inr h

theorem cuBit_eq (v : Word) (z : BitVec 2) : StatusReg.cuBit v z = v.getLsbD (28 + z.toNat) := by
  have hz := z.isLt
  unfold StatusReg.cuBit StatusReg.cu getField
  rw [BitVec.getLsbD_extractLsb']
  have : z.toNat < 4 := hz
  simp [this]

/-- The usability of CP0 in Status bits, R331 and R121. -/
theorem usable_zero (s : State) : usable s 0 =
    (s.status.getLsbD 1 || s.status.getLsbD 2 || (!s.status.getLsbD 3 && !s.status.getLsbD 4) ||
      s.status.getLsbD 28) := by
  have hk : (modeOfKsu (getField s.status 3 2) == Mode.kernel) =
      (!s.status.getLsbD 3 && !s.status.getLsbD 4) := by
    have e : getField s.status 3 2 =
        BitVec.ofBool (s.status.getLsbD 4) ++ BitVec.ofBool (s.status.getLsbD 3) := by
      apply BitVec.eq_of_getLsbD_eq
      intro i hi
      rcases (by omega : i = 0 ∨ i = 1) with rfl | rfl
      · rw [getField, BitVec.getLsbD_extractLsb', BitVec.getLsbD_append]; simp
      · rw [getField, BitVec.getLsbD_extractLsb', BitVec.getLsbD_append]; simp
    rw [e]
    cases s.status.getLsbD 3 <;> cases s.status.getLsbD 4 <;> rfl
  unfold usable kernelMode effectiveMode StatusReg.exl StatusReg.erl StatusReg.ksu
  rw [if_pos rfl, cuBit_eq]
  cases s.status.getLsbD 1 <;> cases s.status.getLsbD 2 <;> simp only [Bool.or_true, Bool.true_or,
    Bool.or_false, if_true, if_false, Bool.false_eq_true, hk]
  · rfl
  · rfl
  · rfl
  · rfl

theorem usable_of_ne_zero (s : State) {z : BitVec 2} (h : z ≠ 0) :
    usable s z = s.status.getLsbD (28 + z.toNat) := by
  rw [usable, if_neg h, cuBit_eq]

/-- The Floating-Point check in FCR31 bits, R1111. -/
theorem fpeRaised_iff (v : BitVec 32) : fpeRaised v = true ↔
    (v.getLsbD 17 = true ∨ ∃ k, k < 5 ∧ v.getLsbD (12 + k) = true ∧ v.getLsbD (7 + k) = true) := by
  have b5 : (Fcr31.cause v &&& (1#1 ++ Fcr31.enables v)).getLsbD 5 = v.getLsbD 17 := by
    rw [BitVec.getLsbD_and, BitVec.getLsbD_append, Fcr31.cause, BitVec.getLsbD_extractLsb']; simp
  have bk : ∀ k, k < 5 → (Fcr31.cause v &&& (1#1 ++ Fcr31.enables v)).getLsbD k =
      (v.getLsbD (12 + k) && v.getLsbD (7 + k)) := by
    intro k hk
    rw [BitVec.getLsbD_and, BitVec.getLsbD_append, Fcr31.cause, Fcr31.enables,
      BitVec.getLsbD_extractLsb', BitVec.getLsbD_extractLsb']
    simp [hk, show k < 6 by omega]
  have zero : ∀ k, (0 : BitVec 6).getLsbD k = false := fun k => BitVec.getLsbD_zero
  unfold fpeRaised
  rw [bne_iff_ne, ne_eq]
  constructor
  · intro hz
    apply Classical.byContradiction
    intro hn
    apply hz
    apply BitVec.eq_of_getLsbD_eq
    intro k hk
    rcases (by omega : k = 5 ∨ k < 5) with rfl | h5
    · rw [b5]; simpa using fun h => hn (.inl h)
    · rw [bk k h5]
      rw [zero, Bool.eq_false_iff, ne_eq, Bool.and_eq_true]
      exact fun h => hn (.inr ⟨k, h5, h⟩)
  · rintro (h | ⟨k, hk, h⟩) hz
    · rw [hz, zero] at b5; rw [← b5] at h; cases h
    · have := bk k hk; rw [hz, zero, h.1, h.2] at this; cases this

/-! ## Counter and interrupts -/

/-- The counter touches Count and Cause only. -/
theorem incrementCounter_eq (s : State) : ∃ c, incrementCounter s =
    (s.setC0 9 (zext64 (lo32 (s.c0 9) + 1))).setC0 13 c := by
  unfold incrementCounter
  dsimp only
  split
  · exact ⟨_, rfl⟩
  · refine ⟨s.c0 13, ?_⟩
    apply ext_reads <;> intros <;> simp [c0_setC0]
    intro h1
    subst h1
    exact if_neg (by decide)

@[simp] theorem x_incrementCounter (s : State) (r : RegIdx) : (incrementCounter s).x r = s.x r := by
  obtain ⟨c, h⟩ := incrementCounter_eq s; rw [h]; rfl
@[simp] theorem f_incrementCounter (s : State) (n : RegIdx) : (incrementCounter s).f n = s.f n := by
  obtain ⟨c, h⟩ := incrementCounter_eq s; rw [h]; rfl
@[simp] theorem pc_incrementCounter (s : State) : (incrementCounter s).pc = s.pc := by
  obtain ⟨c, h⟩ := incrementCounter_eq s; rw [h]; rfl
@[simp] theorem hi_incrementCounter (s : State) : (incrementCounter s).hi = s.hi := by
  obtain ⟨c, h⟩ := incrementCounter_eq s; rw [h]; rfl
@[simp] theorem lo_incrementCounter (s : State) : (incrementCounter s).lo = s.lo := by
  obtain ⟨c, h⟩ := incrementCounter_eq s; rw [h]; rfl
@[simp] theorem llbit_incrementCounter (s : State) : (incrementCounter s).llbit = s.llbit := by
  obtain ⟨c, h⟩ := incrementCounter_eq s; rw [h]; rfl
@[simp] theorem ds_incrementCounter (s : State) : (incrementCounter s).ds = s.ds := by
  obtain ⟨c, h⟩ := incrementCounter_eq s; rw [h]; rfl
@[simp] theorem fcr31_incrementCounter (s : State) : (incrementCounter s).fcr31 = s.fcr31 := by
  obtain ⟨c, h⟩ := incrementCounter_eq s; rw [h]; rfl
@[simp] theorem mem_incrementCounter (s : State) : (incrementCounter s).mem = s.mem := by
  obtain ⟨c, h⟩ := incrementCounter_eq s; rw [h]; rfl
@[simp] theorem unimplemented_incrementCounter (s : State) :
    (incrementCounter s).unimplemented = s.unimplemented := by
  obtain ⟨c, h⟩ := incrementCounter_eq s; rw [h]; rfl
@[simp] theorem runStatus_incrementCounter (s : State) : (incrementCounter s).runStatus = s.runStatus := by
  obtain ⟨c, h⟩ := incrementCounter_eq s; rw [h]; rfl
@[simp] theorem word_incrementCounter (s : State) : (incrementCounter s).word = s.word := by
  obtain ⟨c, h⟩ := incrementCounter_eq s; rw [h]; rfl
@[simp] theorem draws_incrementCounter (s : State) : (incrementCounter s).draws = s.draws := by
  obtain ⟨c, h⟩ := incrementCounter_eq s; rw [h]; rfl
@[simp] theorem params_incrementCounter (s : State) : (incrementCounter s).params = s.params := by
  obtain ⟨c, h⟩ := incrementCounter_eq s; rw [h]; rfl

theorem c0_incrementCounter (s : State) (n : RegIdx) (h9 : n ≠ 9) (h13 : n ≠ 13) :
    (incrementCounter s).c0 n = s.c0 n := by
  obtain ⟨c, h⟩ := incrementCounter_eq s
  rw [h, c0_setC0_ne _ _ _ _ h13, c0_setC0_ne _ _ _ _ h9]

@[simp] theorem status_incrementCounter (s : State) : (incrementCounter s).status = s.status :=
  c0_incrementCounter s 12 (by decide) (by decide)

theorem count_incrementCounter (s : State) :
    (incrementCounter s).c0 9 = zext64 (lo32 (s.c0 9) + 1) := by
  obtain ⟨c, h⟩ := incrementCounter_eq s
  rw [h, c0_setC0_ne _ _ _ _ (by decide), c0_setC0_self]

/-- Every bit of Cause after the count, R1260. -/
theorem getLsbD_cause_incrementCounter (s : State) (k : Nat) :
    (incrementCounter s).cause.getLsbD k =
      ((k == 15 && lo32 (s.c0 9) + 1 == lo32 (s.c0 11)) || s.cause.getLsbD k) := by
  unfold incrementCounter
  dsimp only
  split
  · next h =>
    simp only [State.cause, c0_setC0_self, getLsbD_setIpTimer]
    have : s.c0 9 = s.c0 Cp0.count := rfl
    by_cases hk : k = 15 <;> simp_all
  · next h =>
    have h' : (lo32 (s.c0 9) + 1 == lo32 (s.c0 11)) = false := by simpa using h
    rw [h', State.cause, c0_setC0_ne _ _ _ _ (by decide)]
    simp [State.cause]

/-- An interrupt entry is a general entry with the faulting pc of the next fetch. -/
theorem takeInterrupt_eq (s : State) :
    takeInterrupt s = enterException .int (match s.ds with | some a => a | none => s.pc) s.ds.isSome s := by
  unfold takeInterrupt
  cases s.ds <;> rfl

/-- Nothing is pending while EXL is set. -/
theorem not_pending_of_exl {s : State} (h : s.status.getLsbD 1 = true) : hasPendingInterrupt s = false := by
  simp only [hasPendingInterrupt, StatusReg.exl, h]; simp

end Sys2Proof.Machine
end

