-- ==== Sys2Proof/Laws/Branch.lean ====
section
/-! SUPPORT. Branches and jumps in the terms of spec/43_branch_jump.md R701 to R730: what a taken and an
untaken branch leave, and the addresses as numbers. -/

namespace Sys2Proof.Machine

open State

theorem branchOffset_eq (imm : BitVec 16) : branchOffset imm = BitVec.ofInt 64 (4 * imm.toInt) := by
  apply BitVec.eq_of_toInt_eq
  unfold branchOffset
  rw [BitVec.toInt_shiftLeft, BitVec.toInt_ofInt, Nat.shiftLeft_eq]
  have h2 : (sext64 imm).toNat = (imm.toInt % 2 ^ 64).toNat := toNat_simm imm
  have := imm.toInt_lt
  have := imm.le_toInt
  rw [h2, ← Int.emod_bmod]
  conv => rhs; rw [← Int.emod_bmod]
  congr 1
  omega

/-- While an instruction fetched normally runs, `pc` is its address plus 4. -/
theorem cur_add_four {s : State} (h : s.ds = none) : s.cur + 4 = s.pc := by
  simp only [cur, h]
  exact BitVec.sub_add_cancel s.pc 4

theorem pc_add_four {s : State} (h : s.ds = none) : s.pc + 4 = s.cur + 8 := by
  rw [← cur_add_four h, BitVec.add_assoc]; rfl

theorem branchTarget_eq {s : State} (h : s.ds = none) (imm : BitVec 16) :
    s.pc + branchOffset imm = BitVec.ofInt 64 (s.cur.toInt + 4 + 4 * imm.toInt) := by
  rw [branchOffset_eq, ← cur_add_four h, BitVec.ofInt_add, BitVec.ofInt_add, BitVec.ofInt_toInt]
  rfl

theorem transfer_taken {s : State} (h : s.ds = none) (imm : BitVec 16) :
    transfer (s.pc + branchOffset imm) s = takenBranch s imm := by
  rw [branchTarget_eq h, transfer, takenBranch, cur_add_four h]

/-- A plain branch outside a delay slot, by the meaning of its condition. -/
theorem branch_eq {s : State} (h : s.ds = none) (c : Bool) (p : Prop) (imm : BitVec 16)
    (hp : c = true ↔ p) :
    (p → ctiCheck s (.next (branch c imm s)) = .next (takenBranch s imm)) ∧
      (¬ p → ctiCheck s (.next (branch c imm s)) = .next s) := by
  rw [ctiCheck_ok h, branch, transfer_taken h]
  exact ⟨fun q => by rw [if_pos (hp.2 q)], fun q => by rw [if_neg (fun r => q (hp.1 r))]⟩

/-- A branch-likely outside a delay slot, by the meaning of its condition. -/
theorem branchLikely_eq {s : State} (h : s.ds = none) (c : Bool) (p : Prop) (imm : BitVec 16)
    (hp : c = true ↔ p) :
    (p → ctiCheck s (.next (branchLikely c imm s)) = .next (takenBranch s imm)) ∧
      (¬ p → ctiCheck s (.next (branchLikely c imm s)) = .next (s.setPc (s.cur + 8))) := by
  rw [ctiCheck_ok h, branchLikely, transfer_taken h, pc_add_four h]
  exact ⟨fun q => by rw [if_pos (hp.2 q)], fun q => by rw [if_neg (fun r => q (hp.1 r))]⟩

theorem link_eq {s : State} (h : s.ds = none) (r : RegIdx) : link r s = s.setX r (s.cur + 8) := by
  rw [link, pc_add_four h]

theorem jumpTarget_append (pc : Addr) (t : BitVec 26) :
    jumpTarget pc t = pc.extractLsb' 28 36 ++ t ++ 0#2 := by
  have m : 0xFFFFFFFFF0000000#64 = (BitVec.allOnes 64 <<< 28 : BitVec 64) := by decide
  unfold jumpTarget zext64
  rw [m]
  apply BitVec.eq_of_getLsbD_eq
  intro k hk
  simp only [BitVec.getLsbD_or, BitVec.getLsbD_and, BitVec.getLsbD_append, BitVec.getLsbD_shiftLeft,
    BitVec.getLsbD_setWidth, BitVec.getLsbD_extractLsb', BitVec.getLsbD_allOnes]
  rcases (by omega : k < 2 ∨ (2 ≤ k ∧ k < 28) ∨ 28 ≤ k) with h | h | h
  · simp [show k < 28 by omega, h]
  · simp [show ¬ k < 2 by omega, show k - 2 < 26 by omega, show k < 28 by omega, hk]; omega
  · have : t.getLsbD (k - 2) = false := BitVec.getLsbD_of_ge _ _ (by omega)
    simp [show ¬ k < 2 by omega, show ¬ k - 2 < 26 by omega, show ¬ k < 28 by omega, hk, this,
      show k - 2 - 26 < 36 by omega, show 28 + (k - 2 - 26) = k by omega, show k - 28 < 64 by omega]

/-- R311: the target lies in the 256 MiB region of `pc`. -/
theorem jumpTarget_eq (pc : Addr) (t : BitVec 26) :
    jumpTarget pc t = BitVec.ofNat 64 (pc.toNat / 2 ^ 28 * 2 ^ 28 + t.toNat * 4) := by
  rw [jumpTarget_append]
  apply BitVec.eq_of_toNat_eq
  have hp := pc.isLt
  have ht := t.isLt
  rw [BitVec.toNat_append, BitVec.toNat_append, ← Nat.shiftLeft_add_eq_or_of_lt (BitVec.isLt _),
    ← Nat.shiftLeft_add_eq_or_of_lt (BitVec.isLt _), BitVec.toNat_ofNat, BitVec.extractLsb'_toNat,
    Nat.shiftLeft_eq, Nat.shiftLeft_eq, Nat.shiftRight_eq_div_pow, BitVec.toNat_ofNat]
  omega

end Sys2Proof.Machine
end

