-- ==== Sys2Proof/Laws/Memory.lean ====
section
/-! SUPPORT. The basic laws of memory: a read after a write, and the canonical form. -/

namespace Sys2Proof.Machine.Memory

theorem read_of_allAbove (m : List Host.Cell) (k a : Nat) (h : allAbove k m = true) (hak : a ≤ k) :
    read m a = unlisted := by
  induction m with
  | nil => rfl
  | cons c rest ih =>
    obtain ⟨j, v⟩ := c
    simp only [allAbove, List.all_cons, Bool.and_eq_true, decide_eq_true_eq] at h
    have : j ≠ a := by have := h.1; omega
    simp only [read, if_neg this]
    exact ih h.2

/-- A write leaves every other cell alone. -/
theorem read_write_ne (m : List Host.Cell) (a b : Nat) (v : Byte) (h : b ≠ a) :
    read (write m a v) b = read m b := by
  have h' : a ≠ b := Ne.symm h
  induction m with
  | nil => unfold write; split <;> simp [read, h']
  | cons c rest ih =>
    obtain ⟨j, u⟩ := c
    simp only [write]
    split
    · split <;> simp [read, h']
    · split
      · next heq =>
        subst heq
        split <;> simp [read, h']
      · simp only [read]
        split
        · rfl
        · exact ih

/-- A read after a write to the same cell gives the byte written. -/
theorem read_write_self (m : List Host.Cell) (a : Nat) (v : Byte) (h : wf m = true) :
    read (write m a v) a = v := by
  induction m with
  | nil => unfold write; split <;> simp_all [read]
  | cons c rest ih =>
    obtain ⟨j, u⟩ := c
    simp only [wf, Bool.and_eq_true] at h
    obtain ⟨⟨hu, hab⟩, hw⟩ := h
    simp only [write]
    split
    · next hlt =>
      split
      · next hv =>
        have : j ≠ a := by omega
        simp only [read, if_neg this, hv]
        exact read_of_allAbove rest j a hab (by omega)
      · simp [read]
    · split
      · next heq =>
        subst heq
        split
        · next hv => rw [hv]; exact read_of_allAbove rest a a hab (Nat.le_refl _)
        · simp [read]
      · next hne =>
        have : j ≠ a := by omega
        simp only [read, if_neg this]
        exact ih hw

theorem read_write (m : List Host.Cell) (a b : Nat) (v : Byte) (h : wf m = true) :
    read (write m a v) b = if b = a then v else read m b := by
  split
  · next heq => subst heq; exact read_write_self m b v h
  · next hne => exact read_write_ne m a b v hne

theorem allAbove_mono {m : List Host.Cell} {j k : Nat} (hjk : j ≤ k) (h : allAbove k m = true) :
    allAbove j m = true := by
  unfold allAbove at *
  rw [List.all_eq_true] at *
  intro c hc
  have := h c hc
  simp only [decide_eq_true_eq] at *
  omega

theorem allAbove_write {m : List Host.Cell} {k a : Nat} {v : Byte} (hka : k < a)
    (h : allAbove k m = true) : allAbove k (write m a v) = true := by
  induction m with
  | nil => unfold write; split <;> simp [allAbove, hka]
  | cons c rest ih =>
    obtain ⟨j, u⟩ := c
    have h' := h
    simp only [allAbove, List.all_cons, Bool.and_eq_true, decide_eq_true_eq] at h
    simp only [write]
    split
    · split
      · exact h'
      · simp only [allAbove, List.all_cons, Bool.and_eq_true, decide_eq_true_eq]
        exact ⟨hka, h⟩
    · split
      · split
        · exact h.2
        · simp only [allAbove, List.all_cons, Bool.and_eq_true, decide_eq_true_eq]
          exact ⟨hka, h.2⟩
      · simp only [allAbove, List.all_cons, Bool.and_eq_true, decide_eq_true_eq]
        exact ⟨h.1, ih h.2⟩

/-- A write keeps the canonical form. -/
theorem wf_write (m : List Host.Cell) (a : Nat) (v : Byte) (h : wf m = true) :
    wf (write m a v) = true := by
  induction m with
  | nil => unfold write; split <;> simp_all [wf, allAbove]
  | cons c rest ih =>
    obtain ⟨j, u⟩ := c
    have h' := h
    simp only [wf, Bool.and_eq_true] at h
    obtain ⟨⟨hu, hab⟩, hw⟩ := h
    simp only [write]
    split
    · next hlt =>
      split
      · exact h'
      · next hv =>
        simp only [wf, Bool.and_eq_true]
        refine ⟨⟨by simpa using hv, ?_⟩, ⟨hu, hab⟩, hw⟩
        simp only [allAbove, List.all_cons, Bool.and_eq_true, decide_eq_true_eq]
        exact ⟨hlt, allAbove_mono (Nat.le_of_lt hlt) hab⟩
    · split
      · next heq =>
        subst heq
        split
        · exact hw
        · next hv =>
          simp only [wf, Bool.and_eq_true]
          exact ⟨⟨by simpa using hv, hab⟩, hw⟩
      · next hne =>
        simp only [wf, Bool.and_eq_true]
        exact ⟨⟨hu, allAbove_write (by omega) hab⟩, ih hw⟩

/-- A word write keeps the canonical form. -/
theorem wf_writeWord (m : List Host.Cell) (c : Nat) (w : BusWord) (h : wf m = true) :
    wf (writeWord m c w) = true := by
  unfold writeWord
  exact wf_write _ _ _ (wf_write _ _ _ (wf_write _ _ _ (wf_write _ _ _ h)))

/-- A word write leaves every cell outside its four alone. -/
theorem read_writeWord_outside (m : List Host.Cell) (c b : Nat) (w : BusWord)
    (h : b < c ∨ c + 4 ≤ b) : read (writeWord m c w) b = read m b := by
  unfold writeWord
  rw [read_write_ne _ _ _ _ (by omega), read_write_ne _ _ _ _ (by omega),
    read_write_ne _ _ _ _ (by omega), read_write_ne _ _ _ _ (by omega)]

/-- The byte of cell `c + k` after a word write at `c`. -/
theorem read_writeWord_byte (m : List Host.Cell) (c k : Nat) (w : BusWord) (hk : k < 4)
    (h : wf m = true) : read (writeWord m c w) (c + k) = w.extractLsb' (8 * (3 - k)) 8 := by
  have h1 := wf_write m c (w.extractLsb' 24 8) h
  have h2 := wf_write _ (c + 1) (w.extractLsb' 16 8) h1
  have h3 := wf_write _ (c + 2) (w.extractLsb' 8 8) h2
  unfold writeWord
  have hk' : k = 0 ∨ k = 1 ∨ k = 2 ∨ k = 3 := by omega
  rcases hk' with rfl | rfl | rfl | rfl <;>
    simp [read_write, h, h1, h2, h3]

/-- The four bytes of a word make it up again. -/
theorem append_bytes (w : BusWord) :
    (w.extractLsb' 24 8 ++ w.extractLsb' 16 8 ++ w.extractLsb' 8 8 ++ w.extractLsb' 0 8 : BusWord) = w := by
  apply BitVec.eq_of_getLsbD_eq
  intro i hi
  simp only [BitVec.getLsbD_append, BitVec.getLsbD_extractLsb']
  grind

/-- A word read after a word write at the same place gives the word written. -/
theorem readWord_writeWord_self (m : List Host.Cell) (c : Nat) (w : BusWord) (h : wf m = true) :
    readWord (writeWord m c w) c = w := by
  unfold readWord
  have h0 := read_writeWord_byte m c 0 w (by decide) h
  have h1 := read_writeWord_byte m c 1 w (by decide) h
  have h2 := read_writeWord_byte m c 2 w (by decide) h
  have h3 := read_writeWord_byte m c 3 w (by decide) h
  rw [Nat.add_zero] at h0
  rw [h0, h1, h2, h3]
  exact append_bytes w

/-- A word write leaves a word that shares no cell with it alone. -/
theorem readWord_writeWord_disjoint (m : List Host.Cell) (c d : Nat) (w : BusWord)
    (h : d + 4 ≤ c ∨ c + 4 ≤ d) : readWord (writeWord m c w) d = readWord m d := by
  unfold readWord
  rw [read_writeWord_outside _ _ _ _ (by omega), read_writeWord_outside _ _ _ _ (by omega),
    read_writeWord_outside _ _ _ _ (by omega), read_writeWord_outside _ _ _ _ (by omega)]

end Sys2Proof.Machine.Memory
end

