-- ==== Sys2Proof/Laws/Bus.lean ====
section
/-! SUPPORT. Addresses as numbers, and what one bus transaction and one sized access can do
(spec/20_memory.md R210, R230 to R249). -/

namespace Sys2Proof.Machine

open State

/-! ## Addresses -/

theorem toNat_getField (v : Word) (lo n : Nat) : (getField v lo n).toNat = v.toNat / 2 ^ lo % 2 ^ n := by
  rw [getField, BitVec.extractLsb'_toNat, Nat.shiftRight_eq_div_pow]

theorem offset4_eq (va : Addr) : offset4 va = va.toNat % 4 := by
  rw [offset4, toNat_getField]; omega

theorem offset8_eq (va : Addr) : offset8 va = va.toNat % 8 := by
  rw [offset8, toNat_getField]; omega

theorem toNat_physical (va : Addr) : (physical va).toNat = va.toNat % 2 ^ 29 := by
  rw [physical, zext64, BitVec.toNat_setWidth, toNat_getField]; omega

/-- R210: the two segments are the addresses from 0xFFFFFFFF80000000 to 0xFFFFFFFFBFFFFFFF. -/
theorem inSegment_iff (va : Addr) :
    inSegment va = true ↔ 2 ^ 64 - 2 ^ 31 ≤ va.toNat ∧ va.toNat < 2 ^ 64 - 2 ^ 30 := by
  have hv := va.isLt
  have e1 : (getField va 32 32 == 0xFFFFFFFF#32) = true ↔ va.toNat / 2 ^ 32 = 0xFFFFFFFF := by
    rw [beq_iff_eq, ← BitVec.toNat_inj, toNat_getField]; simp; omega
  have e2 : (getField va 29 3 == 0b100#3) = true ↔ va.toNat / 2 ^ 29 % 8 = 4 := by
    rw [beq_iff_eq, ← BitVec.toNat_inj, toNat_getField]; simp
  have e3 : (getField va 29 3 == 0b101#3) = true ↔ va.toNat / 2 ^ 29 % 8 = 5 := by
    rw [beq_iff_eq, ← BitVec.toNat_inj, toNat_getField]; simp
  rw [inSegment, Bool.and_eq_true, Bool.or_eq_true, e1, e2, e3]
  omega

theorem toNat_and_not (a : Addr) (n : Nat) :
    (a &&& ~~~(BitVec.ofNat 64 (2 ^ n - 1))).toNat = a.toNat / 2 ^ n * 2 ^ n := by
  have h : a &&& ~~~(BitVec.ofNat 64 (2 ^ n - 1)) = (a >>> n) <<< n := by
    apply BitVec.eq_of_getLsbD_eq
    intro i hi
    simp only [BitVec.getLsbD_and, BitVec.getLsbD_not, BitVec.getLsbD_shiftLeft,
      BitVec.getLsbD_ushiftRight, BitVec.getLsbD_ofNat, Nat.testBit_two_pow_sub_one, hi]
    by_cases h : i < n
    · simp [h, hi]
    · simp [h, show n + (i - n) = i by omega]
  rw [h, BitVec.toNat_shiftLeft, BitVec.toNat_ushiftRight, Nat.shiftLeft_eq, Nat.shiftRight_eq_div_pow]
  apply Nat.mod_eq_of_lt
  have := Nat.div_mul_le_self a.toNat (2 ^ n)
  omega

theorem toNat_wordBase (a : Addr) : (wordBase a).toNat = a.toNat / 4 * 4 := toNat_and_not a 2

theorem toNat_dwordBase (a : Addr) : (dwordBase a).toNat = a.toNat / 8 * 8 := toNat_and_not a 3

/-- Two addresses of one bus word. -/
theorem sameWord_inSegment {va vb : Addr} (h : vb.toNat / 4 = va.toNat / 4) :
    inSegment vb = inSegment va := by
  rw [Bool.eq_iff_iff, inSegment_iff, inSegment_iff]; omega

theorem sameWord_physical {va vb : Addr} (h : vb.toNat / 4 = va.toNat / 4) :
    wordBase (physical vb) = wordBase (physical va) := by
  apply BitVec.eq_of_toNat_eq
  rw [toNat_wordBase, toNat_wordBase, toNat_physical, toNat_physical]; omega

theorem wordBase_physical {va : Addr} (h : va.toNat % 4 = 0) : wordBase (physical va) = physical va := by
  apply BitVec.eq_of_toNat_eq
  rw [toNat_wordBase, toNat_physical]; omega

theorem sameWord_ramReadable {s : State} {va vb : Addr} (h : vb.toNat / 4 = va.toNat / 4) :
    ramReadable s vb = ramReadable s va := by
  rw [ramReadable, ramReadable, sameWord_inSegment h, sameWord_physical h]

theorem sameWord_ramWritable {s : State} {va vb : Addr} (h : vb.toNat / 4 = va.toNat / 4) :
    ramWritable s vb = ramWritable s va := by
  rw [ramWritable, ramWritable, sameWord_inSegment h, sameWord_physical h]

/-! ## One transaction -/

/-- A bus write that answers stored the word in memory and did nothing else, R232. -/
theorem busWrite_next {s t : State} {pa : Addr} {w : BusWord} (h : busWrite s pa w = .next t) :
    ∃ c, memCell s.params.busMap pa.toNat = some c ∧ t = s.setMem (Memory.writeWord s.mem c w) := by
  unfold busWrite writePort at h
  unfold memCell
  cases he : findEntry s.params.busMap pa.toNat with
  | error a => simp [he] at h
  | ok p =>
    obtain ⟨e, a⟩ := p
    cases hw : e.writable <;> cases hb : e.backing <;> simp [he, hw, hb] at h
    simp only [hb]
    exact ⟨_, rfl, h.symm⟩

/-- A bus read that answers read a word of memory, R231. -/
theorem busRead_next {s : State} {pa : Addr} {w : BusWord} (h : busRead s pa = .next w) :
    ∃ c, memCell s.params.busMap pa.toNat = some c ∧ w = Memory.readWord s.mem c := by
  unfold busRead readPort at h
  unfold memCell
  cases he : findEntry s.params.busMap pa.toNat with
  | error a => simp [he] at h
  | ok p =>
    obtain ⟨e, a⟩ := p
    cases hw : e.readable <;> cases hb : e.backing <;> simp [he, hw, hb] at h
    simp only [hb]
    exact ⟨_, rfl, h.symm⟩

/-- Readable plain memory answers every read of its word. -/
theorem ramReadable_cell {s : State} {va : Addr} (h : ramReadable s va = true) :
    inSegment va = true ∧ ∃ c, memCell s.params.busMap (wordBase (physical va)).toNat = some c ∧
      ∀ m, busRead (s.setMem m) (wordBase (physical va)) = .next (Memory.readWord m c) := by
  rw [ramReadable, Bool.and_eq_true] at h
  refine ⟨h.1, ?_⟩
  have h2 := h.2
  unfold readPort at h2
  unfold busRead readPort memCell
  cases he : findEntry s.params.busMap (wordBase (physical va)).toNat with
  | error a => simp [he] at h2
  | ok p =>
    obtain ⟨e, a⟩ := p
    cases hw : e.readable <;> cases hb : e.backing <;> simp [he, hw, hb] at h2
    simp only [hb]
    exact ⟨_, rfl, fun m => by simp [setMem, he, hw, hb]⟩

/-- Writable plain memory answers every write of its word. -/
theorem ramWritable_cell {s : State} {va : Addr} (h : ramWritable s va = true) :
    inSegment va = true ∧ ∃ c, memCell s.params.busMap (wordBase (physical va)).toNat = some c ∧
      ∀ m w, busWrite (s.setMem m) (wordBase (physical va)) w =
        .next (s.setMem (Memory.writeWord m c w)) := by
  rw [ramWritable, Bool.and_eq_true] at h
  refine ⟨h.1, ?_⟩
  have h2 := h.2
  unfold writePort at h2
  unfold busWrite writePort memCell
  cases he : findEntry s.params.busMap (wordBase (physical va)).toNat with
  | error a => simp [he] at h2
  | ok p =>
    obtain ⟨e, a⟩ := p
    cases hw : e.writable <;> cases hb : e.backing <;> simp [he, hw, hb] at h2
    simp only [hb]
    exact ⟨_, rfl, fun m w => by simp [setMem, he, hw, hb]⟩

theorem translate_inSegment {va : Addr} (h : inSegment va = true) : translate va = .next (physical va) := by
  rw [translate, if_pos h]

theorem translate_outside {va : Addr} (h : inSegment va = false) :
    translate va = .fault (.unknownSegment va) := by
  rw [translate, if_neg (by rw [h]; decide)]

theorem checkAligned_ok {α : Type} {va : Addr} {n : Nat} {k : Access α} (h : va.toNat % n = 0) :
    checkAligned va n k = k := by
  rw [checkAligned, aligned, if_pos (by simpa using h)]

theorem checkAligned_fault {α : Type} {va : Addr} {n : Nat} {k : Access α} (h : va.toNat % n ≠ 0) :
    checkAligned va n k = .fault (.misaligned va n) := by
  rw [checkAligned, aligned, if_neg (by simpa using h)]

theorem checkAligned_next {α : Type} {va : Addr} {n : Nat} {k : Access α} {a : α}
    (h : checkAligned va n k = .next a) : k = .next a := by
  unfold checkAligned at h
  split at h
  · exact h
  · simp at h

theorem checkAligned_aligned {α : Type} {va : Addr} {n : Nat} {k : Access α} {a : α}
    (h : checkAligned va n k = .next a) : va.toNat % n = 0 := by
  unfold checkAligned aligned at h
  split at h
  · next h1 => simpa using h1
  · simp at h

theorem translate_next {va pa : Addr} (h : translate va = .next pa) :
    inSegment va = true ∧ pa = physical va := by
  unfold translate at h
  split at h
  · next h1 => exact ⟨h1, by simpa using h.symm⟩
  · simp at h

/-! ## What a sized store can do -/

/-- The cell a sub-word store goes to, and the word it leaves there. -/
theorem memWriteSub_cell {s t : State} {va : Addr} {n k : Nat} {v : BitVec k}
    (h : memWriteSub s va n v = .next t) : va.toNat % n = 0 ∧ inSegment va = true ∧
      ∃ c, memCell s.params.busMap (wordBase (physical va)).toNat = some c ∧
        t = s.setMem (Memory.writeWord s.mem c
          (mergeLane (Memory.readWord s.mem c) (lane s.be (physical va) n) v)) := by
  obtain ⟨pa, hp, h2⟩ := andThen_eq_next.1 (checkAligned_next h)
  obtain ⟨w, hw, h3⟩ := andThen_eq_next.1 h2
  obtain ⟨hs, rfl⟩ := translate_next hp
  obtain ⟨c, hc, h4⟩ := busWrite_next h3
  obtain ⟨d, hd, rfl⟩ := busRead_next hw
  obtain rfl := Option.some.inj (hc.symm.trans hd)
  exact ⟨checkAligned_aligned h, hs, c, hc, h4⟩

theorem memWrite32_cell {s t : State} {va : Addr} {v : BitVec 32} (h : memWrite32 s va v = .next t) :
    va.toNat % 4 = 0 ∧ inSegment va = true ∧
      ∃ c, memCell s.params.busMap (wordBase (physical va)).toNat = some c ∧
        t = s.setMem (Memory.writeWord s.mem c v) := by
  obtain ⟨pa, hp, h2⟩ := andThen_eq_next.1 (checkAligned_next h)
  obtain ⟨hs, rfl⟩ := translate_next hp
  obtain ⟨c, hc, h4⟩ := busWrite_next h2
  have ha := checkAligned_aligned h
  rw [← wordBase_physical ha] at hc
  exact ⟨ha, hs, c, hc, h4⟩

theorem memRead32_cell {s : State} {va : Addr} {w : BusWord} (h : memRead32 s va = .next w) :
    va.toNat % 4 = 0 ∧ inSegment va = true ∧
      ∃ c, memCell s.params.busMap (wordBase (physical va)).toNat = some c ∧
        w = Memory.readWord s.mem c := by
  obtain ⟨pa, hp, h2⟩ := andThen_eq_next.1 (checkAligned_next h)
  obtain ⟨hs, rfl⟩ := translate_next hp
  obtain ⟨c, hc, h4⟩ := busRead_next h2
  have ha := checkAligned_aligned h
  rw [← wordBase_physical ha] at hc
  exact ⟨ha, hs, c, hc, h4⟩

/-- The second word of an aligned doubleword. -/
theorem toNat_add_four {va : Addr} (hs : inSegment va = true) : (va + 4).toNat = va.toNat + 4 := by
  have hlt := (inSegment_iff va).1 hs
  rw [BitVec.toNat_add]; simp; omega

theorem physical_add_four {va : Addr} (ha : va.toNat % 8 = 0) : physical (va + 4) = physical va + 4 := by
  apply BitVec.eq_of_toNat_eq
  rw [toNat_physical, BitVec.toNat_add, BitVec.toNat_add, toNat_physical]
  simp; omega

theorem inSegment_add_four {va : Addr} (hs : inSegment va = true) (ha : va.toNat % 8 = 0) :
    inSegment (va + 4) = true := by
  have h1 := (inSegment_iff va).1 hs
  rw [inSegment_iff, toNat_add_four hs]; omega

theorem memRead64_cell {s : State} {va : Addr} {v : BitVec 64} (h : memRead64 s va = .next v) :
    va.toNat % 8 = 0 ∧ inSegment va = true ∧
      ∃ c d, memCell s.params.busMap (wordBase (physical va)).toNat = some c ∧
        memCell s.params.busMap (wordBase (physical (va + 4))).toNat = some d ∧
        v = if s.be then Memory.readWord s.mem c ++ Memory.readWord s.mem d
          else Memory.readWord s.mem d ++ Memory.readWord s.mem c := by
  obtain ⟨pa, hp, h2⟩ := andThen_eq_next.1 (checkAligned_next h)
  obtain ⟨w0, hw0, h3⟩ := andThen_eq_next.1 h2
  obtain ⟨w1, hw1, h4⟩ := andThen_eq_next.1 h3
  obtain ⟨hs, rfl⟩ := translate_next hp
  obtain ⟨c, hc, rfl⟩ := busRead_next hw0
  obtain ⟨d, hd, rfl⟩ := busRead_next hw1
  have ha := checkAligned_aligned h
  have n4 := toNat_add_four hs
  rw [← wordBase_physical (by omega)] at hc
  rw [← physical_add_four ha, ← wordBase_physical (by omega)] at hd
  exact ⟨ha, hs, c, d, hc, hd, by simpa using h4.symm⟩

theorem memWrite64_cell {s t : State} {va : Addr} {v : BitVec 64} (h : memWrite64 s va v = .next t) :
    va.toNat % 8 = 0 ∧ inSegment va = true ∧
      ∃ c d, memCell s.params.busMap (wordBase (physical va)).toNat = some c ∧
        memCell s.params.busMap (wordBase (physical (va + 4))).toNat = some d ∧
        t = s.setMem (Memory.writeWord
          (Memory.writeWord s.mem c (if s.be then v.extractLsb' 32 32 else v.extractLsb' 0 32)) d
          (if s.be then v.extractLsb' 0 32 else v.extractLsb' 32 32)) := by
  obtain ⟨pa, hp, h2⟩ := andThen_eq_next.1 (checkAligned_next h)
  obtain ⟨u, h3, h4⟩ := andThen_eq_next.1 h2
  obtain ⟨hs, rfl⟩ := translate_next hp
  obtain ⟨c, hc, rfl⟩ := busWrite_next h3
  obtain ⟨d, hd, h5⟩ := busWrite_next h4
  have ha := checkAligned_aligned h
  have n4 := toNat_add_four hs
  rw [← wordBase_physical (by omega)] at hc
  rw [← physical_add_four ha, ← wordBase_physical (by omega)] at hd
  exact ⟨ha, hs, c, d, hc, hd, h5⟩

/-! Where they answer. -/

theorem memWriteSub_answers {s : State} {va : Addr} {n k : Nat} (v : BitVec k)
    (hr : ramReadable s va = true) (hw : ramWritable s va = true) (ha : va.toNat % n = 0) :
    ∃ t, memWriteSub s va n v = .next t := by
  obtain ⟨hs, c, -, hb⟩ := ramReadable_cell hr
  obtain ⟨-, d, -, hb'⟩ := ramWritable_cell hw
  have e := hb s.mem
  have e' := hb' s.mem
  rw [show s.setMem s.mem = s from rfl] at e
  simp only [show s.setMem s.mem = s from rfl] at e'
  rw [memWriteSub, checkAligned_ok ha, translate_inSegment hs, andThen_next, e, andThen_next, e']
  exact ⟨_, rfl⟩

theorem memWrite32_answers {s : State} {va : Addr} (v : BitVec 32) (hw : ramWritable s va = true)
    (ha : va.toNat % 4 = 0) : ∃ t, memWrite32 s va v = .next t := by
  obtain ⟨hs, d, -, hb⟩ := ramWritable_cell hw
  have e := hb s.mem
  simp only [show s.setMem s.mem = s from rfl] at e
  rw [memWrite32, checkAligned_ok ha, translate_inSegment hs, andThen_next, ← wordBase_physical ha, e]
  exact ⟨_, rfl⟩

theorem memWrite64_answers {s : State} {va : Addr} (v : BitVec 64) (hw : ramWritable s va = true)
    (hw4 : ramWritable s (va + 4) = true) (ha : va.toNat % 8 = 0) :
    ∃ t, memWrite64 s va v = .next t := by
  obtain ⟨hs, c, -, hb⟩ := ramWritable_cell hw
  obtain ⟨hs4, d, -, hb4⟩ := ramWritable_cell hw4
  have n4 := toNat_add_four hs
  have e := hb s.mem
  simp only [show s.setMem s.mem = s from rfl] at e
  rw [wordBase_physical (by omega)] at e hb4
  rw [memWrite64, checkAligned_ok ha, translate_inSegment hs, andThen_next, e, andThen_next,
    ← physical_add_four ha, hb4]
  exact ⟨_, rfl⟩

/-! Whatever was stored. -/

/-- A sized store that answers changed memory and nothing else, and kept its canonical form. -/
theorem memWriteSub_next {s t : State} {va : Addr} {n k : Nat} {v : BitVec k}
    (h : memWriteSub s va n v = .next t) :
    ∃ m, t = s.setMem m ∧ (Memory.wf s.mem = true → Memory.wf m = true) := by
  have h1 := checkAligned_next h
  obtain ⟨pa, -, h2⟩ := andThen_eq_next.1 h1
  obtain ⟨w, -, h3⟩ := andThen_eq_next.1 h2
  obtain ⟨c, -, h4⟩ := busWrite_next h3
  exact ⟨_, h4, Memory.wf_writeWord _ _ _⟩

theorem memWrite32_next {s t : State} {va : Addr} {v : BitVec 32} (h : memWrite32 s va v = .next t) :
    ∃ m, t = s.setMem m ∧ (Memory.wf s.mem = true → Memory.wf m = true) := by
  obtain ⟨pa, -, h2⟩ := andThen_eq_next.1 (checkAligned_next h)
  obtain ⟨c, -, h4⟩ := busWrite_next h2
  exact ⟨_, h4, Memory.wf_writeWord _ _ _⟩

theorem memWrite64_next {s t : State} {va : Addr} {v : BitVec 64} (h : memWrite64 s va v = .next t) :
    ∃ m, t = s.setMem m ∧ (Memory.wf s.mem = true → Memory.wf m = true) := by
  obtain ⟨pa, -, h2⟩ := andThen_eq_next.1 (checkAligned_next h)
  obtain ⟨u, h3, h4⟩ := andThen_eq_next.1 h2
  obtain ⟨c, -, h5⟩ := busWrite_next h3
  obtain ⟨d, -, h6⟩ := busWrite_next h4
  subst h5
  exact ⟨_, h6, fun hw => Memory.wf_writeWord _ _ _ (Memory.wf_writeWord _ _ _ hw)⟩

/-! ## Bytes of a word in memory -/

/-- The byte of a bus word that the `n`-th cell of it holds. -/
theorem read_readWord (m : List Host.Cell) (c k : Nat) (hk : k < 4) :
    Memory.read m (c + k) = (Memory.readWord m c).extractLsb' (8 * (3 - k)) 8 := by
  unfold Memory.readWord
  apply BitVec.eq_of_getLsbD_eq
  intro i hi
  simp only [BitVec.getLsbD_extractLsb', BitVec.getLsbD_append]
  rcases (by omega : k = 0 ∨ k = 1 ∨ k = 2 ∨ k = 3) with rfl | rfl | rfl | rfl
  · simp [show ¬ 8 * (3 - 0) + i < 8 by omega, show ¬ 8 * (3 - 0) + i - 8 < 8 by omega,
      show ¬ 8 * (3 - 0) + i - 8 - 8 < 8 by omega]; grind
  · simp [show ¬ 8 * (3 - 1) + i < 8 by omega, show ¬ 8 * (3 - 1) + i - 8 < 8 by omega]; grind
  · simp [show ¬ 8 * (3 - 2) + i < 8 by omega]; grind
  · simp [hi]

end Sys2Proof.Machine
end

