-- ==== Sys2Proof/Laws/Encoding.lean ====
section
/-! SUPPORT. The fields of the instruction formats (spec/30_encoding.md R301 to R306): every format gives
back the fields it was built from, and every word is built from its fields. -/

namespace Sys2Proof

/-! ## Fields of a built word -/

section
variable (op : BitVec 6) (rs rt rd sa : BitVec 5) (funct : BitVec 6) (imm : BitVec 16)
  (target : BitVec 26) (code : BitVec 20) (code10 : BitVec 10)

@[simp] theorem opcodeOf_rFormat : opcodeOf (rFormat op rs rt rd sa funct) = op := by
  apply BitVec.eq_of_getLsbD_eq; intro i hi
  simp only [opcodeOf, rFormat, BitVec.getLsbD_append, BitVec.getLsbD_extractLsb']; grind
@[simp] theorem rsOf_rFormat : rsOf (rFormat op rs rt rd sa funct) = rs := by
  apply BitVec.eq_of_getLsbD_eq; intro i hi
  simp only [rsOf, rFormat, BitVec.getLsbD_append, BitVec.getLsbD_extractLsb']; grind
@[simp] theorem rtOf_rFormat : rtOf (rFormat op rs rt rd sa funct) = rt := by
  apply BitVec.eq_of_getLsbD_eq; intro i hi
  simp only [rtOf, rFormat, BitVec.getLsbD_append, BitVec.getLsbD_extractLsb']; grind
@[simp] theorem rdOf_rFormat : rdOf (rFormat op rs rt rd sa funct) = rd := by
  apply BitVec.eq_of_getLsbD_eq; intro i hi
  simp only [rdOf, rFormat, BitVec.getLsbD_append, BitVec.getLsbD_extractLsb']; grind
@[simp] theorem saOf_rFormat : saOf (rFormat op rs rt rd sa funct) = sa := by
  apply BitVec.eq_of_getLsbD_eq; intro i hi
  simp only [saOf, rFormat, BitVec.getLsbD_append, BitVec.getLsbD_extractLsb']; grind
@[simp] theorem functOf_rFormat : functOf (rFormat op rs rt rd sa funct) = funct := by
  apply BitVec.eq_of_getLsbD_eq; intro i hi
  simp only [functOf, rFormat, BitVec.getLsbD_append, BitVec.getLsbD_extractLsb']; grind
@[simp] theorem opcodeOf_iFormat : opcodeOf (iFormat op rs rt imm) = op := by
  apply BitVec.eq_of_getLsbD_eq; intro i hi
  simp only [opcodeOf, iFormat, BitVec.getLsbD_append, BitVec.getLsbD_extractLsb']; grind
@[simp] theorem rsOf_iFormat : rsOf (iFormat op rs rt imm) = rs := by
  apply BitVec.eq_of_getLsbD_eq; intro i hi
  simp only [rsOf, iFormat, BitVec.getLsbD_append, BitVec.getLsbD_extractLsb']; grind
@[simp] theorem rtOf_iFormat : rtOf (iFormat op rs rt imm) = rt := by
  apply BitVec.eq_of_getLsbD_eq; intro i hi
  simp only [rtOf, iFormat, BitVec.getLsbD_append, BitVec.getLsbD_extractLsb']; grind
@[simp] theorem immOf_iFormat : immOf (iFormat op rs rt imm) = imm := by
  apply BitVec.eq_of_getLsbD_eq; intro i hi
  simp only [immOf, iFormat, BitVec.getLsbD_append, BitVec.getLsbD_extractLsb']; grind
@[simp] theorem opcodeOf_jFormat : opcodeOf (jFormat op target) = op := by
  apply BitVec.eq_of_getLsbD_eq; intro i hi
  simp only [opcodeOf, jFormat, BitVec.getLsbD_append, BitVec.getLsbD_extractLsb']; grind
@[simp] theorem targetOf_jFormat : targetOf (jFormat op target) = target := by
  apply BitVec.eq_of_getLsbD_eq; intro i hi
  simp only [targetOf, jFormat, BitVec.getLsbD_append, BitVec.getLsbD_extractLsb']; grind
@[simp] theorem opcodeOf_codeFormat : opcodeOf (codeFormat code funct) = 0 := by
  apply BitVec.eq_of_getLsbD_eq; intro i hi
  simp only [opcodeOf, codeFormat, BitVec.getLsbD_append, BitVec.getLsbD_extractLsb']; grind
@[simp] theorem code20Of_codeFormat : code20Of (codeFormat code funct) = code := by
  apply BitVec.eq_of_getLsbD_eq; intro i hi
  simp only [code20Of, codeFormat, BitVec.getLsbD_append, BitVec.getLsbD_extractLsb']; grind
@[simp] theorem functOf_codeFormat : functOf (codeFormat code funct) = funct := by
  apply BitVec.eq_of_getLsbD_eq; intro i hi
  simp only [functOf, codeFormat, BitVec.getLsbD_append, BitVec.getLsbD_extractLsb']; grind
@[simp] theorem opcodeOf_trapFormat : opcodeOf (trapFormat rs rt code10 funct) = 0 := by
  apply BitVec.eq_of_getLsbD_eq; intro i hi
  simp only [opcodeOf, trapFormat, BitVec.getLsbD_append, BitVec.getLsbD_extractLsb']; grind
@[simp] theorem rsOf_trapFormat : rsOf (trapFormat rs rt code10 funct) = rs := by
  apply BitVec.eq_of_getLsbD_eq; intro i hi
  simp only [rsOf, trapFormat, BitVec.getLsbD_append, BitVec.getLsbD_extractLsb']; grind
@[simp] theorem rtOf_trapFormat : rtOf (trapFormat rs rt code10 funct) = rt := by
  apply BitVec.eq_of_getLsbD_eq; intro i hi
  simp only [rtOf, trapFormat, BitVec.getLsbD_append, BitVec.getLsbD_extractLsb']; grind
@[simp] theorem code10Of_trapFormat : code10Of (trapFormat rs rt code10 funct) = code10 := by
  apply BitVec.eq_of_getLsbD_eq; intro i hi
  simp only [code10Of, trapFormat, BitVec.getLsbD_append, BitVec.getLsbD_extractLsb']; grind
@[simp] theorem functOf_trapFormat : functOf (trapFormat rs rt code10 funct) = funct := by
  apply BitVec.eq_of_getLsbD_eq; intro i hi
  simp only [functOf, trapFormat, BitVec.getLsbD_append, BitVec.getLsbD_extractLsb']; grind
end

/-! ## A word from its fields -/

theorem eq_rFormat (w : BusWord) :
    w = rFormat (opcodeOf w) (rsOf w) (rtOf w) (rdOf w) (saOf w) (functOf w) := by
  apply BitVec.eq_of_getLsbD_eq; intro i hi
  simp only [opcodeOf, rsOf, rtOf, rdOf, saOf, functOf, rFormat, BitVec.getLsbD_append, BitVec.getLsbD_extractLsb']; grind
theorem eq_iFormat (w : BusWord) : w = iFormat (opcodeOf w) (rsOf w) (rtOf w) (immOf w) := by
  apply BitVec.eq_of_getLsbD_eq; intro i hi
  simp only [opcodeOf, rsOf, rtOf, immOf, iFormat, BitVec.getLsbD_append, BitVec.getLsbD_extractLsb']; grind
theorem eq_jFormat (w : BusWord) : w = jFormat (opcodeOf w) (targetOf w) := by
  apply BitVec.eq_of_getLsbD_eq; intro i hi
  simp only [opcodeOf, targetOf, jFormat, BitVec.getLsbD_append, BitVec.getLsbD_extractLsb']; grind

/-! ## Words under a mask -/

theorem rFormat_and (op op' : BitVec 6) (a a' b b' c c' d d' : BitVec 5) (f f' : BitVec 6) :
    rFormat op a b c d f &&& rFormat op' a' b' c' d' f' =
      rFormat (op &&& op') (a &&& a') (b &&& b') (c &&& c') (d &&& d') (f &&& f') := by
  apply BitVec.eq_of_getLsbD_eq; intro i hi
  simp only [rFormat, BitVec.getLsbD_append, BitVec.getLsbD_and]; grind
theorem iFormat_and (op op' : BitVec 6) (a a' b b' : BitVec 5) (f f' : BitVec 16) :
    iFormat op a b f &&& iFormat op' a' b' f' =
      iFormat (op &&& op') (a &&& a') (b &&& b') (f &&& f') := by
  apply BitVec.eq_of_getLsbD_eq; intro i hi
  simp only [iFormat, BitVec.getLsbD_append, BitVec.getLsbD_and]; grind

/-- The bits of `rFormat` are in `w` when its fields are in the fields of `w`; the same for the others. -/
theorem rFormat_and_word (w : BusWord) (op : BitVec 6) (a b c d : BitVec 5) (f : BitVec 6) :
    rFormat op a b c d f &&& w = rFormat (op &&& opcodeOf w) (a &&& rsOf w) (b &&& rtOf w)
      (c &&& rdOf w) (d &&& saOf w) (f &&& functOf w) := by
  conv => lhs; rhs; rw [eq_rFormat w]
  rw [rFormat_and]
theorem iFormat_and_word (w : BusWord) (op : BitVec 6) (a b : BitVec 5) (f : BitVec 16) :
    iFormat op a b f &&& w =
      iFormat (op &&& opcodeOf w) (a &&& rsOf w) (b &&& rtOf w) (f &&& immOf w) := by
  conv => lhs; rhs; rw [eq_iFormat w]
  rw [iFormat_and]
theorem jFormat_and_word (w : BusWord) (op : BitVec 6) (a : BitVec 26) :
    jFormat op a &&& w = jFormat (op &&& opcodeOf w) (a &&& targetOf w) := by
  apply BitVec.eq_of_getLsbD_eq; intro i hi
  simp only [jFormat, opcodeOf, targetOf, BitVec.getLsbD_append, BitVec.getLsbD_and,
    BitVec.getLsbD_extractLsb']; grind
theorem codeFormat_and_word (w : BusWord) (a : BitVec 20) (f : BitVec 6) :
    codeFormat a f &&& w = codeFormat (a &&& code20Of w) (f &&& functOf w) := by
  apply BitVec.eq_of_getLsbD_eq; intro i hi
  simp only [codeFormat, code20Of, functOf, BitVec.getLsbD_append, BitVec.getLsbD_and,
    BitVec.getLsbD_extractLsb']; grind
theorem trapFormat_and_word (w : BusWord) (a b : BitVec 5) (c : BitVec 10) (f : BitVec 6) :
    trapFormat a b c f &&& w =
      trapFormat (a &&& rsOf w) (b &&& rtOf w) (c &&& code10Of w) (f &&& functOf w) := by
  apply BitVec.eq_of_getLsbD_eq; intro i hi
  simp only [trapFormat, rsOf, rtOf, code10Of, functOf, BitVec.getLsbD_append, BitVec.getLsbD_and,
    BitVec.getLsbD_extractLsb']; grind

theorem and_primaryMask (w : BusWord) :
    w &&& 0xFC000000#32 = iFormat (opcodeOf w) 0#5 0#5 0#16 := by
  rw [show (0xFC000000#32 : BusWord) = iFormat (BitVec.allOnes 6) 0#5 0#5 0#16 from by decide]
  conv => lhs; lhs; rw [eq_iFormat w]
  simp only [iFormat_and, BitVec.and_allOnes, BitVec.and_zero]
theorem and_specialMask (w : BusWord) :
    w &&& 0xFC00003F#32 = rFormat (opcodeOf w) 0#5 0#5 0#5 0#5 (functOf w) := by
  rw [show (0xFC00003F#32 : BusWord) = rFormat (BitVec.allOnes 6) 0#5 0#5 0#5 0#5 (BitVec.allOnes 6) from by decide]
  conv => lhs; lhs; rw [eq_rFormat w]
  simp only [rFormat_and, BitVec.and_allOnes, BitVec.and_zero]
theorem and_regimmMask (w : BusWord) :
    w &&& 0xFC1F0000#32 = iFormat (opcodeOf w) 0#5 (rtOf w) 0#16 := by
  rw [show (0xFC1F0000#32 : BusWord) = iFormat (BitVec.allOnes 6) 0#5 (BitVec.allOnes 5) 0#16 from by decide]
  conv => lhs; lhs; rw [eq_iFormat w]
  simp only [iFormat_and, BitVec.and_allOnes, BitVec.and_zero]
theorem and_copMask (w : BusWord) :
    w &&& 0xFFE00000#32 = iFormat (opcodeOf w) (rsOf w) 0#5 0#16 := by
  rw [show (0xFFE00000#32 : BusWord) = iFormat (BitVec.allOnes 6) (BitVec.allOnes 5) 0#5 0#16 from by decide]
  conv => lhs; lhs; rw [eq_iFormat w]
  simp only [iFormat_and, BitVec.and_allOnes, BitVec.and_zero]
theorem and_coMask (w : BusWord) :
    w &&& 0xFE00003F#32 = rFormat (opcodeOf w) (rsOf w &&& 0x10#5) 0#5 0#5 0#5 (functOf w) := by
  rw [show (0xFE00003F#32 : BusWord) = rFormat (BitVec.allOnes 6) 0x10#5 0#5 0#5 0#5 (BitVec.allOnes 6) from by decide]
  conv => lhs; lhs; rw [eq_rFormat w]
  simp only [rFormat_and, BitVec.and_allOnes, BitVec.and_zero]

/-! ## Bytes -/

theorem wordOfBytes_of_word (w : BusWord) :
    wordOfBytes (w.extractLsb' 24 8) (w.extractLsb' 16 8) (w.extractLsb' 8 8) (w.extractLsb' 0 8) = w := by
  apply BitVec.eq_of_getLsbD_eq; intro i hi
  simp only [wordOfBytes, BitVec.getLsbD_append, BitVec.getLsbD_extractLsb']; grind

/-- The byte decoder reads a word from the four bytes it lies in. -/
theorem decodeBytes_bytesOfWord (w : BusWord) (rest : List Byte) :
    decodeBytes (bytesOfWord w ++ rest) = match decode w with
      | .ok i => .ok (i, rest)
      | .error e => .error e := by
  conv => rhs; rw [← wordOfBytes_of_word w]
  rfl

end Sys2Proof
end

