-- ==== Sys2Proof/Laws/LoadStore.lean ====
section
/-! SUPPORT. The sized accesses byte by byte: what a load reads and what a store leaves, in either byte
order (spec/20_memory.md R240 to R249). -/

namespace Sys2Proof.Machine

open State

/-! ## One byte -/

/-- The place, counted from the least significant end, of the byte at `va` in its bus word (R241). -/
def byteLane (be : Bool) (va : Addr) : Nat := if be then 3 - va.toNat % 4 else va.toNat % 4

theorem byteLane_lt (be : Bool) (va : Addr) : byteLane be va < 4 := by
  unfold byteLane; split <;> omega

/-- The cell of any byte of a bus word whose cell is known. -/
theorem byteCell_eq {s : State} {va vb : Addr} {c : Nat} (hs : inSegment va = true)
    (hc : memCell s.params.busMap (wordBase (physical va)).toNat = some c)
    (h : vb.toNat / 4 = va.toNat / 4) : byteCell s vb = some (c + (3 - byteLane s.be vb)) := by
  rw [byteCell, sameWord_inSegment h, if_pos hs, sameWord_physical h, hc, byteLane]
  have e : (getField vb 0 2).toNat = vb.toNat % 4 := by rw [toNat_getField]; omega
  rw [e]
  cases s.be
  · rfl
  · show some _ = some _
    congr 1
    show c + vb.toNat % 4 = c + (3 - (3 - vb.toNat % 4))
    omega

/-- The byte at an address of a bus word whose cell is known. -/
theorem guestByte_eq {s : State} {va vb : Addr} {c : Nat} (hs : inSegment va = true)
    (hc : memCell s.params.busMap (wordBase (physical va)).toNat = some c)
    (h : vb.toNat / 4 = va.toNat / 4) :
    guestByte s vb = (Memory.readWord s.mem c).extractLsb' (8 * byteLane s.be vb) 8 := by
  have hl := byteLane_lt s.be vb
  rw [guestByte, byteCell_eq hs hc h]
  show Memory.read s.mem _ = _
  rw [read_readWord _ _ _ (by omega), show 3 - (3 - byteLane s.be vb) = byteLane s.be vb by omega]

theorem toNat_lane (be : Bool) (pa : Addr) (n : Nat) (h : n = 1 ∨ n = 2) (ha : pa.toNat % n = 0) :
    lane be pa n = 8 * (if be then 4 - n - pa.toNat % 4 else pa.toNat % 4) := by
  have e : (getField pa 0 2).toNat = pa.toNat % 4 := by rw [toNat_getField]; omega
  unfold lane
  cases be
  · rw [if_neg (by decide), if_neg (by decide), e]; omega
  · rw [if_pos rfl, if_pos rfl, BitVec.toNat_xor, e]
    have : pa.toNat % 4 < 4 := Nat.mod_lt _ (by decide)
    rcases h with rfl | rfl
    · rcases (by omega : pa.toNat % 4 = 0 ∨ pa.toNat % 4 = 1 ∨ pa.toNat % 4 = 2 ∨ pa.toNat % 4 = 3)
        with h | h | h | h <;> rw [h] <;> rfl
    · rcases (by omega : pa.toNat % 4 = 0 ∨ pa.toNat % 4 = 2) with h | h <;> rw [h] <;> rfl

/-! ## The value at an address -/

theorem guestValue_one (s : State) (va : Addr) : guestValue s va 1 = (guestByte s va).toNat := by
  cases h : s.be <;> simp [guestValue, addrRange, joinBytes, h, List.range_succ]

theorem guestValue_two (s : State) (va : Addr) : guestValue s va 2 =
    if s.be then (guestByte s va).toNat * 2 ^ 8 + (guestByte s (va + 1)).toNat
    else (guestByte s (va + 1)).toNat * 2 ^ 8 + (guestByte s va).toNat := by
  cases h : s.be <;> simp [guestValue, addrRange, joinBytes, h, List.range_succ]

theorem guestValue_four (s : State) (va : Addr) : guestValue s va 4 =
    if s.be then (guestByte s va).toNat * 2 ^ 24 + (guestByte s (va + 1)).toNat * 2 ^ 16 +
      (guestByte s (va + 2)).toNat * 2 ^ 8 + (guestByte s (va + 3)).toNat
    else (guestByte s (va + 3)).toNat * 2 ^ 24 + (guestByte s (va + 2)).toNat * 2 ^ 16 +
      (guestByte s (va + 1)).toNat * 2 ^ 8 + (guestByte s va).toNat := by
  cases h : s.be <;> simp [guestValue, addrRange, joinBytes, h, List.range_succ] <;> omega

theorem guestValue_eight (s : State) (va : Addr) : guestValue s va 8 =
    if s.be then guestValue s va 4 * 2 ^ 32 + guestValue s (va + 4) 4
    else guestValue s (va + 4) 4 * 2 ^ 32 + guestValue s va 4 := by
  cases h : s.be <;>
    simp [guestValue, addrRange, joinBytes, h, List.range_succ, BitVec.add_assoc] <;> omega

/-- The value of an aligned word is its bus word, in either byte order. -/
theorem guestValue_word {s : State} {va : Addr} {c : Nat} (hs : inSegment va = true)
    (hc : memCell s.params.busMap (wordBase (physical va)).toNat = some c) (ha : va.toNat % 4 = 0) :
    guestValue s va 4 = (Memory.readWord s.mem c).toNat := by
  have hw := (Memory.readWord s.mem c).isLt
  have hlt := (inSegment_iff va).1 hs
  have n1 : (va + 1).toNat = va.toNat + 1 := by rw [BitVec.toNat_add]; simp; omega
  have n2 : (va + 2).toNat = va.toNat + 2 := by rw [BitVec.toNat_add]; simp; omega
  have n3 : (va + 3).toNat = va.toNat + 3 := by rw [BitVec.toNat_add]; simp; omega
  rw [guestValue_four, guestByte_eq hs hc rfl, guestByte_eq hs hc (vb := va + 1) (by omega),
    guestByte_eq hs hc (vb := va + 2) (by omega), guestByte_eq hs hc (vb := va + 3) (by omega)]
  simp only [BitVec.extractLsb'_toNat, byteLane, n1, n2, n3, Nat.shiftRight_eq_div_pow]
  cases s.be
  · simp only [show va.toNat % 4 = 0 from ha, show (va.toNat + 1) % 4 = 1 by omega,
      show (va.toNat + 2) % 4 = 2 by omega, show (va.toNat + 3) % 4 = 3 by omega]
    simp; omega
  · simp only [show va.toNat % 4 = 0 from ha, show (va.toNat + 1) % 4 = 1 by omega,
      show (va.toNat + 2) % 4 = 2 by omega, show (va.toNat + 3) % 4 = 3 by omega]
    simp; omega

/-! ## Loads -/

theorem memRead8_eq {s : State} {va : Addr} (h : ramReadable s va = true) :
    memRead8 s va = .next (BitVec.ofNat 8 (guestValue s va 1)) := by
  obtain ⟨hs, c, hc, hr⟩ := ramReadable_cell h
  have hb := hr s.mem
  rw [show s.setMem s.mem = s from rfl] at hb
  rw [memRead8, memReadSub, checkAligned_ok (Nat.mod_one _), translate_inSegment hs, andThen_next, hb,
    andThen_next, guestValue_one, guestByte_eq hs hc rfl,
    toNat_lane _ _ 1 (.inl rfl) (Nat.mod_one _), toNat_physical]
  congr 1
  apply BitVec.eq_of_toNat_eq
  have e : va.toNat % 2 ^ 29 % 4 = va.toNat % 4 := by omega
  simp only [BitVec.toNat_setWidth, BitVec.toNat_ushiftRight, BitVec.extractLsb'_toNat, byteLane, e,
    BitVec.toNat_ofNat, Nat.mod_mod]

theorem memRead16_eq {s : State} {va : Addr} (h : ramReadable s va = true) (ha : va.toNat % 2 = 0) :
    memRead16 s va = .next (BitVec.ofNat 16 (guestValue s va 2)) := by
  obtain ⟨hs, c, hc, hr⟩ := ramReadable_cell h
  have hb := hr s.mem
  rw [show s.setMem s.mem = s from rfl] at hb
  have hlt := (inSegment_iff va).1 hs
  have n1 : (va + 1).toNat = va.toNat + 1 := by rw [BitVec.toNat_add]; simp; omega
  rw [memRead16, memReadSub, checkAligned_ok ha, translate_inSegment hs, andThen_next, hb, andThen_next,
    guestValue_two, guestByte_eq hs hc rfl, guestByte_eq hs hc (vb := va + 1) (by omega),
    toNat_lane _ _ 2 (.inr rfl) (by rw [toNat_physical]; omega), toNat_physical]
  congr 1
  apply BitVec.eq_of_toNat_eq
  have e : va.toNat % 2 ^ 29 % 4 = va.toNat % 4 := by omega
  simp only [BitVec.toNat_setWidth, BitVec.toNat_ushiftRight, BitVec.extractLsb'_toNat, byteLane, e, n1,
    BitVec.toNat_ofNat, Nat.shiftRight_eq_div_pow]
  rcases (by omega : va.toNat % 4 = 0 ∨ va.toNat % 4 = 2) with h0 | h0
  · simp only [h0, show (va.toNat + 1) % 4 = 1 by omega]
    cases s.be <;> simp <;> omega
  · simp only [h0, show (va.toNat + 1) % 4 = 3 by omega]
    cases s.be <;> simp <;> omega

theorem memRead32_word {s : State} {va : Addr} {c : Nat} (h : ramReadable s va = true)
    (ha : va.toNat % 4 = 0) (hc : memCell s.params.busMap (wordBase (physical va)).toNat = some c) :
    memRead32 s va = .next (Memory.readWord s.mem c) := by
  obtain ⟨hs, d, hd, hr⟩ := ramReadable_cell h
  have hb := hr s.mem
  rw [show s.setMem s.mem = s from rfl] at hb
  rw [memRead32, checkAligned_ok ha, translate_inSegment hs, andThen_next, ← wordBase_physical ha, hb,
    Option.some.inj (hc.symm.trans hd)]

theorem memRead32_eq {s : State} {va : Addr} (h : ramReadable s va = true) (ha : va.toNat % 4 = 0) :
    memRead32 s va = .next (BitVec.ofNat 32 (guestValue s va 4)) := by
  obtain ⟨hs, c, hc, -⟩ := ramReadable_cell h
  rw [memRead32_word h ha hc, guestValue_word hs hc ha, BitVec.ofNat_toNat, BitVec.setWidth_eq]

theorem fetch_eq_memRead32 (s : State) (va : Addr) : fetch s va = memRead32 s va := rfl

theorem memRead64_word {s : State} {va : Addr} {c d : Nat} (h : ramReadable s va = true)
    (h4 : ramReadable s (va + 4) = true) (ha : va.toNat % 8 = 0)
    (hc : memCell s.params.busMap (wordBase (physical va)).toNat = some c)
    (hd : memCell s.params.busMap (wordBase (physical (va + 4))).toNat = some d) :
    memRead64 s va = .next (if s.be then Memory.readWord s.mem c ++ Memory.readWord s.mem d
      else Memory.readWord s.mem d ++ Memory.readWord s.mem c) := by
  obtain ⟨hs, c', hc', hr⟩ := ramReadable_cell h
  obtain ⟨hs4, d', hd', hr4⟩ := ramReadable_cell h4
  have hb := hr s.mem
  have hb4 := hr4 s.mem
  have n4 := toNat_add_four hs
  rw [show s.setMem s.mem = s from rfl] at hb hb4
  rw [wordBase_physical (by omega)] at hb hb4
  rw [memRead64, checkAligned_ok ha, translate_inSegment hs, andThen_next, hb, andThen_next,
    ← physical_add_four ha, hb4, andThen_next, Option.some.inj (hc.symm.trans hc'),
    Option.some.inj (hd.symm.trans hd')]

theorem memRead64_eq {s : State} {va : Addr} (h : ramReadable s va = true)
    (h4 : ramReadable s (va + 4) = true) (ha : va.toNat % 8 = 0) :
    memRead64 s va = .next (BitVec.ofNat 64 (guestValue s va 8)) := by
  obtain ⟨hs, c, hc, -⟩ := ramReadable_cell h
  obtain ⟨hs4, d, hd, -⟩ := ramReadable_cell h4
  have n4 := toNat_add_four hs
  rw [memRead64_word h h4 ha hc hd, guestValue_eight, guestValue_word hs hc (by omega),
    guestValue_word hs4 hd (by omega)]
  congr 1
  apply BitVec.eq_of_toNat_eq
  have l1 := (Memory.readWord s.mem c).isLt
  have l2 := (Memory.readWord s.mem d).isLt
  cases s.be
  · rw [if_neg (by decide), if_neg (by decide), BitVec.toNat_append,
      ← Nat.shiftLeft_add_eq_or_of_lt (BitVec.isLt _), Nat.shiftLeft_eq, BitVec.toNat_ofNat]
    omega
  · rw [if_pos rfl, if_pos rfl, BitVec.toNat_append,
      ← Nat.shiftLeft_add_eq_or_of_lt (BitVec.isLt _), Nat.shiftLeft_eq, BitVec.toNat_ofNat]
    omega

/-! ## Values as register contents -/

theorem effAddr_eq (s : State) (base : RegIdx) (off : BitVec 16) :
    effAddr s base off = BitVec.ofInt 64 ((s.x base).toInt + off.toInt) := by
  rw [effAddr, BitVec.ofInt_add, BitVec.ofInt_toInt, ← toInt_simm off, BitVec.ofInt_toInt]

theorem sext64_ofNat (n : Nat) (h : n ≤ 64) (g : Nat) :
    sext64 (BitVec.ofNat n g) = BitVec.ofInt 64 ((g : Int).bmod (2 ^ n)) := by
  rw [sext64_eq_ofInt _ h, BitVec.toInt_ofNat']

theorem zext64_ofNat (n : Nat) (h : n ≤ 64) (g : Nat) (hg : g < 2 ^ n) :
    zext64 (BitVec.ofNat n g) = BitVec.ofInt 64 (g : Int) := by
  apply BitVec.eq_of_toNat_eq
  simp [zext64]
  have : 2 ^ n ≤ 2 ^ 64 := Nat.pow_le_pow_right (by decide) h
  rw [Nat.mod_eq_of_lt hg]

theorem joinBytes_lt (l : List Byte) : joinBytes l < 2 ^ (8 * l.length) := by
  induction l with
  | nil => decide
  | cons b r ih =>
    have := b.isLt
    simp only [joinBytes, List.length_cons, Nat.mul_add, Nat.pow_add]
    have h256 : 256 ^ r.length = 2 ^ (8 * r.length) := by rw [show 256 = 2 ^ 8 from rfl, ← Nat.pow_mul]
    rw [h256]
    have : b.toNat * 2 ^ (8 * r.length) ≤ 255 * 2 ^ (8 * r.length) := Nat.mul_le_mul_right _ (by omega)
    omega

theorem guestValue_lt (s : State) (va : Addr) (n : Nat) : guestValue s va n < 2 ^ (8 * n) := by
  have h := joinBytes_lt (if s.be then (addrRange va n).map (guestByte s)
    else ((addrRange va n).map (guestByte s)).reverse)
  have hl : (if s.be then (addrRange va n).map (guestByte s)
      else ((addrRange va n).map (guestByte s)).reverse).length = n := by split <;> simp [addrRange]
  rw [hl] at h
  exact h

/-- The value LL and LLD leave in LLAddr, R860, R137. -/
theorem llAddr_eq (va : Addr) :
    sext64 (lo32 (physical va >>> 4)) = BitVec.ofNat 64 (va.toNat % 2 ^ 29 / 16) := by
  have : (lo32 (physical va >>> 4)).toNat = va.toNat % 2 ^ 29 / 16 := by
    rw [toNat_lo32, BitVec.toNat_ushiftRight, toNat_physical, Nat.shiftRight_eq_div_pow]; omega
  rw [sext64_eq_ofInt _ (by decide), BitVec.toInt_eq_toNat_bmod, this,
    bmod_eq_self_32 _ (by omega) (by omega), BitVec.ofInt_natCast]

end Sys2Proof.Machine
end

