-- ==== Sys2Proof/Laws/Merge.lean ====
section
/-! SUPPORT. The merges of sub-word stores and of the left and right forms byte by byte, and the frame of
a store (spec/20_memory.md R244, spec/44_load_store.md section 4). -/

namespace Sys2Proof.Machine

open State

/-! ## Merges, bit by bit and byte by byte -/

theorem getLsbD_mergeLane {k : Nat} (w : BusWord) (sh : Nat) (v : BitVec k) (h : sh + k ≤ 32) (b : Nat)
    (hb : b < 32) :
    (mergeLane w sh v).getLsbD b = if sh ≤ b ∧ b < sh + k then v.getLsbD (b - sh) else w.getLsbD b := by
  unfold mergeLane
  simp only [BitVec.getLsbD_or, BitVec.getLsbD_and, BitVec.getLsbD_not, BitVec.getLsbD_shiftLeft,
    BitVec.getLsbD_setWidth, BitVec.getLsbD_ofNat, Nat.testBit_two_pow_sub_one, hb]
  by_cases h1 : b < sh
  · simp [h1, show ¬ sh ≤ b by omega]
  · by_cases h2 : b - sh < k
    · simp [h1, h2, show sh ≤ b by omega, show b < sh + k by omega, show b - sh < 32 by omega]
    · simp [h1, h2, show ¬ b < sh + k by omega]

theorem getLsbD_mergeLoadLeft {w : Nat} (m r : BitVec w) (s : Nat) (b : Nat) (hb : b < w) :
    (mergeLoadLeft m r s).getLsbD b = if b < 8 * s then r.getLsbD b else m.getLsbD (b - 8 * s) := by
  unfold mergeLoadLeft lowBytes
  simp only [BitVec.getLsbD_or, BitVec.getLsbD_and, BitVec.getLsbD_shiftLeft, BitVec.getLsbD_ofNat,
    Nat.testBit_two_pow_sub_one, hb]
  by_cases h1 : b < 8 * s <;> simp [h1]

theorem getLsbD_mergeLoadRight {w : Nat} (m r : BitVec w) (t : Nat) (b : Nat) (hb : b < w) :
    (mergeLoadRight m r t).getLsbD b =
      if b + 8 * t < w then m.getLsbD (b + 8 * t) else r.getLsbD b := by
  unfold mergeLoadRight
  simp only [BitVec.getLsbD_or, BitVec.getLsbD_and, BitVec.getLsbD_not, BitVec.getLsbD_ushiftRight,
    BitVec.getLsbD_allOnes, hb, Nat.add_comm (8 * t) b]
  by_cases h1 : b + 8 * t < w
  · simp [h1]
  · simp [h1, BitVec.getLsbD_of_ge m _ (Nat.le_of_not_lt h1)]

theorem getLsbD_mergeStoreLeft {w : Nat} (m r : BitVec w) (s : Nat) (b : Nat) (hb : b < w) :
    (mergeStoreLeft m r s).getLsbD b =
      if b + 8 * s < w then r.getLsbD (b + 8 * s) else m.getLsbD b := by
  unfold mergeStoreLeft
  simp only [BitVec.getLsbD_or, BitVec.getLsbD_and, BitVec.getLsbD_not, BitVec.getLsbD_ushiftRight,
    BitVec.getLsbD_allOnes, hb, Nat.add_comm (8 * s) b]
  by_cases h1 : b + 8 * s < w
  · simp [h1]
  · simp [h1, BitVec.getLsbD_of_ge r _ (Nat.le_of_not_lt h1)]

theorem getLsbD_mergeStoreRight {w : Nat} (m r : BitVec w) (t : Nat) (b : Nat) (hb : b < w) :
    (mergeStoreRight m r t).getLsbD b = if b < 8 * t then m.getLsbD b else r.getLsbD (b - 8 * t) := by
  unfold mergeStoreRight
  simp only [BitVec.getLsbD_or, BitVec.getLsbD_and, BitVec.getLsbD_not, BitVec.getLsbD_shiftLeft,
    BitVec.getLsbD_allOnes, hb]
  by_cases h1 : b < 8 * t
  · simp [h1]
  · simp [h1, show b - 8 * t < w by omega]

theorem mergeLane_byte {k : Nat} (w : BusWord) (j n : Nat) (v : BitVec k) (hk : k = 8 * n)
    (h : j + n ≤ 4) (i : Nat) (hi : i < 4) : (mergeLane w (8 * j) v).extractLsb' (8 * i) 8 =
      if j ≤ i ∧ i < j + n then v.extractLsb' (8 * (i - j)) 8 else w.extractLsb' (8 * i) 8 := by
  apply BitVec.eq_of_getLsbD_eq
  intro b hb
  rw [BitVec.getLsbD_extractLsb', getLsbD_mergeLane _ _ _ (by omega) _ (by omega)]
  split
  · rw [if_pos (by omega), BitVec.getLsbD_extractLsb']; simp [hb]; congr 1; omega
  · rw [if_neg (by omega), BitVec.getLsbD_extractLsb']

theorem mergeLoadLeft_byte {w : Nat} (n : Nat) (hw : w = 8 * n) (m r : BitVec w) (s : Nat)
    (i : Nat) (hi : i < n) : (mergeLoadLeft m r s).extractLsb' (8 * i) 8 =
      if i < s then r.extractLsb' (8 * i) 8 else m.extractLsb' (8 * (i - s)) 8 := by
  apply BitVec.eq_of_getLsbD_eq
  intro b hb
  rw [BitVec.getLsbD_extractLsb', getLsbD_mergeLoadLeft _ _ _ _ (by omega)]
  split
  · rw [if_pos (by omega), BitVec.getLsbD_extractLsb']
  · rw [if_neg (by omega), BitVec.getLsbD_extractLsb']; simp [hb]; congr 1; omega

theorem mergeLoadRight_byte {w : Nat} (n : Nat) (hw : w = 8 * n) (m r : BitVec w) (t : Nat)
    (i : Nat) (hi : i < n) : (mergeLoadRight m r t).extractLsb' (8 * i) 8 =
      if i + t < n then m.extractLsb' (8 * (i + t)) 8 else r.extractLsb' (8 * i) 8 := by
  apply BitVec.eq_of_getLsbD_eq
  intro b hb
  rw [BitVec.getLsbD_extractLsb', getLsbD_mergeLoadRight _ _ _ _ (by omega)]
  split
  · rw [if_pos (by omega), BitVec.getLsbD_extractLsb']; simp [hb]; congr 1; omega
  · rw [if_neg (by omega), BitVec.getLsbD_extractLsb']

theorem mergeStoreLeft_byte {w : Nat} (n : Nat) (hw : w = 8 * n) (m r : BitVec w) (s : Nat)
    (i : Nat) (hi : i < n) : (mergeStoreLeft m r s).extractLsb' (8 * i) 8 =
      if i + s < n then r.extractLsb' (8 * (i + s)) 8 else m.extractLsb' (8 * i) 8 := by
  apply BitVec.eq_of_getLsbD_eq
  intro b hb
  rw [BitVec.getLsbD_extractLsb', getLsbD_mergeStoreLeft _ _ _ _ (by omega)]
  split
  · rw [if_pos (by omega), BitVec.getLsbD_extractLsb']; simp [hb]; congr 1; omega
  · rw [if_neg (by omega), BitVec.getLsbD_extractLsb']

theorem mergeStoreRight_byte {w : Nat} (n : Nat) (hw : w = 8 * n) (m r : BitVec w) (t : Nat)
    (i : Nat) (hi : i < n) : (mergeStoreRight m r t).extractLsb' (8 * i) 8 =
      if i < t then m.extractLsb' (8 * i) 8 else r.extractLsb' (8 * (i - t)) 8 := by
  apply BitVec.eq_of_getLsbD_eq
  intro b hb
  rw [BitVec.getLsbD_extractLsb', getLsbD_mergeStoreRight _ _ _ _ (by omega)]
  split
  · rw [if_pos (by omega), BitVec.getLsbD_extractLsb']
  · rw [if_neg (by omega), BitVec.getLsbD_extractLsb']; simp [hb]; congr 1; omega

/-! ## The frame of a store -/

/-- A word write changes no cell but those where its bytes differ. -/
theorem writeWord_frame {m m0 : List Host.Cell} (hwf : Memory.wf m = true) {c : Nat} {w : BusWord}
    {cells : List Nat}
    (hw : ∀ q, q < 4 → c + q ∈ cells ∨ w.extractLsb' (8 * (3 - q)) 8 = Memory.read m0 (c + q))
    (h0 : ∀ a, a ∉ cells → Memory.read m a = Memory.read m0 a) :
    ∀ a, a ∉ cells → Memory.read (Memory.writeWord m c w) a = Memory.read m0 a := by
  intro a ha
  by_cases hin : a < c ∨ c + 4 ≤ a
  · rw [Memory.read_writeWord_outside _ _ _ _ hin, h0 a ha]
  · obtain ⟨q, rfl⟩ : ∃ q, a = c + q := ⟨a - c, by omega⟩
    rw [Memory.read_writeWord_byte _ _ _ _ (by omega) hwf]
    exact (hw q (by omega)).resolve_left ha

/-- A cell of an address range is among the cells of the range. -/
theorem mem_cells {s : State} {lo vb : Addr} {n c : Nat} (k : Nat) (hk : k < n)
    (hv : vb = lo + BitVec.ofNat 64 k) (hc : byteCell s vb = some c) :
    c ∈ (addrRange lo n).filterMap (byteCell s) := by
  rw [List.mem_filterMap]
  exact ⟨vb, by rw [addrRange, List.mem_map]; exact ⟨k, List.mem_range.2 hk, hv.symm⟩, hc⟩

/-- An address at or above another, as an offset from it. -/
theorem eq_add_ofNat {lo vb : Addr} {k : Nat} (h : vb.toNat = lo.toNat + k) :
    vb = lo + BitVec.ofNat 64 k := by
  apply BitVec.eq_of_toNat_eq
  have := vb.isLt
  rw [BitVec.toNat_add, BitVec.toNat_ofNat]
  omega

/-- The address of a bus word with a given lane, near `va`. -/
theorem exists_lane (be : Bool) (va : Addr) (l : Nat) (hl : l < 4) :
    ∃ vb : Addr, vb.toNat / 4 = va.toNat / 4 ∧ byteLane be vb = l ∧
      vb.toNat = va.toNat / 4 * 4 + (if be then 3 - l else l) := by
  have hv := va.isLt
  refine ⟨BitVec.ofNat 64 (va.toNat / 4 * 4 + (if be then 3 - l else l)), ?_, ?_, ?_⟩
  all_goals
    have e : (BitVec.ofNat 64 (va.toNat / 4 * 4 + (if be then 3 - l else l))).toNat =
        va.toNat / 4 * 4 + (if be then 3 - l else l) := by
      rw [BitVec.toNat_ofNat]; cases be <;> simp <;> omega
  · rw [e]; cases be <;> simp <;> omega
  · rw [byteLane, e]; cases be <;> simp <;> omega
  · exact e

end Sys2Proof.Machine
end

