-- ==== Sys2Proof/Laws/Stores.lean ====
section
/-! SUPPORT. The stores: no store changes a cell outside `storedCells`, and the bytes each leaves
(spec/44_load_store.md R820 to R823, R842, R843, R846, R847). -/

namespace Sys2Proof.Machine

open State

/-! ## Frames -/

/-- A word write changes no cell outside those of `n` bytes from `lo` on, when every byte of the word
outside them is written back as it was. -/
theorem word_frame {s : State} {m : List Host.Cell} {va lo : Addr} {n c : Nat} {w : BusWord}
    (hwf : Memory.wf m = true) (hs : inSegment va = true)
    (hc : memCell s.params.busMap (wordBase (physical va)).toNat = some c)
    (hw : ∀ l, l < 4 →
      (lo.toNat ≤ va.toNat / 4 * 4 + (if s.be then 3 - l else l) ∧
        va.toNat / 4 * 4 + (if s.be then 3 - l else l) < lo.toNat + n) ∨
      w.extractLsb' (8 * l) 8 = (Memory.readWord s.mem c).extractLsb' (8 * l) 8)
    (h0 : ∀ a, a ∉ (addrRange lo n).filterMap (byteCell s) → Memory.read m a = Memory.read s.mem a) :
    ∀ a, a ∉ (addrRange lo n).filterMap (byteCell s) →
      Memory.read (Memory.writeWord m c w) a = Memory.read s.mem a := by
  apply writeWord_frame hwf _ h0
  intro q hq
  rcases hw (3 - q) (by omega) with h | h
  · obtain ⟨vb, hv1, hv2, hv3⟩ := exists_lane s.be va (3 - q) (by omega)
    refine .inl (mem_cells (lo := lo) (vb := vb) (vb.toNat - lo.toNat) (by omega) (eq_add_ofNat (by omega)) ?_)
    rw [byteCell_eq hs hc hv1, hv2]
    congr 1; omega
  · exact .inr (h.trans (by rw [read_readWord _ _ _ hq]))

theorem memWriteSub_frame {s t : State} {va : Addr} {n k : Nat} {v : BitVec k} (hn : n = 1 ∨ n = 2)
    (hk : k = 8 * n) (hwf : Memory.wf s.mem = true) (h : memWriteSub s va n v = .next t) :
    ∀ a, a ∉ (addrRange va n).filterMap (byteCell s) → Memory.read t.mem a = Memory.read s.mem a := by
  obtain ⟨ha, hs, c, hc, rfl⟩ := memWriteSub_cell h
  have hp : (physical va).toNat % 4 = va.toNat % 4 := by rw [toNat_physical]; omega
  have hpn : (physical va).toNat % n = 0 := by rw [toNat_physical]; rcases hn with rfl | rfl <;> omega
  refine word_frame hwf hs hc (fun l hl => ?_) (fun _ _ => rfl)
  rw [toNat_lane _ _ _ hn hpn, hp]
  generalize hj : (if s.be = true then 4 - n - va.toNat % 4 else va.toNat % 4) = j
  have hjn : j + n ≤ 4 := by
    subst hj; rcases hn with rfl | rfl <;> cases s.be <;> simp <;> omega
  rw [mergeLane_byte _ _ n v hk hjn _ hl]
  by_cases h : j ≤ l ∧ l < j + n
  · left
    subst hj
    revert h
    rcases hn with rfl | rfl <;> cases s.be <;> simp <;> omega
  · exact .inr (if_neg h)

theorem memWrite32_frame {s t : State} {va : Addr} {v : BitVec 32} (hwf : Memory.wf s.mem = true)
    (h : memWrite32 s va v = .next t) :
    ∀ a, a ∉ (addrRange va 4).filterMap (byteCell s) → Memory.read t.mem a = Memory.read s.mem a := by
  obtain ⟨ha, hs, c, hc, rfl⟩ := memWrite32_cell h
  refine word_frame hwf hs hc (fun l hl => .inl ?_) (fun _ _ => rfl)
  cases s.be <;> simp <;> omega

/-- The two words of a doubleword in memory as one value, R246. -/
def dwordOf (be : Bool) (w0 w1 : BusWord) : BitVec 64 := if be then w0 ++ w1 else w1 ++ w0

/-- The place of the byte at `va` in its doubleword, counted from the least significant end. -/
def byteLane8 (be : Bool) (va : Addr) : Nat := if be then 7 - va.toNat % 8 else va.toNat % 8

theorem dwordOf_byte (be : Bool) (w0 w1 : BusWord) (i : Nat) (hi : i < 8) :
    (dwordOf be w0 w1).extractLsb' (8 * i) 8 =
      if i < 4 then (if be then w1 else w0).extractLsb' (8 * i) 8
      else (if be then w0 else w1).extractLsb' (8 * (i - 4)) 8 := by
  apply BitVec.eq_of_getLsbD_eq
  intro b hb
  unfold dwordOf
  by_cases h : i < 4
  · rw [if_pos h]
    cases be <;> simp only [Bool.false_eq_true, if_false, if_true, BitVec.getLsbD_extractLsb',
      BitVec.getLsbD_append, hb, show 8 * i + b < 32 by omega]
  · rw [if_neg h]
    cases be <;> simp only [Bool.false_eq_true, if_false, if_true, BitVec.getLsbD_extractLsb',
      BitVec.getLsbD_append, hb, show ¬ 8 * i + b < 32 by omega,
      show 8 * i + b - 32 = 8 * (i - 4) + b by omega]

/-- A doubleword write changes no cell outside those of `n` bytes from `lo` on, when every byte outside
them is written back as it was. -/
theorem dword_frame {s t : State} {va lo : Addr} {n c d : Nat} {v : BitVec 64}
    (hwf : Memory.wf s.mem = true)
    (hc : memCell s.params.busMap (wordBase (physical va)).toNat = some c)
    (hd : memCell s.params.busMap (wordBase (physical (va + 4))).toNat = some d)
    (h : memWrite64 s va v = .next t)
    (hw : ∀ i, i < 8 →
      (lo.toNat ≤ va.toNat + (if s.be then 7 - i else i) ∧
        va.toNat + (if s.be then 7 - i else i) < lo.toNat + n) ∨
      v.extractLsb' (8 * i) 8 = (dwordOf s.be (Memory.readWord s.mem c)
        (Memory.readWord s.mem d)).extractLsb' (8 * i) 8) :
    ∀ a, a ∉ (addrRange lo n).filterMap (byteCell s) → Memory.read t.mem a = Memory.read s.mem a := by
  obtain ⟨ha, hs, c', d', hc', hd', rfl⟩ := memWrite64_cell h
  obtain rfl := Option.some.inj (hc.symm.trans hc')
  obtain rfl := Option.some.inj (hd.symm.trans hd')
  have n4 := toNat_add_four hs
  have e0 : ∀ (x : BitVec 64) (l : Nat), l < 4 →
      (x.extractLsb' 0 32).extractLsb' (8 * l) 8 = x.extractLsb' (8 * l) 8 := by
    intro x l hl
    apply BitVec.eq_of_getLsbD_eq
    intro b hb
    simp only [BitVec.getLsbD_extractLsb', hb, show 8 * l + b < 32 by omega, Nat.zero_add,
      decide_true, Bool.true_and]
  have e1 : ∀ (x : BitVec 64) (l : Nat), l < 4 →
      (x.extractLsb' 32 32).extractLsb' (8 * l) 8 = x.extractLsb' (8 * (l + 4)) 8 := by
    intro x l hl
    apply BitVec.eq_of_getLsbD_eq
    intro b hb
    simp only [BitVec.getLsbD_extractLsb', hb, show 8 * l + b < 32 by omega,
      decide_true, Bool.true_and]
    congr 1; omega
  refine word_frame (Memory.wf_writeWord _ _ _ hwf) (inSegment_add_four hs ha) hd (fun l hl => ?_)
    (word_frame hwf hs hc (fun l hl => ?_) (fun _ _ => rfl))
  all_goals
    have h1 := hw l (by omega)
    have h2 := hw (l + 4) (by omega)
    rw [dwordOf_byte _ _ _ _ (by omega)] at h1 h2
    rw [if_pos hl] at h1
    rw [if_neg (show ¬ l + 4 < 4 by omega), Nat.add_sub_cancel] at h2
    cases hb : s.be <;> rw [hb] at h1 h2 <;>
      simp only [Bool.false_eq_true, if_false, if_true, e0 _ _ hl, e1 _ _ hl] at h1 h2 ⊢ <;>
      first
        | exact h1.imp (fun h => by omega) id
        | exact h2.imp (fun h => by omega) id

/-! The left and right stores. `lo` and `n` are the first address and the number of the bytes stored to. -/

theorem swl_frame {s t : State} {va : Addr} {w : BusWord} {r : BitVec 32} (hwf : Memory.wf s.mem = true)
    (hr : memRead32 s (wordBase va) = .next w)
    (h : memWrite32 s (wordBase va) (mergeStoreLeft w r (leftShift4 s.be va)) = .next t) :
    ∀ a, a ∉ (if s.be then addrRange va (4 - offset4 va)
        else addrRange (wordBase va) (offset4 va + 1)).filterMap (byteCell s) →
      Memory.read t.mem a = Memory.read s.mem a := by
  obtain ⟨-, hs, c, hc, rfl⟩ := memRead32_cell hr
  obtain ⟨-, -, d, hd, rfl⟩ := memWrite32_cell h
  obtain rfl := Option.some.inj (hc.symm.trans hd)
  have wb := toNat_wordBase va
  simp only [leftShift4, offset4_eq]
  cases hb : s.be
  · simp only [Bool.false_eq_true, if_false]
    refine word_frame hwf hs hc (fun l hl => ?_) (fun _ _ => rfl)
    rw [hb, mergeStoreLeft_byte 4 rfl _ _ _ _ hl, wb]
    by_cases hh : l + (3 - va.toNat % 4) < 4
    · left; simp; omega
    · exact .inr (if_neg hh)
  · simp only [if_true]
    refine word_frame hwf hs hc (fun l hl => ?_) (fun _ _ => rfl)
    rw [hb, mergeStoreLeft_byte 4 rfl _ _ _ _ hl, wb]
    by_cases hh : l + va.toNat % 4 < 4
    · left; simp; omega
    · exact .inr (if_neg hh)

theorem swr_frame {s t : State} {va : Addr} {w : BusWord} {r : BitVec 32} (hwf : Memory.wf s.mem = true)
    (hr : memRead32 s (wordBase va) = .next w)
    (h : memWrite32 s (wordBase va) (mergeStoreRight w r (rightShift4 s.be va)) = .next t) :
    ∀ a, a ∉ (if s.be then addrRange (wordBase va) (offset4 va + 1)
        else addrRange va (4 - offset4 va)).filterMap (byteCell s) →
      Memory.read t.mem a = Memory.read s.mem a := by
  obtain ⟨-, hs, c, hc, rfl⟩ := memRead32_cell hr
  obtain ⟨-, -, d, hd, rfl⟩ := memWrite32_cell h
  obtain rfl := Option.some.inj (hc.symm.trans hd)
  have wb := toNat_wordBase va
  simp only [rightShift4, offset4_eq]
  cases hb : s.be
  · simp only [Bool.false_eq_true, if_false]
    refine word_frame hwf hs hc (fun l hl => ?_) (fun _ _ => rfl)
    rw [hb, mergeStoreRight_byte 4 rfl _ _ _ _ hl, wb]
    by_cases hh : l < va.toNat % 4
    · exact .inr (if_pos hh)
    · left; simp; omega
  · simp only [if_true]
    refine word_frame hwf hs hc (fun l hl => ?_) (fun _ _ => rfl)
    rw [hb, mergeStoreRight_byte 4 rfl _ _ _ _ hl, wb]
    by_cases hh : l < 3 - va.toNat % 4
    · exact .inr (if_pos hh)
    · left; simp; omega

theorem sdl_frame {s t : State} {va : Addr} {w r : BitVec 64} (hwf : Memory.wf s.mem = true)
    (hr : memRead64 s (dwordBase va) = .next w)
    (h : memWrite64 s (dwordBase va) (mergeStoreLeft w r (leftShift8 s.be va)) = .next t) :
    ∀ a, a ∉ (if s.be then addrRange va (8 - offset8 va)
        else addrRange (dwordBase va) (offset8 va + 1)).filterMap (byteCell s) →
      Memory.read t.mem a = Memory.read s.mem a := by
  obtain ⟨-, hs, c, d, hc, hd, rfl⟩ := memRead64_cell hr
  have wb := toNat_dwordBase va
  simp only [leftShift8, offset8_eq] at h ⊢
  cases hb : s.be
  · simp only [hb, Bool.false_eq_true, if_false] at h ⊢
    refine dword_frame hwf hc hd h (fun l hl => ?_)
    rw [hb, mergeStoreLeft_byte 8 rfl _ _ _ _ hl, wb]
    by_cases hh : l + (7 - va.toNat % 8) < 8
    · left; simp; omega
    · exact .inr ((if_neg hh).trans rfl)
  · simp only [hb, if_true] at h ⊢
    refine dword_frame hwf hc hd h (fun l hl => ?_)
    rw [hb, mergeStoreLeft_byte 8 rfl _ _ _ _ hl, wb]
    by_cases hh : l + va.toNat % 8 < 8
    · left; simp; omega
    · exact .inr ((if_neg hh).trans rfl)

theorem sdr_frame {s t : State} {va : Addr} {w r : BitVec 64} (hwf : Memory.wf s.mem = true)
    (hr : memRead64 s (dwordBase va) = .next w)
    (h : memWrite64 s (dwordBase va) (mergeStoreRight w r (rightShift8 s.be va)) = .next t) :
    ∀ a, a ∉ (if s.be then addrRange (dwordBase va) (offset8 va + 1)
        else addrRange va (8 - offset8 va)).filterMap (byteCell s) →
      Memory.read t.mem a = Memory.read s.mem a := by
  obtain ⟨-, hs, c, d, hc, hd, rfl⟩ := memRead64_cell hr
  have wb := toNat_dwordBase va
  simp only [rightShift8, offset8_eq] at h ⊢
  cases hb : s.be
  · simp only [hb, Bool.false_eq_true, if_false] at h ⊢
    refine dword_frame hwf hc hd h (fun l hl => ?_)
    rw [hb, mergeStoreRight_byte 8 rfl _ _ _ _ hl, wb]
    by_cases hh : l < va.toNat % 8
    · exact .inr ((if_pos hh).trans rfl)
    · left; simp; omega
  · simp only [hb, if_true] at h ⊢
    refine dword_frame hwf hc hd h (fun l hl => ?_)
    rw [hb, mergeStoreRight_byte 8 rfl _ _ _ _ hl, wb]
    by_cases hh : l < 7 - va.toNat % 8
    · exact .inr ((if_pos hh).trans rfl)
    · left; simp; omega

theorem memWrite64_frame {s t : State} {va : Addr} {v : BitVec 64} (hwf : Memory.wf s.mem = true)
    (h : memWrite64 s va v = .next t) :
    ∀ a, a ∉ (addrRange va 8).filterMap (byteCell s) → Memory.read t.mem a = Memory.read s.mem a := by
  obtain ⟨ha, hs, c, d, hc, hd, -⟩ := memWrite64_cell h
  refine dword_frame hwf hc hd h (fun i hi => .inl ?_)
  cases s.be <;> simp <;> omega

end Sys2Proof.Machine
end

