-- ==== Sys2Proof/Laws/Exec.lean ====
section
/-! SUPPORT. Everything an instruction can do when it answers a next state, said once over all
instructions: the frames and invariants are read off it. -/

namespace Sys2Proof.Machine

open State

/-- What an instruction that answers a next state can leave. -/
inductive Effect (i : Instr) (s : State) : State → Prop where
  /-- Nothing but the address it runs at. -/
  | nothing : Effect i s s
  /-- An exception entry and nothing else. -/
  | exception (e : ExcCode) : Effect i s (raised e s)
  /-- The Reserved Instruction path, R420. -/
  | reserved : Effect i s (reservedEntry s)
  /-- A write of its destination register. -/
  | register (r : RegIdx) (v : Word) (hd : destReg i = some r) : Effect i s (s.setX r v)
  /-- LWR where fewer than four bytes load. -/
  | draw (b r : RegIdx) (o : BitVec 16) (v : Word) (hi : i = .lwr b r o) :
    Effect i s ((s.setX r v).setDraws (s.draws + 1))
  /-- A write of HI and LO. -/
  | hiLo (h l : Word) (hw : writesHiLo i = true) : Effect i s ((s.setHi h).setLo l)
  /-- A control transfer outside a delay slot. -/
  | control (d : Option Addr) (a : Addr) (hc : isControlTransfer i = true) (hds : s.ds = none) :
    Effect i s ((s.setDs d).setPc a)
  /-- A linking control transfer outside a delay slot. -/
  | controlLink (r : RegIdx) (v : Word) (d : Option Addr) (a : Addr) (hd : destReg i = some r)
    (hc : isControlTransfer i = true) (hds : s.ds = none) :
    Effect i s (((s.setX r v).setDs d).setPc a)
  /-- A store: memory alone, in canonical form, and only the cells of the stored bytes. -/
  | store (m : List Host.Cell) (hne : storedAddrs i s ≠ [])
    (hwf : Memory.wf s.mem = true → Memory.wf m = true)
    (hf : Memory.wf s.mem = true → ∀ a, a ∉ storedCells i s → Memory.read m a = Memory.read s.mem a) :
    Effect i s (s.setMem m)
  /-- A conditional store that stored. -/
  | storeConditional (m : List Host.Cell) (r : RegIdx) (hd : destReg i = some r)
    (hne : storedAddrs i s ≠ []) (hwf : Memory.wf s.mem = true → Memory.wf m = true)
    (hf : Memory.wf s.mem = true → ∀ a, a ∉ storedCells i s → Memory.read m a = Memory.read s.mem a) :
    Effect i s ((s.setMem m).setX r 1)
  /-- LL or LLD. -/
  | linked (b r : RegIdx) (o : BitVec 16) (v a : Word) (hi : i = .ll b r o ∨ i = .lld b r o) :
    Effect i s (((s.setX r v).setLlbit true).setC0 17 a)
  /-- A move to a CP0 register, with CP0 usable. -/
  | moveToC0 (n : RegIdx) (v : Word) (hi : isMoveToC0 i = true) (hu : usable s 0 = true) :
    Effect i s (s.setC0 n v)
  /-- A move to Compare, with CP0 usable. -/
  | moveToCompare (v c : Word) (hi : isMoveToC0 i = true) (hu : usable s 0 = true) :
    Effect i s ((s.setC0 11 v).setC0 13 c)
  /-- ERET, with CP0 usable. -/
  | exceptionReturn (a : Addr) (v : Word) (hi : i = .eret) (hu : usable s 0 = true) :
    Effect i s ((((s.setPc a).setC0 12 v).setLlbit false).setDs none)
  /-- CTC1 to FCR31. -/
  | control31 (rt : RegIdx) (v : BitVec 32) (hi : i = .ctc1 rt 31) : Effect i s (s.setFcr31 v)
  /-- CTC1 to FCR31 that raises Floating-Point. -/
  | floatingPoint (rt : RegIdx) (v : BitVec 32) (hi : i = .ctc1 rt 31) :
    Effect i s (raised .fpe (s.setFcr31 v))

namespace Effect

variable {i : Instr} {s t : State}

theorem of_none (h : (.next s : Result) = .next t) : Effect i s t := by
  cases h; exact .nothing

theorem of_register {r : RegIdx} {v : Word} (h : (.next (s.setX r v) : Result) = .next t)
    (hd : destReg i = some r) : Effect i s t := by
  cases h; exact .register r v hd

theorem of_overflow {o : Bool} {r : RegIdx} {v : Word}
    (h : overflowCheck o s (.next (s.setX r v)) = .next t) (hd : destReg i = some r) : Effect i s t := by
  rcases overflowCheck_next h with rfl | h
  · exact .exception _
  · exact of_register h hd

theorem of_hiLo {a b : Word} (h : (.next ((s.setHi a).setLo b) : Result) = .next t)
    (hw : writesHiLo i = true) : Effect i s t := by
  cases h; exact .hiLo a b hw

theorem of_divide {z : Bool} {a b : Word} (h : (.next (divide z a b s) : Result) = .next t)
    (hw : writesHiLo i = true) : Effect i s t := by
  cases z
  · exact of_hiLo h hw
  · exact of_none h

theorem of_raise {e : ExcCode} (h : raise e s = .next t) : Effect i s t := by
  cases h; exact .exception e

theorem of_reserved (h : reservedInstruction s = .next t) : Effect i s t := by
  cases h; exact .reserved

theorem of_trap {c : Bool} (h : trapIf c s = .next t) : Effect i s t := by
  rcases trapIf_cases h with rfl | rfl
  · exact .nothing
  · exact .exception _

theorem of_gate {z : BitVec 2} {k : Result} (h : copGate z s k = .next t)
    (hk : k = .next t → Effect i s t) : Effect i s t := by
  rcases copGate_cases h with rfl | h
  · exact .exception _
  · exact hk h

theorem of_jump {a : Addr} (h : ctiCheck s (.next (transfer a s)) = .next t)
    (hc : isControlTransfer i = true) : Effect i s t := by
  obtain ⟨hd, h⟩ := ctiCheck_next h
  cases h; exact .control _ _ hc hd

theorem of_branch {c : Bool} {imm : BitVec 16} (h : ctiCheck s (.next (branch c imm s)) = .next t)
    (hc : isControlTransfer i = true) : Effect i s t := by
  cases c
  · exact of_none (ctiCheck_next h).2
  · exact of_jump h hc

theorem of_branchLikely {c : Bool} {imm : BitVec 16}
    (h : ctiCheck s (.next (branchLikely c imm s)) = .next t)
    (hc : isControlTransfer i = true) : Effect i s t := by
  cases c
  · obtain ⟨hd, h⟩ := ctiCheck_next h
    cases h
    exact .control s.ds _ hc hd
  · exact of_jump h hc

theorem of_transferLink {r : RegIdx} {a : Addr} (hds : s.ds = none)
    (h : (.next (transfer a (link r s)) : Result) = .next t) (hd : destReg i = some r)
    (hc : isControlTransfer i = true) : Effect i s t := by
  cases h; exact .controlLink _ _ _ _ hd hc hds

theorem of_jumpLink {r : RegIdx} {a : Addr} (h : ctiCheck s (.next (transfer a (link r s))) = .next t)
    (hd : destReg i = some r) (hc : isControlTransfer i = true) : Effect i s t := by
  obtain ⟨hds, h⟩ := ctiCheck_next h
  exact of_transferLink hds h hd hc

theorem of_jumpLinkRegister {k : Bool} {r : RegIdx} {a : Addr}
    (h : linkCheck k s (.next (transfer a (link r s))) = .next t)
    (hd : destReg i = some r) (hc : isControlTransfer i = true) : Effect i s t := by
  obtain ⟨hds, -, h⟩ := linkCheck_next h
  exact of_transferLink hds h hd hc

theorem of_branchLink {k c : Bool} {r : RegIdx} {imm : BitVec 16}
    (h : linkCheck k s (.next (branch c imm (link r s))) = .next t)
    (hd : destReg i = some r) (hc : isControlTransfer i = true) : Effect i s t := by
  obtain ⟨hds, -, h⟩ := linkCheck_next h
  cases c
  · cases h; exact .register _ _ hd
  · exact of_transferLink hds h hd hc

theorem of_branchLikelyLink {k c : Bool} {r : RegIdx} {imm : BitVec 16}
    (h : linkCheck k s (.next (branchLikely c imm (link r s))) = .next t)
    (hd : destReg i = some r) (hc : isControlTransfer i = true) : Effect i s t := by
  obtain ⟨hds, -, h⟩ := linkCheck_next h
  cases c
  · cases h; exact .controlLink _ _ s.ds _ hd hc hds
  · exact of_transferLink hds h hd hc

theorem of_load {α : Type} {o : Access α} {r : RegIdx} {f : α → Word}
    (h : andThen o (fun v => .next (s.setX r (f v))) = .next t) (hd : destReg i = some r) :
    Effect i s t := by
  obtain ⟨v, -, h⟩ := andThen_eq_next.1 h
  exact of_register h hd

theorem of_lwr {b r : RegIdx} {o : BitVec 16} (h : execLwr b r o s = .next t) :
    Effect (.lwr b r o) s t := by
  obtain ⟨v, -, h⟩ := andThen_eq_next.1 h
  cases h
  unfold writeLwr
  split
  · exact .register _ _ rfl
  · exact .draw _ _ _ _ rfl

theorem of_ll {b r : RegIdx} {o : BitVec 16} (h : execLl b r o s = .next t) :
    Effect (.ll b r o) s t := by
  obtain ⟨v, -, h⟩ := andThen_eq_next.1 h
  obtain ⟨a, -, h⟩ := andThen_eq_next.1 h
  cases h; exact .linked _ _ _ _ _ (.inl rfl)

theorem of_lld {b r : RegIdx} {o : BitVec 16} (h : execLld b r o s = .next t) :
    Effect (.lld b r o) s t := by
  obtain ⟨v, -, h⟩ := andThen_eq_next.1 h
  obtain ⟨a, -, h⟩ := andThen_eq_next.1 h
  cases h; exact .linked _ _ _ _ _ (.inr rfl)

theorem addrRange_ne_nil {lo : Addr} {n : Nat} (h : 0 < n) : addrRange lo n ≠ [] := by
  intro he
  have : (addrRange lo n).length = n := by simp [addrRange]
  rw [he] at this
  simp at this; omega

theorem of_sb {b r : RegIdx} {o : BitVec 16} (h : execSb b r o s = .next t) :
    Effect (.sb b r o) s t := by
  obtain ⟨m, rfl, hw⟩ := memWriteSub_next h
  exact .store m (addrRange_ne_nil (by decide)) hw fun hwf => memWriteSub_frame (.inl rfl) rfl hwf h

theorem of_sh {b r : RegIdx} {o : BitVec 16} (h : execSh b r o s = .next t) :
    Effect (.sh b r o) s t := by
  obtain ⟨m, rfl, hw⟩ := memWriteSub_next h
  exact .store m (addrRange_ne_nil (by decide)) hw fun hwf => memWriteSub_frame (.inr rfl) rfl hwf h

theorem of_sw {b r : RegIdx} {o : BitVec 16} (h : execSw b r o s = .next t) :
    Effect (.sw b r o) s t := by
  obtain ⟨m, rfl, hw⟩ := memWrite32_next h
  exact .store m (addrRange_ne_nil (by decide)) hw fun hwf => memWrite32_frame hwf h

theorem of_sd {b r : RegIdx} {o : BitVec 16} (h : execSd b r o s = .next t) :
    Effect (.sd b r o) s t := by
  obtain ⟨m, rfl, hw⟩ := memWrite64_next h
  exact .store m (addrRange_ne_nil (by decide)) hw fun hwf => memWrite64_frame hwf h

theorem of_swl {b r : RegIdx} {o : BitVec 16} (h : execSwl b r o s = .next t) :
    Effect (.swl b r o) s t := by
  obtain ⟨w, hr, h⟩ := andThen_eq_next.1 h
  obtain ⟨m, rfl, hw⟩ := memWrite32_next h
  refine .store m ?_ hw fun hwf => swl_frame hwf hr h
  have := offset4_eq (effAddr s b o)
  simp only [storedAddrs]
  split <;> exact addrRange_ne_nil (by omega)

theorem of_swr {b r : RegIdx} {o : BitVec 16} (h : execSwr b r o s = .next t) :
    Effect (.swr b r o) s t := by
  obtain ⟨w, hr, h⟩ := andThen_eq_next.1 h
  obtain ⟨m, rfl, hw⟩ := memWrite32_next h
  refine .store m ?_ hw fun hwf => swr_frame hwf hr h
  have := offset4_eq (effAddr s b o)
  simp only [storedAddrs]
  split <;> exact addrRange_ne_nil (by omega)

theorem of_sdl {b r : RegIdx} {o : BitVec 16} (h : execSdl b r o s = .next t) :
    Effect (.sdl b r o) s t := by
  obtain ⟨w, hr, h⟩ := andThen_eq_next.1 h
  obtain ⟨m, rfl, hw⟩ := memWrite64_next h
  refine .store m ?_ hw fun hwf => sdl_frame hwf hr h
  have := offset8_eq (effAddr s b o)
  simp only [storedAddrs]
  split <;> exact addrRange_ne_nil (by omega)

theorem of_sdr {b r : RegIdx} {o : BitVec 16} (h : execSdr b r o s = .next t) :
    Effect (.sdr b r o) s t := by
  obtain ⟨w, hr, h⟩ := andThen_eq_next.1 h
  obtain ⟨m, rfl, hw⟩ := memWrite64_next h
  refine .store m ?_ hw fun hwf => sdr_frame hwf hr h
  have := offset8_eq (effAddr s b o)
  simp only [storedAddrs]
  split <;> exact addrRange_ne_nil (by omega)

theorem of_sc {b r : RegIdx} {o : BitVec 16} (h : execSc b r o s = .next t) :
    Effect (.sc b r o) s t := by
  unfold execSc at h
  split at h
  · next hl =>
    obtain ⟨u, hm, h2⟩ := andThen_eq_next.1 h
    cases h2
    obtain ⟨m, rfl, hw⟩ := memWrite32_next hm
    have e : storedAddrs (.sc b r o) s = addrRange (effAddr s b o) 4 := by simp [storedAddrs, hl]
    refine .storeConditional m r rfl (e ▸ addrRange_ne_nil (by decide)) hw fun hwf => ?_
    rw [storedCells, e]
    exact memWrite32_frame hwf hm
  · exact of_register h rfl

theorem of_scd {b r : RegIdx} {o : BitVec 16} (h : execScd b r o s = .next t) :
    Effect (.scd b r o) s t := by
  unfold execScd at h
  split at h
  · next hl =>
    obtain ⟨u, hm, h2⟩ := andThen_eq_next.1 h
    cases h2
    obtain ⟨m, rfl, hw⟩ := memWrite64_next hm
    have e : storedAddrs (.scd b r o) s = addrRange (effAddr s b o) 8 := by simp [storedAddrs, hl]
    refine .storeConditional m r rfl (e ▸ addrRange_ne_nil (by decide)) hw fun hwf => ?_
    rw [storedCells, e]
    exact memWrite64_frame hwf hm
  · exact of_register h rfl

theorem of_move {n : RegIdx} {v : Word} (hu : usable s 0 = true)
    (h : (.next (writeC0 n v s) : Result) = .next t) (hi : isMoveToC0 i = true) : Effect i s t := by
  cases h
  unfold writeC0
  split
  · exact .moveToC0 _ _ hi hu
  · split
    · exact .moveToCompare _ _ hi hu
    · exact .moveToC0 _ _ hi hu

theorem of_moveGate {n : RegIdx} {v : Word} (h : copGate 0 s (.next (writeC0 n v s)) = .next t)
    (hi : isMoveToC0 i = true) : Effect i s t := by
  cases hu : usable s 0
  · rw [copGate_unusable hu] at h; cases h; exact .exception _
  · rw [copGate_usable hu] at h; exact of_move hu h hi

theorem of_eret (h : execEret s = .next t) : Effect .eret s t := by
  unfold execEret at h
  cases hu : usable s 0
  · rw [copGate_unusable hu] at h; cases h; exact .exception _
  · rw [copGate_usable hu] at h
    cases (ctiCheck_next h).2
    unfold returnFromException
    dsimp only
    split <;> exact .exceptionReturn _ _ rfl hu

theorem of_cfc1 {r n : RegIdx} (h : execCfc1 r n s = .next t) : Effect (.cfc1 r n) s t := by
  refine of_gate h fun h => ?_
  split at h
  · exact of_register h rfl
  · split at h
    · exact of_register h rfl
    · exact of_reserved h

theorem of_ctc1 {r n : RegIdx} (h : execCtc1 r n s = .next t) : Effect (.ctc1 r n) s t := by
  refine of_gate h fun h2 => ?_
  split at h2
  · exact of_none h2
  · split at h2
    · next hn =>
      subst hn
      unfold writeFcr31 at h2
      split at h2
      · cases h2; exact .floatingPoint _ _ rfl
      · cases h2; exact .control31 _ _ rfl
    · exact of_reserved h2

end Effect

open Effect in
/-- Everything an instruction can do when it answers a next state. -/
theorem exec_effect {i : Instr} {s t : State} (h : exec i s = .next t) : Effect i s t := by
  cases i with
  | j target => exact of_jump h rfl
  | jal target => exact of_jumpLink h rfl rfl
  | beq rs rt offset => exact of_branch h rfl
  | bne rs rt offset => exact of_branch h rfl
  | blez rs offset => exact of_branch h rfl
  | bgtz rs offset => exact of_branch h rfl
  | addi rs rt imm => exact of_overflow h rfl
  | addiu rs rt imm => exact of_register h rfl
  | slti rs rt imm => exact of_register h rfl
  | sltiu rs rt imm => exact of_register h rfl
  | andi rs rt imm => exact of_register h rfl
  | ori rs rt imm => exact of_register h rfl
  | xori rs rt imm => exact of_register h rfl
  | lui rt imm => exact of_register h rfl
  | beql rs rt offset => exact of_branchLikely h rfl
  | bnel rs rt offset => exact of_branchLikely h rfl
  | blezl rs offset => exact of_branchLikely h rfl
  | bgtzl rs offset => exact of_branchLikely h rfl
  | daddi rs rt imm => exact of_overflow h rfl
  | daddiu rs rt imm => exact of_register h rfl
  | ldl base rt offset => exact of_load h rfl
  | ldr base rt offset => exact of_load h rfl
  | lb base rt offset => exact of_load h rfl
  | lh base rt offset => exact of_load h rfl
  | lwl base rt offset => exact of_load h rfl
  | lw base rt offset => exact of_load h rfl
  | lbu base rt offset => exact of_load h rfl
  | lhu base rt offset => exact of_load h rfl
  | lwr base rt offset => exact of_lwr h
  | lwu base rt offset => exact of_load h rfl
  | sb base rt offset => exact of_sb h
  | sh base rt offset => exact of_sh h
  | swl base rt offset => exact of_swl h
  | sw base rt offset => exact of_sw h
  | sdl base rt offset => exact of_sdl h
  | sdr base rt offset => exact of_sdr h
  | swr base rt offset => exact of_swr h
  | cache base op offset => exact of_gate h of_none
  | ll base rt offset => exact of_ll h
  | lwc1 base ft offset => exact of_reserved h
  | lwc2 base ft offset => exact of_reserved h
  | lld base rt offset => exact of_lld h
  | ldc1 base ft offset => exact of_reserved h
  | ldc2 base ft offset => exact of_reserved h
  | ld base rt offset => exact of_load h rfl
  | sc base rt offset => exact of_sc h
  | swc1 base ft offset => exact of_reserved h
  | swc2 base ft offset => exact of_reserved h
  | scd base rt offset => exact of_scd h
  | sdc1 base ft offset => exact of_reserved h
  | sdc2 base ft offset => exact of_reserved h
  | sd base rt offset => exact of_sd h
  | sll rt rd sa => exact of_register h rfl
  | add rs rt rd => exact of_overflow h rfl
  | addu rs rt rd => exact of_register h rfl
  | srl rt rd sa => exact of_register h rfl
  | sub rs rt rd => exact of_overflow h rfl
  | sra rt rd sa => exact of_register h rfl
  | subu rs rt rd => exact of_register h rfl
  | sllv rs rt rd => exact of_register h rfl
  | and rs rt rd => exact of_register h rfl
  | or rs rt rd => exact of_register h rfl
  | srlv rs rt rd => exact of_register h rfl
  | xor rs rt rd => exact of_register h rfl
  | srav rs rt rd => exact of_register h rfl
  | nor rs rt rd => exact of_register h rfl
  | jr rs => exact of_jump h rfl
  | jalr rs rd => exact of_jumpLinkRegister h rfl rfl
  | slt rs rt rd => exact of_register h rfl
  | sltu rs rt rd => exact of_register h rfl
  | syscall code => exact of_raise h
  | dadd rs rt rd => exact of_overflow h rfl
  | break_ code => exact of_raise h
  | daddu rs rt rd => exact of_register h rfl
  | dsub rs rt rd => exact of_overflow h rfl
  | sync stype => exact of_none h
  | dsubu rs rt rd => exact of_register h rfl
  | mfhi rd => exact of_register h rfl
  | tge rs rt code => exact of_trap h
  | mthi rs => exact of_hiLo (a := s.x rs) (b := s.lo) h rfl
  | tgeu rs rt code => exact of_trap h
  | mflo rd => exact of_register h rfl
  | tlt rs rt code => exact of_trap h
  | mtlo rs => exact of_hiLo (a := s.hi) (b := s.x rs) h rfl
  | tltu rs rt code => exact of_trap h
  | dsllv rs rt rd => exact of_register h rfl
  | teq rs rt code => exact of_trap h
  | dsrlv rs rt rd => exact of_register h rfl
  | tne rs rt code => exact of_trap h
  | dsrav rs rt rd => exact of_register h rfl
  | mult rs rt => exact of_hiLo h rfl
  | dsll rt rd sa => exact of_register h rfl
  | multu rs rt => exact of_hiLo h rfl
  | div rs rt => exact of_divide h rfl
  | dsrl rt rd sa => exact of_register h rfl
  | divu rs rt => exact of_divide h rfl
  | dsra rt rd sa => exact of_register h rfl
  | dmult rs rt => exact of_hiLo h rfl
  | dsll32 rt rd sa => exact of_register h rfl
  | dmultu rs rt => exact of_hiLo h rfl
  | ddiv rs rt => exact of_divide h rfl
  | dsrl32 rt rd sa => exact of_register h rfl
  | ddivu rs rt => exact of_divide h rfl
  | dsra32 rt rd sa => exact of_register h rfl
  | bltz rs offset => exact of_branch h rfl
  | bgez rs offset => exact of_branch h rfl
  | bltzl rs offset => exact of_branchLikely h rfl
  | bgezl rs offset => exact of_branchLikely h rfl
  | tgei rs imm => exact of_trap h
  | tgeiu rs imm => exact of_trap h
  | tlti rs imm => exact of_trap h
  | tltiu rs imm => exact of_trap h
  | teqi rs imm => exact of_trap h
  | tnei rs imm => exact of_trap h
  | bltzal rs offset => exact of_branchLink h rfl rfl
  | bgezal rs offset => exact of_branchLink h rfl rfl
  | bltzall rs offset => exact of_branchLikelyLink h rfl rfl
  | bgezall rs offset => exact of_branchLikelyLink h rfl rfl
  | mfc0 rt rd => exact of_gate h fun h => of_register h rfl
  | dmfc0 rt rd => exact of_gate h fun h => of_register h rfl
  | mtc0 rt rd => exact of_moveGate h rfl
  | dmtc0 rt rd => exact of_moveGate h rfl
  | bc0 ndTf offset => exact of_gate h of_reserved
  | tlbr => exact of_gate h of_reserved
  | tlbwi => exact of_gate h of_none
  | tlbwr => exact of_gate h of_reserved
  | tlbp => exact of_gate h of_reserved
  | eret => exact of_eret h
  | cfc1 rt fs => exact of_cfc1 h
  | ctc1 rt fs => exact of_ctc1 h
  | mfc1 rt fs => exact of_gate h of_reserved
  | dmfc1 rt fs => exact of_gate h of_reserved
  | mtc1 rt fs => exact of_gate h of_reserved
  | dmtc1 rt fs => exact of_gate h of_reserved
  | bc1 ndTf offset => exact of_gate h of_reserved
  | cop1S ft fs fd funct => exact of_gate h of_reserved
  | cop1D ft fs fd funct => exact of_gate h of_reserved
  | cop1W ft fs fd funct => exact of_gate h of_reserved
  | cop1L ft fs fd funct => exact of_gate h of_reserved
  | cop2 cofun => exact of_gate h of_reserved
  | cop3 cofun => exact of_gate h of_reserved

end Sys2Proof.Machine
end

