-- ==== Sys2Proof/Laws/Engine.lean ====
section
/-! SUPPORT. What Execute and one step can do (spec/40_engine.md R401 to R410), said once. -/

namespace Sys2Proof.Machine

open State

/-- The state Execute sees of a fetched word, in either case of R403. -/
def begun (w : BusWord) (s : State) : State :=
  match s.ds with
  | some _ => beginDelaySlot w s
  | none => beginNormal w s

/-- The state after the rest of the Cycle, from the one Execute left; `slot` says whether the word came
through the marker. -/
def ended (slot : Bool) (s : State) : State := (((if slot then s.setDs none else s).setX 0 0).setX 0 0).setWord 0

theorem noHandler_next {w : BusWord} {s t : State} (h : noHandler w s = .next t) :
    (∃ z, t = raised (.cpu z) s) ∨ t = reservedEntry s := by
  unfold noHandler at h
  split at h
  · rcases copGate_cases h with rfl | h
    · exact .inl ⟨_, rfl⟩
    · cases h; exact .inr rfl
  · cases h; exact .inr rfl

/-- What Execute can do: run an instruction, or take the path of a word with no handler. -/
theorem execute_next {w : BusWord} {s t : State} (h : execute w s = .next t) :
    (∃ i, decode w = .ok i ∧ exec i s = .next t) ∨ (∃ z, t = raised (.cpu z) s) ∨
      t = reservedEntry s := by
  unfold execute at h
  split at h
  · next i hi =>
    split at h
    · exact .inl ⟨i, hi, h⟩
    · exact .inr (noHandler_next h)
  · exact .inr (noHandler_next h)

/-- Taking an interrupt is an exception entry at the address the Cycle would have fetched, R1221, R1252. -/
theorem takeInterrupt_enters (s : State) :
    takeInterrupt s = enterException .int (fetchAddress s) s.ds.isSome s := by
  unfold takeInterrupt fetchAddress
  cases s.ds <;> rfl

@[simp] theorem fetchAddress_incrementCounter (s : State) :
    fetchAddress (incrementCounter s) = fetchAddress s := by
  unfold fetchAddress; rw [ds_incrementCounter, pc_incrementCounter]

/-- The step of a Cycle that takes no interrupt. -/
theorem step_eq_run {s : State} (h : hasPendingInterrupt (incrementCounter s) = false) :
    step s = andThen (fetch (incrementCounter s) (fetchAddress s)) fun w =>
      andThen (execute w (begun w (incrementCounter s))) fun u => .next (ended s.ds.isSome u) := by
  unfold step cycle begun fetchAddress
  dsimp only
  rw [h, if_neg (by decide)]
  unfold runStep
  rw [ds_incrementCounter, pc_incrementCounter]
  cases hd : s.ds with
  | none =>
    dsimp only
    cases hf : fetch (incrementCounter s) s.pc with
    | next w =>
      simp only [andThen_next]
      cases execute w (beginNormal w (incrementCounter s)) <;> rfl
    | fault r => rfl
    | refused r => rfl
  | some a =>
    dsimp only
    cases hf : fetch (incrementCounter s) a with
    | next w =>
      simp only [andThen_next]
      cases execute w (beginDelaySlot w (incrementCounter s)) <;> rfl
    | fault r => rfl
    | refused r => rfl

/-- The step of a Cycle that takes an interrupt. -/
theorem step_eq_interrupt {s : State} (h : hasPendingInterrupt (incrementCounter s) = true) :
    step s = .next (((takeInterrupt (incrementCounter s)).setX 0 0).setWord 0) := by
  unfold step cycle
  dsimp only
  rw [h, if_pos rfl]
  rfl

/-- A step that answers took an interrupt, or fetched a word and executed it. -/
theorem step_next {s t : State} (h : step s = .next t) :
    (hasPendingInterrupt (incrementCounter s) = true ∧
      t = ((takeInterrupt (incrementCounter s)).setX 0 0).setWord 0) ∨
    (hasPendingInterrupt (incrementCounter s) = false ∧ ∃ w u,
      fetch (incrementCounter s) (fetchAddress s) = .next w ∧
      execute w (begun w (incrementCounter s)) = .next u ∧ t = ended s.ds.isSome u) := by
  cases hp : hasPendingInterrupt (incrementCounter s)
  · rw [step_eq_run hp] at h
    obtain ⟨w, hw, h⟩ := andThen_eq_next.1 h
    obtain ⟨u, hu, h⟩ := andThen_eq_next.1 h
    exact .inr ⟨rfl, w, u, hw, hu, by simpa using h.symm⟩
  · rw [step_eq_interrupt hp] at h
    exact .inl ⟨rfl, by simpa using h.symm⟩

/-! ## What no instruction changes -/

/-- The fields no instruction changes, and the canonical form of memory and of the signal set. -/
structure Keeps (s t : State) : Prop where
  params    : t.params = s.params
  runStatus : t.runStatus = s.runStatus
  f         : ∀ n, t.f n = s.f n
  signals   : ∀ p, p ∈ s.unimplemented → p ∈ t.unimplemented
  nodup     : s.unimplemented.Nodup → t.unimplemented.Nodup
  memory    : Memory.wf s.mem = true → Memory.wf t.mem = true

theorem Keeps.of_eq {s t : State} (h1 : t.params = s.params) (h2 : t.runStatus = s.runStatus)
    (h3 : t.fpr = s.fpr) (h4 : t.unimplemented = s.unimplemented) (h5 : t.mem = s.mem) : Keeps s t :=
  ⟨h1, h2, fun n => by unfold State.f; simp only [h3], fun p hp => h4 ▸ hp, fun h => h4 ▸ h,
    fun h => h5 ▸ h⟩

theorem Keeps.trans {s t u : State} (h1 : Keeps s t) (h2 : Keeps t u) : Keeps s u :=
  ⟨h2.params.trans h1.params, h2.runStatus.trans h1.runStatus, fun n => (h2.f n).trans (h1.f n),
    fun p hp => h2.signals p (h1.signals p hp), fun h => h2.nodup (h1.nodup h),
    fun h => h2.memory (h1.memory h)⟩

theorem keeps_enterException (e : ExcCode) (a : Addr) (bd : Bool) (s : State) :
    Keeps s (enterException e a bd s) :=
  ⟨params_enterException .., runStatus_enterException .., fun n => f_enterException e a bd s n,
    fun p hp => by rw [unimplemented_enterException]; exact hp,
    fun h => by rw [unimplemented_enterException]; exact h,
    fun h => by rw [mem_enterException]; exact h⟩

theorem keeps_signal (a : Addr) (w : BusWord) (s : State) : Keeps s (s.signal a w) := by
  unfold State.signal
  split
  · exact .of_eq rfl rfl rfl rfl rfl
  · next hn =>
    refine ⟨rfl, rfl, fun n => rfl, fun p hp => List.mem_append_left _ hp, fun h => ?_, fun h => h⟩
    rw [List.nodup_append]
    refine ⟨h, by simp, fun x hx y hy => ?_⟩
    simp only [List.mem_singleton] at hy
    subst hy
    intro he
    exact hn (he ▸ hx)

theorem keeps_reservedEntry (s : State) : Keeps s (reservedEntry s) :=
  (keeps_enterException _ _ _ _).trans (keeps_signal _ _ _)

theorem keeps_exec {i : Instr} {s t : State} (h : exec i s = .next t) : Keeps s t := by
  cases exec_effect h with
  | nothing => exact .of_eq rfl rfl rfl rfl rfl
  | exception e => exact keeps_enterException _ _ _ _
  | reserved => exact keeps_reservedEntry s
  | floatingPoint rt v hi =>
    exact Keeps.trans (t := s.setFcr31 v) (.of_eq rfl rfl rfl rfl rfl) (keeps_enterException _ _ _ _)
  | store m hne hwf hf => exact ⟨rfl, rfl, fun _ => rfl, fun _ h => h, fun h => h, hwf⟩
  | storeConditional m r hd hne hwf hf => exact ⟨rfl, rfl, fun _ => rfl, fun _ h => h, fun h => h, hwf⟩
  | _ => exact .of_eq rfl rfl rfl rfl rfl

theorem keeps_incrementCounter (s : State) : Keeps s (incrementCounter s) := by
  obtain ⟨c, h⟩ := incrementCounter_eq s
  rw [h]
  exact .of_eq rfl rfl rfl rfl rfl

theorem keeps_execute {w : BusWord} {s t : State} (h : execute w s = .next t) : Keeps s t := by
  rcases execute_next h with ⟨i, -, h⟩ | ⟨z, rfl⟩ | rfl
  · exact keeps_exec h
  · exact keeps_enterException _ _ _ _
  · exact keeps_reservedEntry s

theorem keeps_begun (w : BusWord) (s : State) : Keeps s (begun w s) := by
  unfold begun
  split <;> exact .of_eq rfl rfl rfl rfl rfl

theorem keeps_ended (slot : Bool) (s : State) : Keeps s (ended slot s) := by
  cases slot <;> exact .of_eq rfl rfl rfl rfl rfl

theorem keeps_step {s t : State} (h : step s = .next t) : Keeps s t := by
  refine (keeps_incrementCounter s).trans ?_
  rcases step_next h with ⟨-, rfl⟩ | ⟨-, w, u, -, hu, rfl⟩
  · rw [takeInterrupt_enters]
    exact (keeps_enterException _ _ _ _).trans (.of_eq rfl rfl rfl rfl rfl)
  · exact ((keeps_begun w _).trans (keeps_execute hu)).trans (keeps_ended _ _)

end Sys2Proof.Machine
end

