-- ==== Sys2Proof/Laws/Faults.lean ====
section
/-! SUPPORT. How an access stops. Accesses that never end in the fault Misaligned: everything of the access
path but its alignment check (spec/20_memory.md R242), so a byte access as a whole. Accesses that end as a
bus transaction stops: `readStop` and `writeStop` decide it (R231 to R233). -/

namespace Sys2Proof.Machine

/-- The access does not end in Misaligned. -/
def NeverMisaligned {α : Type} (o : Access α) : Prop := ∀ a n, o ≠ .fault (.misaligned a n)

theorem neverMisaligned_next {α : Type} (a : α) : NeverMisaligned (.next a) := by
  intro _ _ h
  simp at h

theorem neverMisaligned_andThen {α β : Type} {o : Access α} {k : α → Access β} (h : NeverMisaligned o)
    (hk : ∀ a, NeverMisaligned (k a)) : NeverMisaligned (andThen o k) := by
  cases o with
  | next a => exact hk a
  | fault r => exact fun a n e => h a n (by simpa [andThen] using e)
  | refused r => intro a n e; simp [andThen] at e

theorem neverMisaligned_translate (va : Addr) : NeverMisaligned (translate va) := by
  intro _ _ h
  unfold translate at h
  split at h <;> simp at h

theorem neverMisaligned_readPort (t : BusTable) (p : Nat) : NeverMisaligned (readPort t p) := by
  intro _ _ h
  unfold readPort at h
  split at h <;> (try split at h) <;> simp at h

theorem neverMisaligned_writePort (t : BusTable) (p : Nat) : NeverMisaligned (writePort t p) := by
  intro _ _ h
  unfold writePort at h
  split at h <;> (try split at h) <;> simp at h

theorem neverMisaligned_busRead (s : State) (p : Addr) : NeverMisaligned (busRead s p) :=
  neverMisaligned_andThen (neverMisaligned_readPort _ _) fun _ => by
    intro _ _ h
    split at h <;> simp at h

theorem neverMisaligned_busWrite (s : State) (p : Addr) (w : BusWord) :
    NeverMisaligned (busWrite s p w) :=
  neverMisaligned_andThen (neverMisaligned_writePort _ _) fun _ => by
    intro _ _ h
    split at h <;> simp at h

theorem neverMisaligned_memReadSub (s : State) (va : Addr) (k : Nat) :
    NeverMisaligned (memReadSub s va 1 k) := by
  rw [memReadSub, checkAligned_ok (Nat.mod_one _)]
  exact neverMisaligned_andThen (neverMisaligned_translate _) fun _ =>
    neverMisaligned_andThen (neverMisaligned_busRead _ _) fun _ => neverMisaligned_next _

theorem neverMisaligned_memWriteSub (s : State) (va : Addr) {k : Nat} (v : BitVec k) :
    NeverMisaligned (memWriteSub s va 1 v) := by
  rw [memWriteSub, checkAligned_ok (Nat.mod_one _)]
  exact neverMisaligned_andThen (neverMisaligned_translate _) fun _ =>
    neverMisaligned_andThen (neverMisaligned_busRead _ _) fun _ => neverMisaligned_busWrite _ _ _

/-! ## How a transaction stops -/

@[simp] theorem andThen_outcome {α β : Type} (o : Stop) (k : α → Access β) :
    andThen o.outcome k = o.outcome := by
  cases o <;> rfl

/-- A bus read stops as `readStop` says, or answers. -/
theorem busRead_of (s : State) (pa : Addr) :
    match readStop s.params.busMap pa.toNat with
    | some o => busRead s pa = o.outcome
    | none => ∃ w, busRead s pa = .next w := by
  unfold readStop busRead readPort
  cases findEntry s.params.busMap pa.toNat with
  | error a => rfl
  | ok p =>
    obtain ⟨⟨r, b, rd, wr⟩, a⟩ := p
    cases rd <;> cases b <;> first | rfl | exact ⟨_, rfl⟩

/-- A bus write stops as `writeStop` says, or answers and keeps the map. -/
theorem busWrite_of (s : State) (pa : Addr) (w : BusWord) :
    match writeStop s.params.busMap pa.toNat w with
    | some o => busWrite s pa w = o.outcome
    | none => ∃ m, busWrite s pa w = .next (s.setMem m) := by
  unfold writeStop busWrite writePort
  cases findEntry s.params.busMap pa.toNat with
  | error a => rfl
  | ok p =>
    obtain ⟨⟨r, b, rd, wr⟩, a⟩ := p
    cases wr <;> cases b <;> first | rfl | exact ⟨_, rfl⟩

theorem busRead_stop {s : State} {pa : Addr} {o : Stop}
    (h : readStop s.params.busMap pa.toNat = some o) : busRead s pa = o.outcome := by
  have := busRead_of s pa; rwa [h] at this

theorem busRead_goes {s : State} {pa : Addr} (h : readStop s.params.busMap pa.toNat = none) :
    ∃ w, busRead s pa = .next w := by
  have := busRead_of s pa; rwa [h] at this

theorem busWrite_stop {s : State} {pa : Addr} {w : BusWord} {o : Stop}
    (h : writeStop s.params.busMap pa.toNat w = some o) : busWrite s pa w = o.outcome := by
  have := busWrite_of s pa w; rwa [h] at this

theorem busWrite_goes {s : State} {pa : Addr} {w : BusWord}
    (h : writeStop s.params.busMap pa.toNat w = none) : ∃ m, busWrite s pa w = .next (s.setMem m) := by
  have := busWrite_of s pa w; rwa [h] at this

/-- Where a read answers, the word written has no part in whether and how a write stops. -/
theorem writeStop_of_readable {t : BusTable} {pa : Nat} (h : readStop t pa = none) (w w' : BusWord) :
    writeStop t pa w' = writeStop t pa w := by
  unfold readStop at h
  unfold writeStop
  cases he : findEntry t pa with
  | error a => rfl
  | ok p =>
    obtain ⟨⟨r, b, rd, wr⟩, a⟩ := p
    rw [he] at h
    cases b with
    | memory c => rfl
    | device id => cases rd <;> cases h

/-! ## How a sized access stops -/

/-- How a read of the bus word that holds `va` stops. -/
def readStopAt (s : State) (va : Addr) : Option Stop :=
  readStop s.params.busMap (wordBase (physical va)).toNat

/-- How a write of `w` to the bus word that holds `va` stops. -/
def writeStopAt (s : State) (va : Addr) (w : BusWord) : Option Stop :=
  writeStop s.params.busMap (wordBase (physical va)).toNat w

section
variable {s : State} {va : Addr} {o : Stop} {n : Nat}

theorem memReadSub_stop (k : Nat) (hs : inSegment va = true) (ha : va.toNat % n = 0)
    (h : readStopAt s va = some o) : memReadSub s va n k = o.outcome := by
  rw [memReadSub, checkAligned_ok ha, translate_inSegment hs, andThen_next, busRead_stop h, andThen_outcome]

theorem memWriteSub_stop {k : Nat} (v : BitVec k) (w : BusWord) (hs : inSegment va = true)
    (ha : va.toNat % n = 0) (h : (readStopAt s va).or (writeStopAt s va w) = some o) :
    memWriteSub s va n v = o.outcome := by
  rw [memWriteSub, checkAligned_ok ha, translate_inSegment hs, andThen_next]
  cases hr : readStopAt s va with
  | some q =>
    rw [hr] at h
    rw [busRead_stop hr, andThen_outcome]
    exact congrArg _ (Option.some.inj h)
  | none =>
    rw [hr] at h
    obtain ⟨u, hu⟩ := busRead_goes hr
    rw [hu, andThen_next]
    exact busWrite_stop ((writeStop_of_readable hr w _).trans h)

theorem memRead32_stop (hs : inSegment va = true) (ha : va.toNat % 4 = 0)
    (h : readStopAt s va = some o) : memRead32 s va = o.outcome := by
  rw [memRead32, checkAligned_ok ha, translate_inSegment hs, andThen_next, ← wordBase_physical ha,
    busRead_stop h]

theorem memRead32_goes (hs : inSegment va = true) (ha : va.toNat % 4 = 0)
    (h : readStopAt s va = none) : ∃ w, memRead32 s va = .next w := by
  rw [memRead32, checkAligned_ok ha, translate_inSegment hs, andThen_next, ← wordBase_physical ha]
  exact busRead_goes h

theorem memWrite32_stop {v : BitVec 32} (hs : inSegment va = true) (ha : va.toNat % 4 = 0)
    (h : writeStopAt s va v = some o) : memWrite32 s va v = o.outcome := by
  rw [memWrite32, checkAligned_ok ha, translate_inSegment hs, andThen_next, ← wordBase_physical ha,
    busWrite_stop h]

/-- The second transaction of a doubleword. -/
theorem physical_second (hs : inSegment va = true) (ha : va.toNat % 8 = 0) :
    physical va + 4 = wordBase (physical (va + 4)) := by
  have n4 := toNat_add_four hs
  rw [← physical_add_four ha, wordBase_physical (by omega)]

theorem memRead64_stop (hs : inSegment va = true) (ha : va.toNat % 8 = 0)
    (h : (readStopAt s va).or (readStopAt s (va + 4)) = some o) : memRead64 s va = o.outcome := by
  rw [memRead64, checkAligned_ok ha, translate_inSegment hs, andThen_next, physical_second hs ha,
    ← wordBase_physical (va := va) (by omega)]
  cases hr : readStopAt s va with
  | some q =>
    rw [hr] at h
    rw [busRead_stop hr, andThen_outcome]
    exact congrArg _ (Option.some.inj h)
  | none =>
    rw [hr] at h
    obtain ⟨u, hu⟩ := busRead_goes hr
    rw [hu, andThen_next, busRead_stop h, andThen_outcome]

theorem memRead64_goes (hs : inSegment va = true) (ha : va.toNat % 8 = 0)
    (h : readStopAt s va = none) (h4 : readStopAt s (va + 4) = none) : ∃ v, memRead64 s va = .next v := by
  rw [memRead64, checkAligned_ok ha, translate_inSegment hs, andThen_next, physical_second hs ha,
    ← wordBase_physical (va := va) (by omega)]
  obtain ⟨u, hu⟩ := busRead_goes h
  obtain ⟨u', hu'⟩ := busRead_goes h4
  rw [hu, andThen_next, hu', andThen_next]
  exact ⟨_, rfl⟩

theorem memWrite64_stop {v : BitVec 64} (hs : inSegment va = true) (ha : va.toNat % 8 = 0)
    (h : (writeStopAt s va (if s.be then v.extractLsb' 32 32 else v.extractLsb' 0 32)).or
      (writeStopAt s (va + 4) (if s.be then v.extractLsb' 0 32 else v.extractLsb' 32 32)) = some o) :
    memWrite64 s va v = o.outcome := by
  rw [memWrite64, checkAligned_ok ha, translate_inSegment hs, andThen_next, physical_second hs ha,
    ← wordBase_physical (va := va) (by omega)]
  cases hr : writeStopAt s va (if s.be then v.extractLsb' 32 32 else v.extractLsb' 0 32) with
  | some q =>
    rw [hr] at h
    rw [busWrite_stop hr, andThen_outcome]
    exact congrArg _ (Option.some.inj h)
  | none =>
    rw [hr] at h
    obtain ⟨m, hm⟩ := busWrite_goes hr
    rw [hm, andThen_next]
    exact busWrite_stop h

end

end Sys2Proof.Machine
end

