-- ==== Sys2Proof/Laws/PerInstr.lean ====
section
/-! SUPPORT. The statements about every instruction as syntax, one lemma for each constructor. -/

namespace Sys2Proof.Laws.TableBits

/-- The word of an instruction has the fixed bits of its row of spec/opcode_table.json, and its row's
pattern has no bit outside its mask. -/
def Statement (i : Instr) : Prop :=
  encode i &&& i.row.mask = i.row.pattern ∧ i.row.pattern &&& i.row.mask = i.row.pattern

/-! One lemma for each pair of a format and a mask. -/

theorem of_codeFormat_special {i : Instr} {e : BitVec 20} {f : BitVec 6}
    (he : encode i = codeFormat e f) (hm : i.row.mask = 0xFC00003F#32)
    (hp : i.row.pattern = rFormat 0 0#5 0#5 0#5 0#5 f) : Statement i := by
  have h : codeFormat e f &&& 0xFC00003F#32 = rFormat 0 0#5 0#5 0#5 0#5 f := by
    rw [and_specialMask, opcodeOf_codeFormat, functOf_codeFormat]
  have h2 : (rFormat 0 0#5 0#5 0#5 0#5 f) &&& 0xFC00003F#32 = rFormat 0 0#5 0#5 0#5 0#5 f := by
    rw [← h, BitVec.and_assoc, BitVec.and_self]
  rw [Statement, he, hm, hp]
  exact ⟨h, h2⟩

theorem of_iFormat_cop {i : Instr} {op : BitVec 6} {a : BitVec 5} {b : BitVec 5} {m : BitVec 16}
    (he : encode i = iFormat op a b m) (hm : i.row.mask = 0xFFE00000#32)
    (hp : i.row.pattern = iFormat op a 0#5 0#16) : Statement i := by
  have h : iFormat op a b m &&& 0xFFE00000#32 = iFormat op a 0#5 0#16 := by
    rw [and_copMask, opcodeOf_iFormat, rsOf_iFormat]
  have h2 : (iFormat op a 0#5 0#16) &&& 0xFFE00000#32 = iFormat op a 0#5 0#16 := by
    rw [← h, BitVec.and_assoc, BitVec.and_self]
  rw [Statement, he, hm, hp]
  exact ⟨h, h2⟩

theorem of_iFormat_primary {i : Instr} {op : BitVec 6} {a : BitVec 5} {b : BitVec 5} {m : BitVec 16}
    (he : encode i = iFormat op a b m) (hm : i.row.mask = 0xFC000000#32)
    (hp : i.row.pattern = iFormat op 0#5 0#5 0#16) : Statement i := by
  have h : iFormat op a b m &&& 0xFC000000#32 = iFormat op 0#5 0#5 0#16 := by
    rw [and_primaryMask, opcodeOf_iFormat]
  have h2 : (iFormat op 0#5 0#5 0#16) &&& 0xFC000000#32 = iFormat op 0#5 0#5 0#16 := by
    rw [← h, BitVec.and_assoc, BitVec.and_self]
  rw [Statement, he, hm, hp]
  exact ⟨h, h2⟩

theorem of_iFormat_regimm {i : Instr} {op : BitVec 6} {a : BitVec 5} {b : BitVec 5} {m : BitVec 16}
    (he : encode i = iFormat op a b m) (hm : i.row.mask = 0xFC1F0000#32)
    (hp : i.row.pattern = iFormat op 0#5 b 0#16) : Statement i := by
  have h : iFormat op a b m &&& 0xFC1F0000#32 = iFormat op 0#5 b 0#16 := by
    rw [and_regimmMask, opcodeOf_iFormat, rtOf_iFormat]
  have h2 : (iFormat op 0#5 b 0#16) &&& 0xFC1F0000#32 = iFormat op 0#5 b 0#16 := by
    rw [← h, BitVec.and_assoc, BitVec.and_self]
  rw [Statement, he, hm, hp]
  exact ⟨h, h2⟩

theorem of_jFormat_primary {i : Instr} {op : BitVec 6} {t : BitVec 26}
    (he : encode i = jFormat op t) (hm : i.row.mask = 0xFC000000#32)
    (hp : i.row.pattern = iFormat op 0#5 0#5 0#16) : Statement i := by
  have h : jFormat op t &&& 0xFC000000#32 = iFormat op 0#5 0#5 0#16 := by
    rw [and_primaryMask, opcodeOf_jFormat]
  have h2 : (iFormat op 0#5 0#5 0#16) &&& 0xFC000000#32 = iFormat op 0#5 0#5 0#16 := by
    rw [← h, BitVec.and_assoc, BitVec.and_self]
  rw [Statement, he, hm, hp]
  exact ⟨h, h2⟩

theorem of_rFormat_co {i : Instr} {op : BitVec 6} {a : BitVec 5} {b : BitVec 5} {c : BitVec 5} {d : BitVec 5} {f : BitVec 6}
    (he : encode i = rFormat op a b c d f) (hm : i.row.mask = 0xFE00003F#32)
    (hp : i.row.pattern = rFormat op (a &&& 0x10#5) 0#5 0#5 0#5 f) : Statement i := by
  have h : rFormat op a b c d f &&& 0xFE00003F#32 = rFormat op (a &&& 0x10#5) 0#5 0#5 0#5 f := by
    rw [and_coMask, opcodeOf_rFormat, rsOf_rFormat, functOf_rFormat]
  have h2 : (rFormat op (a &&& 0x10#5) 0#5 0#5 0#5 f) &&& 0xFE00003F#32 = rFormat op (a &&& 0x10#5) 0#5 0#5 0#5 f := by
    rw [← h, BitVec.and_assoc, BitVec.and_self]
  rw [Statement, he, hm, hp]
  exact ⟨h, h2⟩

theorem of_rFormat_cop {i : Instr} {op : BitVec 6} {a : BitVec 5} {b : BitVec 5} {c : BitVec 5} {d : BitVec 5} {f : BitVec 6}
    (he : encode i = rFormat op a b c d f) (hm : i.row.mask = 0xFFE00000#32)
    (hp : i.row.pattern = iFormat op a 0#5 0#16) : Statement i := by
  have h : rFormat op a b c d f &&& 0xFFE00000#32 = iFormat op a 0#5 0#16 := by
    rw [and_copMask, opcodeOf_rFormat, rsOf_rFormat]
  have h2 : (iFormat op a 0#5 0#16) &&& 0xFFE00000#32 = iFormat op a 0#5 0#16 := by
    rw [← h, BitVec.and_assoc, BitVec.and_self]
  rw [Statement, he, hm, hp]
  exact ⟨h, h2⟩

theorem of_rFormat_special {i : Instr} {op : BitVec 6} {a : BitVec 5} {b : BitVec 5} {c : BitVec 5} {d : BitVec 5} {f : BitVec 6}
    (he : encode i = rFormat op a b c d f) (hm : i.row.mask = 0xFC00003F#32)
    (hp : i.row.pattern = rFormat op 0#5 0#5 0#5 0#5 f) : Statement i := by
  have h : rFormat op a b c d f &&& 0xFC00003F#32 = rFormat op 0#5 0#5 0#5 0#5 f := by
    rw [and_specialMask, opcodeOf_rFormat, functOf_rFormat]
  have h2 : (rFormat op 0#5 0#5 0#5 0#5 f) &&& 0xFC00003F#32 = rFormat op 0#5 0#5 0#5 0#5 f := by
    rw [← h, BitVec.and_assoc, BitVec.and_self]
  rw [Statement, he, hm, hp]
  exact ⟨h, h2⟩

theorem of_trapFormat_special {i : Instr} {a : BitVec 5} {b : BitVec 5} {e : BitVec 10} {f : BitVec 6}
    (he : encode i = trapFormat a b e f) (hm : i.row.mask = 0xFC00003F#32)
    (hp : i.row.pattern = rFormat 0 0#5 0#5 0#5 0#5 f) : Statement i := by
  have h : trapFormat a b e f &&& 0xFC00003F#32 = rFormat 0 0#5 0#5 0#5 0#5 f := by
    rw [and_specialMask, opcodeOf_trapFormat, functOf_trapFormat]
  have h2 : (rFormat 0 0#5 0#5 0#5 0#5 f) &&& 0xFC00003F#32 = rFormat 0 0#5 0#5 0#5 0#5 f := by
    rw [← h, BitVec.and_assoc, BitVec.and_self]
  rw [Statement, he, hm, hp]
  exact ⟨h, h2⟩

theorem j (target : BitVec 26) : Statement (.j target) :=
  of_jFormat_primary rfl rfl rfl

theorem jal (target : BitVec 26) : Statement (.jal target) :=
  of_jFormat_primary rfl rfl rfl

theorem beq (rs rt : RegIdx) (offset : BitVec 16) : Statement (.beq rs rt offset) :=
  of_iFormat_primary rfl rfl rfl

theorem bne (rs rt : RegIdx) (offset : BitVec 16) : Statement (.bne rs rt offset) :=
  of_iFormat_primary rfl rfl rfl

theorem blez (rs : RegIdx) (offset : BitVec 16) : Statement (.blez rs offset) :=
  of_iFormat_primary rfl rfl rfl

theorem bgtz (rs : RegIdx) (offset : BitVec 16) : Statement (.bgtz rs offset) :=
  of_iFormat_primary rfl rfl rfl

theorem addi (rs rt : RegIdx) (imm : BitVec 16) : Statement (.addi rs rt imm) :=
  of_iFormat_primary rfl rfl rfl

theorem addiu (rs rt : RegIdx) (imm : BitVec 16) : Statement (.addiu rs rt imm) :=
  of_iFormat_primary rfl rfl rfl

theorem slti (rs rt : RegIdx) (imm : BitVec 16) : Statement (.slti rs rt imm) :=
  of_iFormat_primary rfl rfl rfl

theorem sltiu (rs rt : RegIdx) (imm : BitVec 16) : Statement (.sltiu rs rt imm) :=
  of_iFormat_primary rfl rfl rfl

theorem andi (rs rt : RegIdx) (imm : BitVec 16) : Statement (.andi rs rt imm) :=
  of_iFormat_primary rfl rfl rfl

theorem ori (rs rt : RegIdx) (imm : BitVec 16) : Statement (.ori rs rt imm) :=
  of_iFormat_primary rfl rfl rfl

theorem xori (rs rt : RegIdx) (imm : BitVec 16) : Statement (.xori rs rt imm) :=
  of_iFormat_primary rfl rfl rfl

theorem lui (rt : RegIdx) (imm : BitVec 16) : Statement (.lui rt imm) :=
  of_iFormat_primary rfl rfl rfl

theorem beql (rs rt : RegIdx) (offset : BitVec 16) : Statement (.beql rs rt offset) :=
  of_iFormat_primary rfl rfl rfl

theorem bnel (rs rt : RegIdx) (offset : BitVec 16) : Statement (.bnel rs rt offset) :=
  of_iFormat_primary rfl rfl rfl

theorem blezl (rs : RegIdx) (offset : BitVec 16) : Statement (.blezl rs offset) :=
  of_iFormat_primary rfl rfl rfl

theorem bgtzl (rs : RegIdx) (offset : BitVec 16) : Statement (.bgtzl rs offset) :=
  of_iFormat_primary rfl rfl rfl

theorem daddi (rs rt : RegIdx) (imm : BitVec 16) : Statement (.daddi rs rt imm) :=
  of_iFormat_primary rfl rfl rfl

theorem daddiu (rs rt : RegIdx) (imm : BitVec 16) : Statement (.daddiu rs rt imm) :=
  of_iFormat_primary rfl rfl rfl

theorem ldl (base rt : RegIdx) (offset : BitVec 16) : Statement (.ldl base rt offset) :=
  of_iFormat_primary rfl rfl rfl

theorem ldr (base rt : RegIdx) (offset : BitVec 16) : Statement (.ldr base rt offset) :=
  of_iFormat_primary rfl rfl rfl

theorem lb (base rt : RegIdx) (offset : BitVec 16) : Statement (.lb base rt offset) :=
  of_iFormat_primary rfl rfl rfl

theorem lh (base rt : RegIdx) (offset : BitVec 16) : Statement (.lh base rt offset) :=
  of_iFormat_primary rfl rfl rfl

theorem lwl (base rt : RegIdx) (offset : BitVec 16) : Statement (.lwl base rt offset) :=
  of_iFormat_primary rfl rfl rfl

theorem lw (base rt : RegIdx) (offset : BitVec 16) : Statement (.lw base rt offset) :=
  of_iFormat_primary rfl rfl rfl

theorem lbu (base rt : RegIdx) (offset : BitVec 16) : Statement (.lbu base rt offset) :=
  of_iFormat_primary rfl rfl rfl

theorem lhu (base rt : RegIdx) (offset : BitVec 16) : Statement (.lhu base rt offset) :=
  of_iFormat_primary rfl rfl rfl

theorem lwr (base rt : RegIdx) (offset : BitVec 16) : Statement (.lwr base rt offset) :=
  of_iFormat_primary rfl rfl rfl

theorem lwu (base rt : RegIdx) (offset : BitVec 16) : Statement (.lwu base rt offset) :=
  of_iFormat_primary rfl rfl rfl

theorem sb (base rt : RegIdx) (offset : BitVec 16) : Statement (.sb base rt offset) :=
  of_iFormat_primary rfl rfl rfl

theorem sh (base rt : RegIdx) (offset : BitVec 16) : Statement (.sh base rt offset) :=
  of_iFormat_primary rfl rfl rfl

theorem swl (base rt : RegIdx) (offset : BitVec 16) : Statement (.swl base rt offset) :=
  of_iFormat_primary rfl rfl rfl

theorem sw (base rt : RegIdx) (offset : BitVec 16) : Statement (.sw base rt offset) :=
  of_iFormat_primary rfl rfl rfl

theorem sdl (base rt : RegIdx) (offset : BitVec 16) : Statement (.sdl base rt offset) :=
  of_iFormat_primary rfl rfl rfl

theorem sdr (base rt : RegIdx) (offset : BitVec 16) : Statement (.sdr base rt offset) :=
  of_iFormat_primary rfl rfl rfl

theorem swr (base rt : RegIdx) (offset : BitVec 16) : Statement (.swr base rt offset) :=
  of_iFormat_primary rfl rfl rfl

theorem cache (base : RegIdx) (op : BitVec 5) (offset : BitVec 16) : Statement (.cache base op offset) :=
  of_iFormat_primary rfl rfl rfl

theorem ll (base rt : RegIdx) (offset : BitVec 16) : Statement (.ll base rt offset) :=
  of_iFormat_primary rfl rfl rfl

theorem lwc1 (base ft : RegIdx) (offset : BitVec 16) : Statement (.lwc1 base ft offset) :=
  of_iFormat_primary rfl rfl rfl

theorem lwc2 (base ft : RegIdx) (offset : BitVec 16) : Statement (.lwc2 base ft offset) :=
  of_iFormat_primary rfl rfl rfl

theorem lld (base rt : RegIdx) (offset : BitVec 16) : Statement (.lld base rt offset) :=
  of_iFormat_primary rfl rfl rfl

theorem ldc1 (base ft : RegIdx) (offset : BitVec 16) : Statement (.ldc1 base ft offset) :=
  of_iFormat_primary rfl rfl rfl

theorem ldc2 (base ft : RegIdx) (offset : BitVec 16) : Statement (.ldc2 base ft offset) :=
  of_iFormat_primary rfl rfl rfl

theorem ld (base rt : RegIdx) (offset : BitVec 16) : Statement (.ld base rt offset) :=
  of_iFormat_primary rfl rfl rfl

theorem sc (base rt : RegIdx) (offset : BitVec 16) : Statement (.sc base rt offset) :=
  of_iFormat_primary rfl rfl rfl

theorem swc1 (base ft : RegIdx) (offset : BitVec 16) : Statement (.swc1 base ft offset) :=
  of_iFormat_primary rfl rfl rfl

theorem swc2 (base ft : RegIdx) (offset : BitVec 16) : Statement (.swc2 base ft offset) :=
  of_iFormat_primary rfl rfl rfl

theorem scd (base rt : RegIdx) (offset : BitVec 16) : Statement (.scd base rt offset) :=
  of_iFormat_primary rfl rfl rfl

theorem sdc1 (base ft : RegIdx) (offset : BitVec 16) : Statement (.sdc1 base ft offset) :=
  of_iFormat_primary rfl rfl rfl

theorem sdc2 (base ft : RegIdx) (offset : BitVec 16) : Statement (.sdc2 base ft offset) :=
  of_iFormat_primary rfl rfl rfl

theorem sd (base rt : RegIdx) (offset : BitVec 16) : Statement (.sd base rt offset) :=
  of_iFormat_primary rfl rfl rfl

theorem sll (rt : RegIdx) (rd : RegIdx) (sa : BitVec 5) : Statement (.sll rt rd sa) :=
  of_rFormat_special rfl rfl rfl

theorem add (rs rt rd : RegIdx) : Statement (.add rs rt rd) :=
  of_rFormat_special rfl rfl rfl

theorem addu (rs rt rd : RegIdx) : Statement (.addu rs rt rd) :=
  of_rFormat_special rfl rfl rfl

theorem srl (rt : RegIdx) (rd : RegIdx) (sa : BitVec 5) : Statement (.srl rt rd sa) :=
  of_rFormat_special rfl rfl rfl

theorem sub (rs rt rd : RegIdx) : Statement (.sub rs rt rd) :=
  of_rFormat_special rfl rfl rfl

theorem sra (rt : RegIdx) (rd : RegIdx) (sa : BitVec 5) : Statement (.sra rt rd sa) :=
  of_rFormat_special rfl rfl rfl

theorem subu (rs rt rd : RegIdx) : Statement (.subu rs rt rd) :=
  of_rFormat_special rfl rfl rfl

theorem sllv (rs rt rd : RegIdx) : Statement (.sllv rs rt rd) :=
  of_rFormat_special rfl rfl rfl

theorem and (rs rt rd : RegIdx) : Statement (.and rs rt rd) :=
  of_rFormat_special rfl rfl rfl

theorem or (rs rt rd : RegIdx) : Statement (.or rs rt rd) :=
  of_rFormat_special rfl rfl rfl

theorem srlv (rs rt rd : RegIdx) : Statement (.srlv rs rt rd) :=
  of_rFormat_special rfl rfl rfl

theorem xor (rs rt rd : RegIdx) : Statement (.xor rs rt rd) :=
  of_rFormat_special rfl rfl rfl

theorem srav (rs rt rd : RegIdx) : Statement (.srav rs rt rd) :=
  of_rFormat_special rfl rfl rfl

theorem nor (rs rt rd : RegIdx) : Statement (.nor rs rt rd) :=
  of_rFormat_special rfl rfl rfl

theorem jr (rs : RegIdx) : Statement (.jr rs) :=
  of_rFormat_special rfl rfl rfl

theorem jalr (rs rd : RegIdx) : Statement (.jalr rs rd) :=
  of_rFormat_special rfl rfl rfl

theorem slt (rs rt rd : RegIdx) : Statement (.slt rs rt rd) :=
  of_rFormat_special rfl rfl rfl

theorem sltu (rs rt rd : RegIdx) : Statement (.sltu rs rt rd) :=
  of_rFormat_special rfl rfl rfl

theorem syscall (code : BitVec 20) : Statement (.syscall code) :=
  of_codeFormat_special rfl rfl rfl

theorem dadd (rs rt rd : RegIdx) : Statement (.dadd rs rt rd) :=
  of_rFormat_special rfl rfl rfl

theorem break_ (code : BitVec 20) : Statement (.break_ code) :=
  of_codeFormat_special rfl rfl rfl

theorem daddu (rs rt rd : RegIdx) : Statement (.daddu rs rt rd) :=
  of_rFormat_special rfl rfl rfl

theorem dsub (rs rt rd : RegIdx) : Statement (.dsub rs rt rd) :=
  of_rFormat_special rfl rfl rfl

theorem sync (stype : BitVec 5) : Statement (.sync stype) :=
  of_rFormat_special rfl rfl rfl

theorem dsubu (rs rt rd : RegIdx) : Statement (.dsubu rs rt rd) :=
  of_rFormat_special rfl rfl rfl

theorem mfhi (rd : RegIdx) : Statement (.mfhi rd) :=
  of_rFormat_special rfl rfl rfl

theorem tge (rs rt : RegIdx) (code : BitVec 10) : Statement (.tge rs rt code) :=
  of_trapFormat_special rfl rfl rfl

theorem mthi (rs : RegIdx) : Statement (.mthi rs) :=
  of_rFormat_special rfl rfl rfl

theorem tgeu (rs rt : RegIdx) (code : BitVec 10) : Statement (.tgeu rs rt code) :=
  of_trapFormat_special rfl rfl rfl

theorem mflo (rd : RegIdx) : Statement (.mflo rd) :=
  of_rFormat_special rfl rfl rfl

theorem tlt (rs rt : RegIdx) (code : BitVec 10) : Statement (.tlt rs rt code) :=
  of_trapFormat_special rfl rfl rfl

theorem mtlo (rs : RegIdx) : Statement (.mtlo rs) :=
  of_rFormat_special rfl rfl rfl

theorem tltu (rs rt : RegIdx) (code : BitVec 10) : Statement (.tltu rs rt code) :=
  of_trapFormat_special rfl rfl rfl

theorem dsllv (rs rt rd : RegIdx) : Statement (.dsllv rs rt rd) :=
  of_rFormat_special rfl rfl rfl

theorem teq (rs rt : RegIdx) (code : BitVec 10) : Statement (.teq rs rt code) :=
  of_trapFormat_special rfl rfl rfl

theorem dsrlv (rs rt rd : RegIdx) : Statement (.dsrlv rs rt rd) :=
  of_rFormat_special rfl rfl rfl

theorem tne (rs rt : RegIdx) (code : BitVec 10) : Statement (.tne rs rt code) :=
  of_trapFormat_special rfl rfl rfl

theorem dsrav (rs rt rd : RegIdx) : Statement (.dsrav rs rt rd) :=
  of_rFormat_special rfl rfl rfl

theorem mult (rs rt : RegIdx) : Statement (.mult rs rt) :=
  of_rFormat_special rfl rfl rfl

theorem dsll (rt : RegIdx) (rd : RegIdx) (sa : BitVec 5) : Statement (.dsll rt rd sa) :=
  of_rFormat_special rfl rfl rfl

theorem multu (rs rt : RegIdx) : Statement (.multu rs rt) :=
  of_rFormat_special rfl rfl rfl

theorem div (rs rt : RegIdx) : Statement (.div rs rt) :=
  of_rFormat_special rfl rfl rfl

theorem dsrl (rt : RegIdx) (rd : RegIdx) (sa : BitVec 5) : Statement (.dsrl rt rd sa) :=
  of_rFormat_special rfl rfl rfl

theorem divu (rs rt : RegIdx) : Statement (.divu rs rt) :=
  of_rFormat_special rfl rfl rfl

theorem dsra (rt : RegIdx) (rd : RegIdx) (sa : BitVec 5) : Statement (.dsra rt rd sa) :=
  of_rFormat_special rfl rfl rfl

theorem dmult (rs rt : RegIdx) : Statement (.dmult rs rt) :=
  of_rFormat_special rfl rfl rfl

theorem dsll32 (rt : RegIdx) (rd : RegIdx) (sa : BitVec 5) : Statement (.dsll32 rt rd sa) :=
  of_rFormat_special rfl rfl rfl

theorem dmultu (rs rt : RegIdx) : Statement (.dmultu rs rt) :=
  of_rFormat_special rfl rfl rfl

theorem ddiv (rs rt : RegIdx) : Statement (.ddiv rs rt) :=
  of_rFormat_special rfl rfl rfl

theorem dsrl32 (rt : RegIdx) (rd : RegIdx) (sa : BitVec 5) : Statement (.dsrl32 rt rd sa) :=
  of_rFormat_special rfl rfl rfl

theorem ddivu (rs rt : RegIdx) : Statement (.ddivu rs rt) :=
  of_rFormat_special rfl rfl rfl

theorem dsra32 (rt : RegIdx) (rd : RegIdx) (sa : BitVec 5) : Statement (.dsra32 rt rd sa) :=
  of_rFormat_special rfl rfl rfl

theorem bltz (rs : RegIdx) (offset : BitVec 16) : Statement (.bltz rs offset) :=
  of_iFormat_regimm rfl rfl rfl

theorem bgez (rs : RegIdx) (offset : BitVec 16) : Statement (.bgez rs offset) :=
  of_iFormat_regimm rfl rfl rfl

theorem bltzl (rs : RegIdx) (offset : BitVec 16) : Statement (.bltzl rs offset) :=
  of_iFormat_regimm rfl rfl rfl

theorem bgezl (rs : RegIdx) (offset : BitVec 16) : Statement (.bgezl rs offset) :=
  of_iFormat_regimm rfl rfl rfl

theorem tgei (rs : RegIdx) (imm : BitVec 16) : Statement (.tgei rs imm) :=
  of_iFormat_regimm rfl rfl rfl

theorem tgeiu (rs : RegIdx) (imm : BitVec 16) : Statement (.tgeiu rs imm) :=
  of_iFormat_regimm rfl rfl rfl

theorem tlti (rs : RegIdx) (imm : BitVec 16) : Statement (.tlti rs imm) :=
  of_iFormat_regimm rfl rfl rfl

theorem tltiu (rs : RegIdx) (imm : BitVec 16) : Statement (.tltiu rs imm) :=
  of_iFormat_regimm rfl rfl rfl

theorem teqi (rs : RegIdx) (imm : BitVec 16) : Statement (.teqi rs imm) :=
  of_iFormat_regimm rfl rfl rfl

theorem tnei (rs : RegIdx) (imm : BitVec 16) : Statement (.tnei rs imm) :=
  of_iFormat_regimm rfl rfl rfl

theorem bltzal (rs : RegIdx) (offset : BitVec 16) : Statement (.bltzal rs offset) :=
  of_iFormat_regimm rfl rfl rfl

theorem bgezal (rs : RegIdx) (offset : BitVec 16) : Statement (.bgezal rs offset) :=
  of_iFormat_regimm rfl rfl rfl

theorem bltzall (rs : RegIdx) (offset : BitVec 16) : Statement (.bltzall rs offset) :=
  of_iFormat_regimm rfl rfl rfl

theorem bgezall (rs : RegIdx) (offset : BitVec 16) : Statement (.bgezall rs offset) :=
  of_iFormat_regimm rfl rfl rfl

theorem mfc0 (rt rd : RegIdx) : Statement (.mfc0 rt rd) :=
  of_rFormat_cop rfl rfl rfl

theorem dmfc0 (rt rd : RegIdx) : Statement (.dmfc0 rt rd) :=
  of_rFormat_cop rfl rfl rfl

theorem mtc0 (rt rd : RegIdx) : Statement (.mtc0 rt rd) :=
  of_rFormat_cop rfl rfl rfl

theorem dmtc0 (rt rd : RegIdx) : Statement (.dmtc0 rt rd) :=
  of_rFormat_cop rfl rfl rfl

theorem bc0 (ndTf : BitVec 2) (offset : BitVec 16) : Statement (.bc0 ndTf offset) :=
  of_iFormat_cop rfl rfl rfl

theorem tlbr : Statement .tlbr :=
  of_rFormat_co rfl rfl rfl

theorem tlbwi : Statement .tlbwi :=
  of_rFormat_co rfl rfl rfl

theorem tlbwr : Statement .tlbwr :=
  of_rFormat_co rfl rfl rfl

theorem tlbp : Statement .tlbp :=
  of_rFormat_co rfl rfl rfl

theorem eret : Statement .eret :=
  of_rFormat_co rfl rfl rfl

theorem cfc1 (rt fs : RegIdx) : Statement (.cfc1 rt fs) :=
  of_rFormat_cop rfl rfl rfl

theorem ctc1 (rt fs : RegIdx) : Statement (.ctc1 rt fs) :=
  of_rFormat_cop rfl rfl rfl

theorem mfc1 (rt fs : RegIdx) : Statement (.mfc1 rt fs) :=
  of_rFormat_cop rfl rfl rfl

theorem dmfc1 (rt fs : RegIdx) : Statement (.dmfc1 rt fs) :=
  of_rFormat_cop rfl rfl rfl

theorem mtc1 (rt fs : RegIdx) : Statement (.mtc1 rt fs) :=
  of_rFormat_cop rfl rfl rfl

theorem dmtc1 (rt fs : RegIdx) : Statement (.dmtc1 rt fs) :=
  of_rFormat_cop rfl rfl rfl

theorem bc1 (ndTf : BitVec 2) (offset : BitVec 16) : Statement (.bc1 ndTf offset) :=
  of_iFormat_cop rfl rfl rfl

theorem cop1S (ft fs fd : RegIdx) (funct : BitVec 6) : Statement (.cop1S ft fs fd funct) :=
  of_rFormat_cop rfl rfl rfl

theorem cop1D (ft fs fd : RegIdx) (funct : BitVec 6) : Statement (.cop1D ft fs fd funct) :=
  of_rFormat_cop rfl rfl rfl

theorem cop1W (ft fs fd : RegIdx) (funct : BitVec 6) : Statement (.cop1W ft fs fd funct) :=
  of_rFormat_cop rfl rfl rfl

theorem cop1L (ft fs fd : RegIdx) (funct : BitVec 6) : Statement (.cop1L ft fs fd funct) :=
  of_rFormat_cop rfl rfl rfl

theorem cop2 (cofun : BitVec 26) : Statement (.cop2 cofun) :=
  of_jFormat_primary rfl rfl rfl

theorem cop3 (cofun : BitVec 26) : Statement (.cop3 cofun) :=
  of_jFormat_primary rfl rfl rfl

end Sys2Proof.Laws.TableBits
end

