-- ==== Sys2Proof/Laws/Values.lean ====
section
/-! SUPPORT. The bytes a sized access reads and leaves, at every address of its word or doubleword
(spec/20_memory.md R241, R244 to R248). -/

namespace Sys2Proof.Machine

open State

/-! ## One word -/

/-- The bytes of a word that was read. -/
theorem guestByte_memRead32 {s : State} {va vb : Addr} {w : BusWord} (h : memRead32 s va = .next w)
    (hv : vb.toNat / 4 = va.toNat / 4) : guestByte s vb = w.extractLsb' (8 * byteLane s.be vb) 8 := by
  obtain ⟨-, hs, c, hc, rfl⟩ := memRead32_cell h
  exact guestByte_eq hs hc hv

/-- The bytes of a word that was written. -/
theorem guestByte_memWrite32 {s t : State} {va vb : Addr} {v : BusWord} (hwf : Memory.wf s.mem = true)
    (h : memWrite32 s va v = .next t) (hv : vb.toNat / 4 = va.toNat / 4) :
    guestByte t vb = v.extractLsb' (8 * byteLane s.be vb) 8 := by
  obtain ⟨-, hs, c, hc, rfl⟩ := memWrite32_cell h
  have e := guestByte_eq (s := s.setMem (Memory.writeWord s.mem c v)) hs hc hv
  rw [e]
  show (Memory.readWord (Memory.writeWord s.mem c v) c).extractLsb' _ 8 = _
  rw [Memory.readWord_writeWord_self _ _ _ hwf]
  rfl

theorem memWrite32_value {s t : State} {va : Addr} {v : BusWord} (hwf : Memory.wf s.mem = true)
    (h : memWrite32 s va v = .next t) : guestValue t va 4 = v.toNat := by
  obtain ⟨ha, hs, c, hc, rfl⟩ := memWrite32_cell h
  rw [guestValue_word (s := s.setMem (Memory.writeWord s.mem c v)) hs hc ha]
  show (Memory.readWord (Memory.writeWord s.mem c v) c).toNat = _
  rw [Memory.readWord_writeWord_self _ _ _ hwf]

/-- The byte of the stored value at an address of a sub-word store. -/
theorem guestByte_memWriteSub {s t : State} {va vb : Addr} {n k : Nat} {v : BitVec k}
    (hn : n = 1 ∨ n = 2) (hk : k = 8 * n) (hwf : Memory.wf s.mem = true)
    (h : memWriteSub s va n v = .next t) (hv : vb.toNat / 4 = va.toNat / 4) (j : Nat)
    (hj : (if s.be then 4 - n - va.toNat % 4 else va.toNat % 4) = j) :
    guestByte t vb = if j ≤ byteLane s.be vb ∧ byteLane s.be vb < j + n
      then v.extractLsb' (8 * (byteLane s.be vb - j)) 8 else guestByte s vb := by
  obtain ⟨ha, hs, c, hc, rfl⟩ := memWriteSub_cell h
  have hp : (physical va).toNat % 4 = va.toNat % 4 := by rw [toNat_physical]; omega
  have hpn : (physical va).toNat % n = 0 := by rw [toNat_physical]; rcases hn with rfl | rfl <;> omega
  have hjn : j + n ≤ 4 := by
    subst hj; rcases hn with rfl | rfl <;> cases s.be <;> simp <;> omega
  have e0 := guestByte_eq hs hc hv
  rw [toNat_lane _ _ _ hn hpn, hp, hj]
  rw [guestByte_eq (s := s.setMem (Memory.writeWord s.mem c _)) hs hc hv]
  show (Memory.readWord (Memory.writeWord s.mem c _) c).extractLsb' (8 * byteLane s.be vb) 8 = _
  rw [Memory.readWord_writeWord_self _ _ _ hwf,
    mergeLane_byte _ _ n v hk hjn _ (byteLane_lt _ _), e0]

theorem memWrite8_value {s t : State} {va : Addr} {v : BitVec 8} (hwf : Memory.wf s.mem = true)
    (h : memWrite8 s va v = .next t) : guestValue t va 1 = v.toNat := by
  rw [guestValue_one, guestByte_memWriteSub (.inl rfl) rfl hwf h rfl _ rfl]
  have e : (if s.be = true then 4 - 1 - va.toNat % 4 else va.toNat % 4) = byteLane s.be va := rfl
  rw [e, if_pos ⟨Nat.le_refl _, by omega⟩, Nat.sub_self]
  simp

theorem memWrite16_value {s t : State} {va : Addr} {v : BitVec 16} (hwf : Memory.wf s.mem = true)
    (h : memWrite16 s va v = .next t) : guestValue t va 2 = v.toNat := by
  obtain ⟨ha, hs, c, hc, ht⟩ := memWriteSub_cell h
  have hlt := (inSegment_iff va).1 hs
  have n1 : (va + 1).toNat = va.toNat + 1 := by rw [BitVec.toNat_add]; simp; omega
  have hbe : t.be = s.be := by rw [ht]; rfl
  have hl := v.isLt
  rw [guestValue_two, guestByte_memWriteSub (.inr rfl) rfl hwf h rfl _ rfl,
    guestByte_memWriteSub (.inr rfl) rfl hwf h (vb := va + 1) (by omega) _ rfl, hbe]
  unfold byteLane
  rw [n1]
  cases s.be
  · simp only [Bool.false_eq_true, if_false, show (va.toNat + 1) % 4 = va.toNat % 4 + 1 by omega]
    rw [if_pos (by omega), if_pos (by omega)]
    simp only [BitVec.extractLsb'_toNat, Nat.add_sub_cancel_left, Nat.sub_self,
      Nat.shiftRight_eq_div_pow]
    omega
  · simp only [if_true, show (va.toNat + 1) % 4 = va.toNat % 4 + 1 by omega]
    rw [if_pos (by omega), if_pos (by omega)]
    simp only [BitVec.extractLsb'_toNat, Nat.shiftRight_eq_div_pow,
      show 3 - va.toNat % 4 - (4 - 2 - va.toNat % 4) = 1 by omega,
      show 3 - (va.toNat % 4 + 1) - (4 - 2 - va.toNat % 4) = 0 by omega]
    omega

/-! ## One doubleword -/

/-- The byte at an address of a doubleword whose cells are known. -/
theorem guestByte_dword {s : State} {va vb : Addr} {c d : Nat} (hs : inSegment va = true)
    (ha : va.toNat % 8 = 0)
    (hc : memCell s.params.busMap (wordBase (physical va)).toNat = some c)
    (hd : memCell s.params.busMap (wordBase (physical (va + 4))).toNat = some d)
    (hv : vb.toNat / 8 = va.toNat / 8) :
    guestByte s vb = (dwordOf s.be (Memory.readWord s.mem c) (Memory.readWord s.mem d)).extractLsb'
      (8 * byteLane8 s.be vb) 8 := by
  have n4 := toNat_add_four hs
  have hl : byteLane8 s.be vb < 8 := by unfold byteLane8; split <;> omega
  rw [dwordOf_byte _ _ _ _ hl]
  by_cases hw : vb.toNat % 8 < 4
  · rw [guestByte_eq hs hc (vb := vb) (by omega)]
    unfold byteLane byteLane8
    cases s.be
    · simp only [Bool.false_eq_true, if_false]
      rw [if_pos (by omega), show vb.toNat % 8 = vb.toNat % 4 by omega]
    · simp only [if_true]
      rw [if_neg (by omega), show 7 - vb.toNat % 8 - 4 = 3 - vb.toNat % 4 by omega]
  · rw [guestByte_eq (inSegment_add_four hs ha) hd (vb := vb) (by omega)]
    unfold byteLane byteLane8
    cases s.be
    · simp only [Bool.false_eq_true, if_false]
      rw [if_neg (by omega), show vb.toNat % 8 - 4 = vb.toNat % 4 by omega]
    · simp only [if_true]
      rw [if_pos (by omega), show 7 - vb.toNat % 8 = 3 - vb.toNat % 4 by omega]

/-- The bytes of a doubleword that was read. -/
theorem guestByte_memRead64 {s : State} {va vb : Addr} {v : BitVec 64} (h : memRead64 s va = .next v)
    (hv : vb.toNat / 8 = va.toNat / 8) : guestByte s vb = v.extractLsb' (8 * byteLane8 s.be vb) 8 := by
  obtain ⟨ha, hs, c, d, hc, hd, rfl⟩ := memRead64_cell h
  exact guestByte_dword hs ha hc hd hv

/-- The two words of a doubleword that was written, when they share no cell. -/
theorem memWrite64_words {s t : State} {va : Addr} {v : BitVec 64} (hwf : Memory.wf s.mem = true)
    (hap : wordsApart s va = true) (h : memWrite64 s va v = .next t) :
    va.toNat % 8 = 0 ∧ inSegment va = true ∧ ∃ m c d, t = s.setMem m ∧
      memCell s.params.busMap (wordBase (physical va)).toNat = some c ∧
      memCell s.params.busMap (wordBase (physical (va + 4))).toNat = some d ∧
      dwordOf s.be (Memory.readWord m c) (Memory.readWord m d) = v := by
  obtain ⟨ha, hs, c, d, hc, hd, ht⟩ := memWrite64_cell h
  refine ⟨ha, hs, _, c, d, ht, hc, hd, ?_⟩
  rw [wordsApart, hc, hd] at hap
  simp only [Bool.or_eq_true, decide_eq_true_eq] at hap
  rw [Memory.readWord_writeWord_disjoint _ _ _ _ (by omega), Memory.readWord_writeWord_self _ _ _ hwf,
    Memory.readWord_writeWord_self _ _ _ (Memory.wf_writeWord _ _ _ hwf)]
  unfold dwordOf
  apply BitVec.eq_of_getLsbD_eq
  intro i hi
  cases s.be <;>
    simp only [Bool.false_eq_true, if_false, if_true, BitVec.getLsbD_append,
      BitVec.getLsbD_extractLsb'] <;> grind

/-- The bytes of a doubleword that was written. -/
theorem guestByte_memWrite64 {s t : State} {va vb : Addr} {v : BitVec 64} (hwf : Memory.wf s.mem = true)
    (hap : wordsApart s va = true) (h : memWrite64 s va v = .next t)
    (hv : vb.toNat / 8 = va.toNat / 8) : guestByte t vb = v.extractLsb' (8 * byteLane8 s.be vb) 8 := by
  obtain ⟨ha, hs, m, c, d, rfl, hc, hd, hw⟩ := memWrite64_words hwf hap h
  rw [guestByte_dword (s := s.setMem m) hs ha hc hd hv]
  show (dwordOf s.be (Memory.readWord m c) (Memory.readWord m d)).extractLsb' _ 8 = _
  rw [hw]
  rfl

theorem memWrite64_value {s t : State} {va : Addr} {v : BitVec 64} (hwf : Memory.wf s.mem = true)
    (hap : wordsApart s va = true) (h : memWrite64 s va v = .next t) : guestValue t va 8 = v.toNat := by
  obtain ⟨ha, hs, m, c, d, rfl, hc, hd, hw⟩ := memWrite64_words hwf hap h
  have n4 := toNat_add_four hs
  have l1 := (Memory.readWord m c).isLt
  have l2 := (Memory.readWord m d).isLt
  rw [guestValue_eight, guestValue_word (s := s.setMem m) hs hc (by omega),
    guestValue_word (s := s.setMem m) (inSegment_add_four hs ha) hd (by omega), ← hw]
  show (if s.be then (Memory.readWord m c).toNat * 2 ^ 32 + (Memory.readWord m d).toNat
    else (Memory.readWord m d).toNat * 2 ^ 32 + (Memory.readWord m c).toNat) = _
  unfold dwordOf
  cases s.be
  · rw [if_neg (by decide), if_neg (by decide), BitVec.toNat_append,
      ← Nat.shiftLeft_add_eq_or_of_lt (BitVec.isLt _), Nat.shiftLeft_eq]
  · rw [if_pos rfl, if_pos rfl, BitVec.toNat_append,
      ← Nat.shiftLeft_add_eq_or_of_lt (BitVec.isLt _), Nat.shiftLeft_eq]

end Sys2Proof.Machine
end

