-- ==== Sys2Proof/Tests/Slice0.lean ====
section
/-! SUPPORT. Tests. Words are written from the field places of spec/opcode_table.json; the expected results
are those of spec/95_test_vectors.md, whose number each test gives, or worked out by hand from the rule it
names. The witnesses at the end show that the hypotheses of every statement can be met. -/

namespace Sys2Proof.Tests

open Sys2Proof.Machine

/-! ## Decoding: every row of the opcode table -/

/-- Every word of the table decodes to the instruction beside it. -/
def decodesAll (l : List (Nat × Instr)) : Bool := l.all fun p => decodeTableWord 32 p.1 == some p.2

def words1 : List (Nat × Instr) :=
  [(0x0A000801, .j 0x2000801),
   (0x0E000801, .jal 0x2000801),
   (0x112A7FFC, .beq 9 10 0x7ffc),
   (0x152A7FFC, .bne 9 10 0x7ffc),
   (0x19207FFC, .blez 9 0x7ffc),
   (0x1D207FFC, .bgtz 9 0x7ffc),
   (0x212A8003, .addi 9 10 0x8003),
   (0x252A8003, .addiu 9 10 0x8003),
   (0x292A8003, .slti 9 10 0x8003),
   (0x2D2A8003, .sltiu 9 10 0x8003),
   (0x312A8003, .andi 9 10 0x8003),
   (0x352A8003, .ori 9 10 0x8003)]
theorem test_decode_words1 : decodesAll words1 = true := by decide

def words2 : List (Nat × Instr) :=
  [(0x392A8003, .xori 9 10 0x8003),
   (0x3C0A8003, .lui 10 0x8003),
   (0x512A7FFC, .beql 9 10 0x7ffc),
   (0x552A7FFC, .bnel 9 10 0x7ffc),
   (0x59207FFC, .blezl 9 0x7ffc),
   (0x5D207FFC, .bgtzl 9 0x7ffc),
   (0x612A8003, .daddi 9 10 0x8003),
   (0x652A8003, .daddiu 9 10 0x8003),
   (0x692A7FFC, .ldl 9 10 0x7ffc),
   (0x6D2A7FFC, .ldr 9 10 0x7ffc),
   (0x812A7FFC, .lb 9 10 0x7ffc),
   (0x852A7FFC, .lh 9 10 0x7ffc)]
theorem test_decode_words2 : decodesAll words2 = true := by decide

def words3 : List (Nat × Instr) :=
  [(0x892A7FFC, .lwl 9 10 0x7ffc),
   (0x8D2A7FFC, .lw 9 10 0x7ffc),
   (0x912A7FFC, .lbu 9 10 0x7ffc),
   (0x952A7FFC, .lhu 9 10 0x7ffc),
   (0x992A7FFC, .lwr 9 10 0x7ffc),
   (0x9D2A7FFC, .lwu 9 10 0x7ffc),
   (0xA12A7FFC, .sb 9 10 0x7ffc),
   (0xA52A7FFC, .sh 9 10 0x7ffc),
   (0xA92A7FFC, .swl 9 10 0x7ffc),
   (0xAD2A7FFC, .sw 9 10 0x7ffc),
   (0xB12A7FFC, .sdl 9 10 0x7ffc),
   (0xB52A7FFC, .sdr 9 10 0x7ffc)]
theorem test_decode_words3 : decodesAll words3 = true := by decide

def words4 : List (Nat × Instr) :=
  [(0xB92A7FFC, .swr 9 10 0x7ffc),
   (0xBD397FFC, .cache 9 25 0x7ffc),
   (0xC12A7FFC, .ll 9 10 0x7ffc),
   (0xC5247FFC, .lwc1 9 4 0x7ffc),
   (0xC9247FFC, .lwc2 9 4 0x7ffc),
   (0xD12A7FFC, .lld 9 10 0x7ffc),
   (0xD5247FFC, .ldc1 9 4 0x7ffc),
   (0xD9247FFC, .ldc2 9 4 0x7ffc),
   (0xDD2A7FFC, .ld 9 10 0x7ffc),
   (0xE12A7FFC, .sc 9 10 0x7ffc),
   (0xE5247FFC, .swc1 9 4 0x7ffc),
   (0xE9247FFC, .swc2 9 4 0x7ffc)]
theorem test_decode_words4 : decodesAll words4 = true := by decide

def words5 : List (Nat × Instr) :=
  [(0xF12A7FFC, .scd 9 10 0x7ffc),
   (0xF5247FFC, .sdc1 9 4 0x7ffc),
   (0xF9247FFC, .sdc2 9 4 0x7ffc),
   (0xFD2A7FFC, .sd 9 10 0x7ffc),
   (0x000A4140, .sll 10 8 5),
   (0x012A4020, .add 9 10 8),
   (0x012A4021, .addu 9 10 8),
   (0x000A4142, .srl 10 8 5),
   (0x012A4022, .sub 9 10 8),
   (0x000A4143, .sra 10 8 5),
   (0x012A4023, .subu 9 10 8),
   (0x012A4004, .sllv 9 10 8)]
theorem test_decode_words5 : decodesAll words5 = true := by decide

def words6 : List (Nat × Instr) :=
  [(0x012A4024, .and 9 10 8),
   (0x012A4025, .or 9 10 8),
   (0x012A4006, .srlv 9 10 8),
   (0x012A4026, .xor 9 10 8),
   (0x012A4007, .srav 9 10 8),
   (0x012A4027, .nor 9 10 8),
   (0x01200008, .jr 9),
   (0x01204009, .jalr 9 8),
   (0x012A402A, .slt 9 10 8),
   (0x012A402B, .sltu 9 10 8),
   (0x00AA954C, .syscall 0x2aa55),
   (0x012A402C, .dadd 9 10 8)]
theorem test_decode_words6 : decodesAll words6 = true := by decide

def words7 : List (Nat × Instr) :=
  [(0x00AA954D, .break_ 0x2aa55),
   (0x012A402D, .daddu 9 10 8),
   (0x012A402E, .dsub 9 10 8),
   (0x000000CF, .sync 3),
   (0x012A402F, .dsubu 9 10 8),
   (0x00004010, .mfhi 8),
   (0x012A5570, .tge 9 10 0x155),
   (0x01200011, .mthi 9),
   (0x012A5571, .tgeu 9 10 0x155),
   (0x00004012, .mflo 8),
   (0x012A5572, .tlt 9 10 0x155),
   (0x01200013, .mtlo 9)]
theorem test_decode_words7 : decodesAll words7 = true := by decide

def words8 : List (Nat × Instr) :=
  [(0x012A5573, .tltu 9 10 0x155),
   (0x012A4014, .dsllv 9 10 8),
   (0x012A5574, .teq 9 10 0x155),
   (0x012A4016, .dsrlv 9 10 8),
   (0x012A5576, .tne 9 10 0x155),
   (0x012A4017, .dsrav 9 10 8),
   (0x012A0018, .mult 9 10),
   (0x000A4178, .dsll 10 8 5),
   (0x012A0019, .multu 9 10),
   (0x012A001A, .div 9 10),
   (0x000A417A, .dsrl 10 8 5),
   (0x012A001B, .divu 9 10)]
theorem test_decode_words8 : decodesAll words8 = true := by decide

def words9 : List (Nat × Instr) :=
  [(0x000A417B, .dsra 10 8 5),
   (0x012A001C, .dmult 9 10),
   (0x000A417C, .dsll32 10 8 5),
   (0x012A001D, .dmultu 9 10),
   (0x012A001E, .ddiv 9 10),
   (0x000A417E, .dsrl32 10 8 5),
   (0x012A001F, .ddivu 9 10),
   (0x000A417F, .dsra32 10 8 5),
   (0x05207FFC, .bltz 9 0x7ffc),
   (0x05217FFC, .bgez 9 0x7ffc),
   (0x05227FFC, .bltzl 9 0x7ffc),
   (0x05237FFC, .bgezl 9 0x7ffc)]
theorem test_decode_words9 : decodesAll words9 = true := by decide

def words10 : List (Nat × Instr) :=
  [(0x05288003, .tgei 9 0x8003),
   (0x05298003, .tgeiu 9 0x8003),
   (0x052A8003, .tlti 9 0x8003),
   (0x052B8003, .tltiu 9 0x8003),
   (0x052C8003, .teqi 9 0x8003),
   (0x052E8003, .tnei 9 0x8003),
   (0x05307FFC, .bltzal 9 0x7ffc),
   (0x05317FFC, .bgezal 9 0x7ffc),
   (0x05327FFC, .bltzall 9 0x7ffc),
   (0x05337FFC, .bgezall 9 0x7ffc),
   (0x400A4000, .mfc0 10 8),
   (0x402A4000, .dmfc0 10 8)]
theorem test_decode_words10 : decodesAll words10 = true := by decide

def words11 : List (Nat × Instr) :=
  [(0x408A4000, .mtc0 10 8),
   (0x40AA4000, .dmtc0 10 8),
   (0x41027FFC, .bc0 2 0x7ffc),
   (0x42000001, .tlbr),
   (0x42000002, .tlbwi),
   (0x42000006, .tlbwr),
   (0x42000008, .tlbp),
   (0x42000018, .eret),
   (0x444A3000, .cfc1 10 6),
   (0x44CA3000, .ctc1 10 6),
   (0x440A3000, .mfc1 10 6),
   (0x442A3000, .dmfc1 10 6)]
theorem test_decode_words11 : decodesAll words11 = true := by decide

def words12 : List (Nat × Instr) :=
  [(0x448A3000, .mtc1 10 6),
   (0x44AA3000, .dmtc1 10 6),
   (0x45027FFC, .bc1 2 0x7ffc),
   (0x460430A1, .cop1S 4 6 2 33),
   (0x462430A1, .cop1D 4 6 2 33),
   (0x468430A1, .cop1W 4 6 2 33),
   (0x46A430A1, .cop1L 4 6 2 33),
   (0x49800005, .cop2 0x1800005),
   (0x4D800005, .cop3 0x1800005)]
theorem test_decode_words12 : decodesAll words12 = true := by decide

/-- R322: the ignored bits do not change the instruction. -/
def ignoredBits : List (Nat × Instr) :=
  [(0x03E94100, .sll 9 8 4), (0x012A47E0, .add 9 10 8), (0x013FFFC8, .jr 9), (0x3FE88000, .lui 8 0x8000),
   (0x193F0001, .blez 9 1), (0x03FFFFCF, .sync 31), (0x4008E7FF, .mfc0 8 28), (0x43FFFFD8, .eret),
   (0x44487FFF, .cfc1 8 15)]
theorem test_decode_ignored_bits : decodesAll ignoredBits = true := by decide

/-- Words of no row: R340, R341, R342, R344, R345 leave them out. -/
def noRow : List Nat :=
  [0x70000000, 0x78000000, 0xCC000000, 0xEC000000, 0x00000001, 0x0000000E,
   0x00000028, 0x00000035, 0x0000003D, 0x04040000, 0x040D0000, 0x041F0000, 0x40400000, 0x40C00000,
   0x42000000, 0x42000010, 0x44600000, 0x46400000, 0x46C00000]
theorem test_decode_no_row : (noRow.all fun w => decodeTableWord 32 w == none) = true := by decide
theorem test_decode_truncated : decodeBytes [0, 0, 0] = .error .truncated := by rfl
theorem test_decode_reserved_by_name : decode 0x70000000#32 = .error (.reservedPrimary 0x1C) := by rfl

/-! ## Well-formedness: every check refuses an ill-formed term -/

theorem test_wf_jalr : (Instr.jalr 9 9).wf = false := by decide
theorem test_wf_bltzal : (Instr.bltzal 31 1).wf = false := by decide
theorem test_wf_bgezal : (Instr.bgezal 31 1).wf = false := by decide
theorem test_wf_bltzall : (Instr.bltzall 31 1).wf = false := by decide
theorem test_wf_bgezall : (Instr.bgezall 31 1).wf = false := by decide
theorem test_wf_accepts : ((Instr.jalr 9 31).wf && (Instr.bgezal 9 1).wf && (Instr.jr 31).wf) = true := by
  decide

/-- One entry of plain memory over a range. -/
def ram (a b : Nat) (rest : BusTable) : BusTable := .entry ⟨⟨a, b, false⟩, .memory 0, true, true⟩ rest

theorem test_bus_overlap : BusTable.wf (ram 0 0xFF (ram 0xFF 0x1FF .empty)) = false := by decide
theorem test_bus_adjacent : BusTable.wf (ram 0 0xFF (ram 0x100 0x1FF .empty)) = true := by decide
theorem test_bus_reversed : BusTable.wf (ram 8 7 .empty) = false := by decide
theorem test_bus_reversed_forward : BusTable.wf (.forward ⟨8, 7, true⟩ .empty .empty) = false := by decide
theorem test_bus_sub_overlap :
    BusTable.wf (.forward ⟨0, 7, true⟩ (ram 0 4 (ram 4 7 .empty)) .empty) = false := by decide
theorem test_bus_forward_overlap :
    BusTable.wf (.forward ⟨0, 7, true⟩ .empty (ram 7 9 .empty)) = false := by decide

/-! ## One step -/

/-- The conventions of spec/95_test_vectors.md: Kernel mode, nothing pending, at kseg0 0x1000, the words
0x11223344 and 0x55667788 at physical 0x100, `$t1` (9) pointing at them, and its platform: RAM to
0x007FFFFF, ROM without a write function at 0x1FC00000. -/
def start : State :=
  let s : State := { State.powerOn with
    pc := 0xFFFFFFFF80001000
    mem := [(0x100, 0x11), (0x101, 0x22), (0x102, 0x33), (0x103, 0x44),
            (0x104, 0x55), (0x105, 0x66), (0x106, 0x77), (0x107, 0x88)]
    params := { defaultParams with
      busMap := ram 0 0x7FFFFF (.entry ⟨⟨0x1FC00000, 0x1FC00FFF, false⟩, .memory 0, true, false⟩ .empty) } }
  (s.setC0 16 0x8000).setX 9 0xFFFFFFFF80000100

/-- `$t1` (9), `$t2` (10) and `$t0` (8). -/
def regs (a b c : Word) : State := ((start.setX 9 a).setX 10 b).setX 8 c

/-- The same machine with Config.BE = 0. -/
def little (s : State) : State := s.setC0 16 0

/-- What one step that fetches `w` leaves, read by `f`. -/
def after {α : Type} (s : State) (w : Nat) (f : State → α) : Option α :=
  match step (s.withFetchWord 32 w) with
  | .next t => some (f t)
  | _ => none

/-- The fault one step that fetches `w` ends in. -/
def stops (s : State) (w : Nat) : Option Fault :=
  match step (s.withFetchWord 32 w) with
  | .fault r => some r
  | _ => none

/-- ExcCode, EPC, BadVAddr, BD and pc after an exception entry. -/
def entry (t : State) : Nat × Word × Word × Bool × Word :=
  ((CauseReg.excCode t.cause).toNat, t.c0 14, t.c0 8, CauseReg.bd t.cause, t.pc)

/-- The entry of an ordinary instruction at kseg0 0x1000, EXL = BEV = 0. -/
def entered (code : Nat) : Option (Nat × Word × Word × Bool × Word) :=
  some (code, 0xFFFFFFFF80001000, 0xFFFFFFFF80001000, false, 0xFFFFFFFF80000180)

/-- The bus word at a physical address. -/
def busWord (p : Nat) (t : State) : BusWord := Memory.readWord t.mem p

/-- Bits 31:0 under a draw. -/
theorem lo32_freeWord (n : Nat) (r : BitVec 32) : lo32 (Config.freeWord n ++ r) = r :=
  BitVec.setWidth_append_eq_right

/-- The delay-slot marker and pc. -/
def flow (t : State) : Option Addr × Addr := (t.ds, t.pc)

/-! Integer arithmetic and logic. -/

-- ALU-1
theorem test_addu :
    after (regs 0x7fffffff 0x1 0x0) 0x012A4021 (·.x 8) = some 0xffffffff80000000 := by decide

-- ALU-2
theorem test_add_low_words :
    after (regs 0x100000001 0x1 0x0) 0x012A4020 (·.x 8) = some 0x2 := by decide

-- ALU-3
theorem test_add_overflow :
    after (regs 0x7FFFFFFF 1 9) 0x012A4020 (fun t => (entry t, t.x 8)) = (entered 12).map fun e => (e, 9) := by decide

-- ALU-4
theorem test_sub_overflow :
    after (regs 0xFFFFFFFF80000000 1 0) 0x012A4022 entry = entered 12 := by decide

-- ALU-5
theorem test_subu :
    after (regs 0x0 0x1 0x0) 0x012A4023 (·.x 8) = some 0xffffffffffffffff := by decide

-- ALU-6
theorem test_dadd_overflow :
    after (regs 0x7FFFFFFFFFFFFFFF 1 0) 0x012A402C entry = entered 12 := by decide

-- ALU-7
theorem test_daddu :
    after (regs 0x7fffffffffffffff 0x1 0x0) 0x012A402D (·.x 8) = some 0x8000000000000000 := by decide

-- ALU-8
theorem test_dsub_overflow :
    after (regs 0x8000000000000000 1 0) 0x012A402E entry = entered 12 := by decide

-- ALU-9
theorem test_dsubu :
    after (regs 0x0 0x1 0x0) 0x012A402F (·.x 8) = some 0xffffffffffffffff := by decide

-- ALU-10
theorem test_daddi_overflow :
    after (regs 0x7FFFFFFFFFFFFFFF 0 0) 0x61280001 entry = entered 12 := by decide

-- ALU-11
theorem test_daddiu :
    after (regs 0x0 0x0 0x0) 0x6528FFFF (·.x 8) = some 0xffffffffffffffff := by decide

-- ALU-12
theorem test_addiu :
    after (regs 0x0 0x0 0x0) 0x24088000 (·.x 8) = some 0xffffffffffff8000 := by decide

-- R500, by hand: 5 - 2
theorem test_addi :
    after (regs 0x5 0x0 0x0) 0x2128FFFE (·.x 8) = some 0x3 := by decide

-- R500, R520, by hand: -2^31 - 1
theorem test_addi_overflow :
    after (regs 0xFFFFFFFF80000000 0 0) 0x2128FFFF entry = entered 12 := by decide

-- ALU-13
theorem test_and :
    after (regs 0xff00ff00ff00ff00 0xff00ff00ff00ff0 0x0) 0x012A4024 (·.x 8) = some 0xf000f000f000f00 := by decide

-- ALU-13
theorem test_or :
    after (regs 0xff00ff00ff00ff00 0xff00ff00ff00ff0 0x0) 0x012A4025 (·.x 8) = some 0xfff0fff0fff0fff0 := by decide

-- ALU-13
theorem test_xor :
    after (regs 0xff00ff00ff00ff00 0xff00ff00ff00ff0 0x0) 0x012A4026 (·.x 8) = some 0xf0f0f0f0f0f0f0f0 := by decide

-- ALU-14
theorem test_nor :
    after (regs 0x0 0x0 0x0) 0x012A4027 (·.x 8) = some 0xffffffffffffffff := by decide

-- ALU-15
theorem test_andi :
    after (regs 0xffffffffffffffff 0x0 0x0) 0x31288000 (·.x 8) = some 0x8000 := by decide

-- ALU-16
theorem test_ori :
    after (regs 0x0 0x0 0x0) 0x35288000 (·.x 8) = some 0x8000 := by decide

-- R536, by hand: the immediate is zero-extended
theorem test_xori :
    after (regs 0xffffffffffffffff 0x0 0x0) 0x39288001 (·.x 8) = some 0xffffffffffff7ffe := by decide

-- ALU-17
theorem test_lui :
    after (regs 0x0 0x0 0x0) 0x3C088000 (·.x 8) = some 0xffffffff80000000 := by decide

-- ALU-18
theorem test_slt :
    after (regs 0xffffffffffffffff 0x0 0x9) 0x012A402A (·.x 8) = some 0x1 := by decide

-- ALU-18
theorem test_sltu :
    after (regs 0xffffffffffffffff 0x0 0x9) 0x012A402B (·.x 8) = some 0x0 := by decide

-- R542, by hand: -2 < -1
theorem test_slti :
    after (regs 0xfffffffffffffffe 0x0 0x9) 0x2928FFFF (·.x 8) = some 0x1 := by decide

-- ALU-19
theorem test_sltiu :
    after (regs 0xffffffffffffffff 0x0 0x9) 0x2D28FFFF (·.x 8) = some 0x0 := by decide

-- ALU-20
theorem test_sll :
    after (regs 0x8000001 0x0 0x0) 0x00094100 (·.x 8) = some 0xffffffff80000010 := by decide

-- ALU-21
theorem test_srl :
    after (regs 0x180000000 0x0 0x0) 0x00094002 (·.x 8) = some 0xffffffff80000000 := by decide

-- ALU-22
theorem test_sra :
    after (regs 0x80000000 0x0 0x0) 0x00094103 (·.x 8) = some 0xfffffffff8000000 := by decide

-- ALU-23
theorem test_sllv :
    after (regs 0x1 0x21 0x0) 0x01494004 (·.x 8) = some 0x2 := by decide

-- R554, by hand: the low word right by 36 mod 32
theorem test_srlv :
    after (regs 0x180000000 0x24 0x0) 0x01494006 (·.x 8) = some 0x8000000 := by decide

-- R555, by hand
theorem test_srav :
    after (regs 0x80000000 0x24 0x0) 0x01494007 (·.x 8) = some 0xfffffffff8000000 := by decide

-- ALU-24
theorem test_dsllv :
    after (regs 0x1 0x41 0x0) 0x01494014 (·.x 8) = some 0x2 := by decide

-- R563, by hand: 127 mod 64
theorem test_dsrlv :
    after (regs 0x8000000000000000 0x7f 0x0) 0x01494016 (·.x 8) = some 0x1 := by decide

-- R564, by hand
theorem test_dsrav :
    after (regs 0x8000000000000000 0x7f 0x0) 0x01494017 (·.x 8) = some 0xffffffffffffffff := by decide

-- R556, by hand
theorem test_dsll :
    after (regs 0x8000000000000001 0x0 0x0) 0x00094138 (·.x 8) = some 0x10 := by decide

-- R557, by hand
theorem test_dsrl :
    after (regs 0x8000000000000000 0x0 0x0) 0x0009413A (·.x 8) = some 0x800000000000000 := by decide

-- R558, by hand
theorem test_dsra :
    after (regs 0x8000000000000000 0x0 0x0) 0x0009413B (·.x 8) = some 0xf800000000000000 := by decide

-- R559, by hand: left by 63
theorem test_dsll32 :
    after (regs 0x1 0x0 0x0) 0x000947FC (·.x 8) = some 0x8000000000000000 := by decide

-- ALU-26
theorem test_dsrl32 :
    after (regs 0x8765432112345678 0x0 0x0) 0x0009403E (·.x 8) = some 0x87654321 := by decide

-- ALU-25
theorem test_dsra32 :
    after (regs 0x8765432112345678 0x0 0x0) 0x0009403F (·.x 8) = some 0xffffffff87654321 := by decide

-- ALU-27
theorem test_write_to_zero :
    after (regs 3 4 0) 0x012A0021 (·.x 0) = some 0 := by decide

-- ALU-28
theorem test_overflow_with_rd_zero :
    after (regs 0x7FFFFFFF 1 0) 0x012A0020 entry = entered 12 := by decide

-- ALU-3 and ALU-6 under ARITH_OVERFLOW = wrap
def wrapping (a b : Word) : State :=
  let s := regs a b 0
  { s with params := { s.params with arithOverflow := .wrap } }

-- ALU-3
theorem test_add_wrap :
    after (wrapping 0x7FFFFFFF 1) 0x012A4020 (·.x 8) = some 0xFFFFFFFF80000000 := by decide

-- ALU-6
theorem test_dadd_wrap :
    after (wrapping 0x7FFFFFFFFFFFFFFF 1) 0x012A402C (·.x 8) = some 0x8000000000000000 := by decide

-- ALU-29: SLT left out of IMPLEMENTED
def withoutSlt : State :=
  let s := regs 0xFFFFFFFFFFFFFFFF 0 7
  { s with params := { s.params with leftOut := [0x0000002A] } }
theorem test_not_implemented :
    after withoutSlt 0x012A402A
      (fun t => (entry t, t.unimplemented)) =
    (entered 10).map fun e => (e, [(0xFFFFFFFF80001000, 0x012A402A)]) := by decide

/-! Multiply, divide, HI and LO. -/

-- MD-1
theorem test_mult :
    after (((regs 0xfffffffffffffffe 0x3 0).setHi 0xAAAA).setLo 0xBBBB) 0x012A0018 (fun t => (t.hi, t.lo)) = some (0xffffffffffffffff, 0xfffffffffffffffa) := by decide

-- MD-3
theorem test_multu :
    after (((regs 0xffffffff 0xffffffffffffffff 0).setHi 0xAAAA).setLo 0xBBBB) 0x012A0019 (fun t => (t.hi, t.lo)) = some (0xfffffffffffffffe, 0x1) := by decide

-- MD-4
theorem test_div :
    after (((regs 0xfffffffffffffff9 0x2 0).setHi 0xAAAA).setLo 0xBBBB) 0x012A001A (fun t => (t.hi, t.lo)) = some (0xffffffffffffffff, 0xfffffffffffffffd) := by decide

-- MD-8
theorem test_divu :
    after (((regs 0xffffffff 0x10 0).setHi 0xAAAA).setLo 0xBBBB) 0x012A001B (fun t => (t.hi, t.lo)) = some (0xf, 0xfffffff) := by decide

-- S18: only the low word of the divisor counts
theorem test_divu_by_zero :
    after (((regs 0x1 0x100000000 0).setHi 0xAAAA).setLo 0xBBBB) 0x012A001B (fun t => (t.hi, t.lo)) = some (0xaaaa, 0xbbbb) := by decide

-- S5
theorem test_ddivu_by_zero :
    after (((regs 0x3039 0x0 0).setHi 0xAAAA).setLo 0xBBBB) 0x012A001F (fun t => (t.hi, t.lo)) = some (0xaaaa, 0xbbbb) := by decide

-- MD-11
theorem test_dmult :
    after (((regs 0x8000000000000000 0x8000000000000000 0).setHi 0xAAAA).setLo 0xBBBB) 0x012A001C (fun t => (t.hi, t.lo)) = some (0x4000000000000000, 0x0) := by decide

-- S6
theorem test_dmultu :
    after (((regs 0xffffffffffffffff 0xffffffffffffffff 0).setHi 0xAAAA).setLo 0xBBBB) 0x012A001D (fun t => (t.hi, t.lo)) = some (0xfffffffffffffffe, 0x1) := by decide

-- MD-13
theorem test_ddiv :
    after (((regs 0x8000000000000000 0xffffffffffffffff 0).setHi 0xAAAA).setLo 0xBBBB) 0x012A001E (fun t => (t.hi, t.lo)) = some (0x0, 0x8000000000000000) := by decide

-- MD-14
theorem test_ddivu :
    after (((regs 0xffffffffffffffff 0xa 0).setHi 0xAAAA).setLo 0xBBBB) 0x012A001F (fun t => (t.hi, t.lo)) = some (0x5, 0x1999999999999999) := by decide

-- MD-15
theorem test_mthi :
    after (regs 0x123456789ABCDEF 0 0) 0x01200011 (fun t => (t.hi, t.lo)) = some (0x123456789ABCDEF, 0) := by decide

-- MD-16
theorem test_mtlo :
    after (regs 0x123456789ABCDEF 0 0) 0x01200013 (fun t => (t.hi, t.lo)) = some (0, 0x123456789ABCDEF) := by decide

-- MD-15
theorem test_mfhi :
    after ((start.setHi 7).setLo 8) 0x00004010 (·.x 8) = some 7 := by decide

-- MD-16
theorem test_mflo :
    after ((start.setHi 7).setLo 8) 0x00004012 (·.x 8) = some 8 := by decide

/-! Branches and jumps. -/

-- BR-1
theorem test_beq_zero :
    after start 0x10000000 flow = some (some 0xFFFFFFFF80001004, 0xFFFFFFFF80001004) := by decide

-- BR-3
theorem test_beq_not_taken :
    after (regs 1 0x100000001 0) 0x112A0001 flow = some (none, 0xFFFFFFFF80001004) := by decide

-- BR-5
theorem test_bne :
    after (regs 1 2 0) 0x152AFFFC flow = some (some 0xFFFFFFFF80001004, 0xFFFFFFFF80000FF4) := by decide

-- R712, by hand
theorem test_blez :
    after (regs 0 0 0) 0x19200001 flow = some (some 0xFFFFFFFF80001004, 0xFFFFFFFF80001008) := by decide

-- R713, by hand
theorem test_bgtz :
    after (regs 0 0 0) 0x1D200001 flow = some (none, 0xFFFFFFFF80001004) := by decide

-- BR-4
theorem test_beql_taken :
    after (regs 7 7 0) 0x512A0002 flow = some (some 0xFFFFFFFF80001004, 0xFFFFFFFF8000100C) := by decide

-- S2
theorem test_beql_skips :
    after (regs 1 2 0) 0x512A0003 flow = some (none, 0xFFFFFFFF80001008) := by decide

-- R715, by hand
theorem test_bnel_skips :
    after (regs 1 1 0) 0x552A0003 flow = some (none, 0xFFFFFFFF80001008) := by decide

-- R716, by hand
theorem test_blezl :
    after (regs 0xFFFFFFFFFFFFFFFF 0 0) 0x59200001 flow = some (some 0xFFFFFFFF80001004, 0xFFFFFFFF80001008) := by decide

-- R717, by hand
theorem test_bgtzl_skips :
    after (regs 0 0 0) 0x5D200001 flow = some (none, 0xFFFFFFFF80001008) := by decide

-- BR-12
theorem test_bltz_64_bits :
    after (regs 0x80000000 0 0) 0x05200003 flow = some (none, 0xFFFFFFFF80001004) := by decide

-- R741, by hand
theorem test_bgez :
    after (regs 0 0 0) 0x05210003 flow = some (some 0xFFFFFFFF80001004, 0xFFFFFFFF80001010) := by decide

-- R742, by hand
theorem test_bltzl :
    after (regs 0x8000000000000000 0 0) 0x05220003 flow = some (some 0xFFFFFFFF80001004, 0xFFFFFFFF80001010) := by decide

-- R743, by hand
theorem test_bgezl_skips :
    after (regs 0x8000000000000000 0 0) 0x05230003 flow = some (none, 0xFFFFFFFF80001008) := by decide

-- BR-11
theorem test_bltzal_links_untaken :
    after (regs 1 0 0) 0x05300001 (fun t => (flow t, t.x 31)) = some ((none, 0xFFFFFFFF80001004), 0xFFFFFFFF80001008) := by decide

-- R745, by hand
theorem test_bgezal :
    after (regs 1 0 0) 0x05310003 (fun t => (flow t, t.x 31)) = some ((some 0xFFFFFFFF80001004, 0xFFFFFFFF80001010), 0xFFFFFFFF80001008) := by decide

-- R746, by hand
theorem test_bltzall_skips :
    after (regs 1 0 0) 0x05320001 (fun t => (flow t, t.x 31)) = some ((none, 0xFFFFFFFF80001008), 0xFFFFFFFF80001008) := by decide

-- R747, by hand
theorem test_bgezall :
    after (regs 1 0 0) 0x05330003 (fun t => (flow t, t.x 31)) = some ((some 0xFFFFFFFF80001004, 0xFFFFFFFF80001010), 0xFFFFFFFF80001008) := by decide

-- BR-6
theorem test_j_region :
    after (start.setPc 0xFFFFFFFF8FFFFFFC |> fun s => { s with params := defaultParams }) 0x0BFFFFFF flow = some (some 0xFFFFFFFF90000000, 0xFFFFFFFF9FFFFFFC) := by decide

-- BR-7
theorem test_jal :
    after start 0x0C000800 (fun t => (flow t, t.x 31)) = some ((some 0xFFFFFFFF80001004, 0xFFFFFFFF80002000), 0xFFFFFFFF80001008) := by decide

-- BR-8
theorem test_jr :
    after (start.setX 31 0xFFFFFFFF80002002) 0x03E00008 flow = some (some 0xFFFFFFFF80001004, 0xFFFFFFFF80002002) := by decide

-- R723, by hand
theorem test_jalr :
    after (regs 0xFFFFFFFF80002000 0 0) 0x0120F809 (fun t => (flow t, t.x 31)) = some ((some 0xFFFFFFFF80001004, 0xFFFFFFFF80002000), 0xFFFFFFFF80001008) := by decide

-- BR-9
theorem test_jalr_link_is_source :
    stops start 0x01204809 = some (.linkOverwritesSource 0xFFFFFFFF80001000 0x01204809) := by decide

-- BR-10
theorem test_bgezal_link_is_source :
    stops start 0x07F10001 = some (.linkOverwritesSource 0xFFFFFFFF80001000 0x07F10001) := by decide

-- BR-13
theorem test_j_in_delay_slot :
    stops (start.setDs (some 0xFFFFFFFF80001004)) 0x08000800 = some (.ctiInDelaySlot 0xFFFFFFFF80001004 0x08000800) := by decide

-- BR-14
theorem test_eret_in_delay_slot :
    stops (start.setDs (some 0xFFFFFFFF80001004)) 0x42000018 = some (.ctiInDelaySlot 0xFFFFFFFF80001004 0x42000018) := by decide

/-! Loads and stores, big-endian and little-endian. -/

-- LS-1
theorem test_lb_be :
    after start 0x81280001 (·.x 8) = some 0x22 := by decide

-- LS-1
theorem test_lb_le :
    after (little start) 0x81280001 (·.x 8) = some 0x33 := by decide

-- LS-2
theorem test_lh_be :
    after start 0x85280002 (·.x 8) = some 0x3344 := by decide

-- LS-2
theorem test_lh_le :
    after (little start) 0x85280002 (·.x 8) = some 0x1122 := by decide

-- LS-3
theorem test_lw :
    after start 0x8D280000 (·.x 8) = some 0x11223344 := by decide

-- LS-4
theorem test_ld_be :
    after start 0xDD280000 (·.x 8) = some 0x1122334455667788 := by decide

-- LS-4
theorem test_ld_le :
    after (little start) 0xDD280000 (·.x 8) = some 0x5566778811223344 := by decide

-- R811, by hand: no sign extension
theorem test_lbu :
    after start 0x91280007 (·.x 8) = some 0x88 := by decide

-- R810, by hand
theorem test_lb_sign :
    after start 0x81280007 (·.x 8) = some 0xFFFFFFFFFFFFFF88 := by decide

-- R813, by hand
theorem test_lhu :
    after start 0x95280006 (·.x 8) = some 0x7788 := by decide

-- R815, by hand
theorem test_lwu :
    after ((start.setMem [(0x100, 0xFF)])) 0x9D280000 (·.x 8) = some 0xFF000000 := by decide

-- LS-5
theorem test_sb_be :
    after (start.setX 8 0xee) 0xA1280001 (busWord 0x100) = some 0x11EE3344 := by decide

-- LS-5
theorem test_sb_le :
    after (little (start.setX 8 0xee)) 0xA1280001 (busWord 0x100) = some 0x1122EE44 := by decide

-- LS-6
theorem test_sh_be :
    after (start.setX 8 0xbeef) 0xA5280002 (busWord 0x100) = some 0x1122BEEF := by decide

-- LS-6
theorem test_sh_le :
    after (little (start.setX 8 0xbeef)) 0xA5280002 (busWord 0x100) = some 0xBEEF3344 := by decide

-- R822, by hand
theorem test_sw :
    after (start.setX 8 0xAABBCCDD01020304) 0xAD280000 (busWord 0x100) = some 0x01020304 := by decide

-- LS-7
theorem test_sd_be :
    after (start.setX 8 0x102030405060708) 0xFD280000 (fun t => (busWord 0x100 t, busWord 0x104 t)) = some (0x01020304, 0x05060708) := by decide

-- LS-7
theorem test_sd_le :
    after (little (start.setX 8 0x102030405060708)) 0xFD280000 (fun t => (busWord 0x100 t, busWord 0x104 t)) = some (0x05060708, 0x01020304) := by decide

-- LS-8
theorem test_lwl_be :
    after (start.setX 8 0xaabbccdd) 0x89280001 (·.x 8) = some 0x223344dd := by decide

-- LS-8
theorem test_lwl_le :
    after (little (start.setX 8 0xaabbccdd)) 0x89280001 (·.x 8) = some 0x3344ccdd := by decide

-- LS-9: the low word only; the high one is a free value
theorem test_lwr_be :
    after (start.setX 8 0xAABBCCDD) 0x99280001 (fun t => lo32 (t.x 8)) = some 0xAABB1122 := by
  exact congrArg some (lo32_freeWord _ _)

-- LS-10
theorem test_lwr_four_bytes :
    after (start.setX 8 0xAABBCCDD) 0x99280003 (fun t => (t.x 8, t.draws)) = some (0x11223344, 0) := by decide

-- LS-11
theorem test_swl_be :
    after (start.setX 8 0xaabbccdd) 0xA9280001 (busWord 0x100) = some 0x11AABBCC := by decide

-- LS-11
theorem test_swl_le :
    after (little (start.setX 8 0xaabbccdd)) 0xA9280001 (busWord 0x100) = some 0x1122AABB := by decide

-- LS-12
theorem test_swr_be :
    after (start.setX 8 0xaabbccdd) 0xB9280001 (busWord 0x100) = some 0xCCDD3344 := by decide

-- LS-12
theorem test_swr_le :
    after (little (start.setX 8 0xaabbccdd)) 0xB9280001 (busWord 0x100) = some 0xBBCCDD44 := by decide

-- LS-13
theorem test_ldl_be :
    after (start.setX 8 0xaaaaaaaaaaaaaaaa) 0x69280003 (·.x 8) = some 0x4455667788aaaaaa := by decide

-- LS-13
theorem test_ldl_le :
    after (little (start.setX 8 0xaaaaaaaaaaaaaaaa)) 0x69280003 (·.x 8) = some 0x11223344aaaaaaaa := by decide

-- LS-14
theorem test_ldr_be :
    after (start.setX 8 0xaaaaaaaaaaaaaaaa) 0x6D280003 (·.x 8) = some 0xaaaaaaaa11223344 := by decide

-- LS-14
theorem test_ldr_le :
    after (little (start.setX 8 0xaaaaaaaaaaaaaaaa)) 0x6D280003 (·.x 8) = some 0xaaaaaa5566778811 := by decide

-- LS-15
theorem test_sdl_be :
    after (start.setX 8 0x102030405060708) 0xB1280003 (fun t => (busWord 0x100 t, busWord 0x104 t)) = some (0x11223301, 0x02030405) := by decide

-- LS-15
theorem test_sdl_le :
    after (little (start.setX 8 0x102030405060708)) 0xB1280003 (fun t => (busWord 0x100 t, busWord 0x104 t)) = some (0x01020304, 0x55667788) := by decide

-- LS-16
theorem test_sdr_be :
    after (start.setX 8 0x102030405060708) 0xB5280003 (fun t => (busWord 0x100 t, busWord 0x104 t)) = some (0x05060708, 0x55667788) := by decide

-- LS-16
theorem test_sdr_le :
    after (little (start.setX 8 0x102030405060708)) 0xB5280003 (fun t => (busWord 0x100 t, busWord 0x104 t)) = some (0x08223344, 0x04050607) := by decide

-- LS-18
theorem test_lw_misaligned :
    stops start 0x8D280002 = some (.misaligned 0xFFFFFFFF80000102 4) := by decide

-- LS-20
theorem test_lw_unknown_segment :
    stops start 0x8C080000 = some (.unknownSegment 0) := by decide

-- LS-21
theorem test_lb_kseg1 :
    after (start.setX 9 0xFFFFFFFFA0000100) 0x81280000 (·.x 8) = some 0x11 := by decide

-- LS-24
theorem test_sw_rom :
    stops (start.setX 9 0xFFFFFFFFBFC00000) 0xAD280000 = some (.noWriteHandler 0x1FC00000) := by decide

-- R231, by hand
theorem test_lw_unmapped :
    stops (start.setX 9 0xFFFFFFFF80800000) 0x8D280000 = some (.unmappedAddress 0x800000) := by decide

-- LS-25
theorem test_ll :
    after start 0xC1280000 (fun t => (t.x 8, t.llbit, t.c0 17)) = some (0x11223344, true, 0x10) := by decide

-- R861, by hand
theorem test_lld :
    after start 0xD1280000 (fun t => (t.x 8, t.llbit, t.c0 17)) = some (0x1122334455667788, true, 0x10) := by decide

-- LS-25
theorem test_sc :
    after ((start.setX 10 0x99).setLlbit true) 0xE12A0000 (fun t => (busWord 0x100 t, t.x 10, t.llbit)) = some (0x99, 1, true) := by decide

-- LS-27
theorem test_sc_fails :
    after (start.setX 10 0x99) 0xE12A0002 (fun t => (busWord 0x100 t, t.x 10)) = some (0x11223344, 0) := by decide

-- R863, by hand
theorem test_scd :
    after ((start.setX 10 0x99).setLlbit true) 0xF12A0000 (fun t => (busWord 0x100 t, busWord 0x104 t, t.x 10)) = some (0, 0x99, 1) := by decide

-- R235, by hand: a load from a device window is refused by name, not faulted
def withDevice : State :=
  { start with params := { start.params with
      busMap := .entry ⟨⟨0x100, 0x103, true⟩, .device 7, true, true⟩ start.params.busMap } }
theorem test_device_refused :
    step (withDevice.withFetchWord 32 0x8D280000) = .refused (.deviceRead 7 0) := by rfl

/-! System instructions. -/

-- SYS-1
theorem test_syscall :
    after start 0x0000000C entry = entered 8 := by decide

-- SYS-2
theorem test_break_bev :
    after (start.setC0 12 0x00400000) 0x0000000D (fun t => ((CauseReg.excCode t.cause).toNat, t.pc)) = some (9, 0xFFFFFFFFBFC00380) := by decide

-- S13
theorem test_break_nested :
    after ((start.setC0 12 2).setC0 14 0x1234 |>.setC0 13 0x80000000) 0x0000000D entry = some (9, 0x1234, 0xFFFFFFFF80001000, true, 0xFFFFFFFF80000180) := by decide

-- SYS-3
theorem test_teq :
    after (regs 5 5 0) 0x012A0034 entry = entered 13 := by decide

-- SYS-4
theorem test_tne :
    after (regs 5 5 0) 0x012A0036 flow = some (none, 0xFFFFFFFF80001004) := by decide

-- R910, by hand: 0 >= -1
theorem test_tge :
    after (regs 0 0xFFFFFFFFFFFFFFFF 0) 0x012A0030 entry = entered 13 := by decide

-- SYS-5
theorem test_tgeu :
    after (regs 0 0xFFFFFFFFFFFFFFFF 0) 0x012A0031 flow = some (none, 0xFFFFFFFF80001004) := by decide

-- SYS-6
theorem test_tlt :
    after (regs 0xFFFFFFFFFFFFFFFF 0 0) 0x012A0032 entry = entered 13 := by decide

-- SYS-7
theorem test_tltu :
    after (regs 0xFFFFFFFFFFFFFFFF 0 0) 0x012A0033 flow = some (none, 0xFFFFFFFF80001004) := by decide

-- SYS-8
theorem test_tgei :
    after (regs 0 0 0) 0x0528FFFF entry = entered 13 := by decide

-- SYS-9
theorem test_tgeiu :
    after (regs 0 0 0) 0x0529FFFF flow = some (none, 0xFFFFFFFF80001004) := by decide

-- SYS-10
theorem test_tltiu :
    after (regs 5 0 0) 0x052BFFFF entry = entered 13 := by decide

-- SYS-11
theorem test_teqi :
    after (regs 0 0 0) 0x052C0000 entry = entered 13 := by decide

-- SYS-11
theorem test_tnei :
    after (regs 0 0 0) 0x052E0000 flow = some (none, 0xFFFFFFFF80001004) := by decide

-- SYS-12
theorem test_tlti :
    after (regs 0xFFFFFFFFFFFFFFFF 0 0) 0x052A0000 entry = entered 13 := by decide

-- SYS-13
theorem test_cache :
    after (regs 0 0 0) 0xBD200000 flow = some (none, 0xFFFFFFFF80001004) := by decide

-- SYS-15
theorem test_sync :
    after start 0x0000000F flow = some (none, 0xFFFFFFFF80001004) := by decide

-- SYS-16
theorem test_teq_in_delay_slot :
    after ((regs 5 5 0).setDs (some 0xFFFFFFFF80001004)) 0x012A0034 entry = some (13, 0xFFFFFFFF80001000, 0xFFFFFFFF80001004, true, 0xFFFFFFFF80000180) := by decide

/-! CP0. -/

-- CP0-2
theorem test_mfc0 :
    after (start.setC0 14 0x180001000) 0x40087000 (·.x 8) = some 0xFFFFFFFF80001000 := by decide

-- CP0-3
theorem test_dmfc0 :
    after (start.setC0 14 0x180001000) 0x40287000 (·.x 8) = some 0x180001000 := by decide

-- CP0-4
theorem test_mtc0_status :
    after (start.setX 8 0x1000FF01) 0x40886000 (·.c0 12) = some 0x1000FF01 := by decide

-- CP0-5
theorem test_mtc0_epc :
    after (start.setX 8 0x80002000) 0x40887000 (·.c0 14) = some 0xFFFFFFFF80002000 := by decide

-- R1011, by hand
theorem test_dmtc0 :
    after (start.setX 8 0x80002000) 0x40A87000 (·.c0 14) = some 0x80002000 := by decide

-- S14
theorem test_mtc0_cause :
    after ((start.setX 8 0xFFFFFFFF).setC0 13 0x8020) 0x40886800 (·.c0 13) = some 0x8320 := by decide

-- S14
theorem test_mtc0_compare :
    after ((start.setX 8 0xFFFFFFFF).setC0 13 0x8320) 0x40885800 (fun t => (t.c0 11, t.c0 13)) = some (0xFFFFFFFFFFFFFFFF, 0x320) := by decide

-- CP0-7
theorem test_mtc0_user :
    after (start.setC0 12 0x10) 0x40886000 (fun t => (entry t, t.c0 12, CauseReg.ce t.cause)) = (entered 11).map fun e => (e, 0x12, 0) := by decide

-- CP0-8
theorem test_mtc0_user_allowed :
    after ((start.setC0 12 0x10000010).setX 8 0x10000010) 0x40886000 (·.c0 12) = some 0x10000010 := by decide

-- CP0-9
theorem test_eret_exl :
    after ((start.setC0 12 2).setC0 14 0xFFFFFFFF80002000 |>.setLlbit true) 0x42000018 (fun t => (t.pc, t.c0 12, t.llbit)) = some (0xFFFFFFFF80002000, 0, false) := by decide

-- CP0-10
theorem test_eret_erl :
    after ((start.setC0 12 6).setC0 30 0xFFFFFFFF80002000) 0x42000018 (fun t => (t.pc, t.c0 12)) = some (0xFFFFFFFF80002000, 2) := by decide

-- CP0-11
theorem test_tlbwi :
    after start 0x42000002 flow = some (none, 0xFFFFFFFF80001004) := by decide

-- CP0-12
theorem test_tlbp :
    after start 0x42000008 (fun t => (entry t, t.unimplemented)) = (entered 10).map fun e => (e, [(0xFFFFFFFF80001000, 0x42000008)]) := by decide

-- R1021, by hand
theorem test_tlbr :
    after start 0x42000001 (fun t => (entry t, t.unimplemented)) = (entered 10).map fun e => (e, [(0xFFFFFFFF80001000, 0x42000001)]) := by decide

-- R1021, by hand
theorem test_tlbwr :
    after start 0x42000006 (fun t => (entry t, t.unimplemented)) = (entered 10).map fun e => (e, [(0xFFFFFFFF80001000, 0x42000006)]) := by decide

-- R1050, by hand
theorem test_bc0 :
    after start 0x41000000 (fun t => (entry t, t.unimplemented)) = (entered 10).map fun e => (e, [(0xFFFFFFFF80001000, 0x41000000)]) := by decide

-- CP0-13
theorem test_cop0_no_row :
    after start 0x40486000 (fun t => (entry t, t.unimplemented)) = (entered 10).map fun e => (e, [(0xFFFFFFFF80001000, 0x40486000)]) := by decide

-- S17
theorem test_reserved_word :
    after start 0x70000000 (fun t => (entry t, t.unimplemented)) = (entered 10).map fun e => (e, [(0xFFFFFFFF80001000, 0x70000000)]) := by decide

/-! CP1, CP2, CP3. -/

-- CP1-1
theorem test_cfc1 :
    after ((start.setC0 12 0x20000000).setFcr31 3) 0x4448F800 (·.x 8) = some 3 := by decide

-- CP1-2, FCR0_VALUE = 0
theorem test_cfc1_fcr0 :
    after (start.setC0 12 0x20000000) 0x44480000 (·.x 8) = some 0 := by decide

-- R141, by hand: Imp 0x0B and Rev 0xF2 in bits 15:8 and 7:0, sign-extended from 32 bits
def withFcr0 : State :=
  let s := start.setC0 12 0x20000000
  { s with params := { s.params with fcr0Value := ⟨0x0B, 0xF2⟩ } }
theorem test_cfc1_fcr0_layout : after withFcr0 0x44480000 (·.x 8) = some 0x0BF2 := by decide

-- CP1-3
theorem test_ctc1_fcr0 :
    after (start.setC0 12 0x20000000) 0x44C80000 flow = some (none, 0xFFFFFFFF80001004) := by decide

-- S15 (b)
theorem test_ctc1_raises :
    after ((start.setC0 12 0x20000000).setX 8 0x00010800) 0x44C8F800 (fun t => (entry t, t.fcr31)) = (entered 15).map fun e => (e, 0x00010800) := by decide

-- S15 (c)
theorem test_ctc1_quiet :
    after ((start.setC0 12 0x20000000).setX 8 0x00010000) 0x44C8F800 (fun t => (t.fcr31, t.pc)) = some (0x00010000, 0xFFFFFFFF80001004) := by decide

-- S16
theorem test_cfc1_unusable :
    after start 0x4448F800 (fun t => (entry t, CauseReg.ce t.cause)) = (entered 11).map fun e => (e, 1) := by decide

-- CP1-4
theorem test_cfc1_fcr1 :
    after (start.setC0 12 0x20000000) 0x44480800 (fun t => (entry t, t.unimplemented)) = (entered 10).map fun e => (e, [(0xFFFFFFFF80001000, 0x44480800)]) := by decide

-- CP1-5
theorem test_mfc1 :
    after (start.setC0 12 0x20000000) 0x44080800 (fun t => (entry t, t.unimplemented)) = (entered 10).map fun e => (e, [(0xFFFFFFFF80001000, 0x44080800)]) := by decide

-- R1120, by hand
theorem test_dmfc1 :
    after (start.setC0 12 0x20000000) 0x44280800 (fun t => (entry t, t.unimplemented)) = (entered 10).map fun e => (e, [(0xFFFFFFFF80001000, 0x44280800)]) := by decide

-- R1120, by hand
theorem test_mtc1 :
    after (start.setC0 12 0x20000000) 0x44880800 (fun t => (entry t, t.unimplemented)) = (entered 10).map fun e => (e, [(0xFFFFFFFF80001000, 0x44880800)]) := by decide

-- R1120, by hand
theorem test_dmtc1 :
    after (start.setC0 12 0x20000000) 0x44A80800 (fun t => (entry t, t.unimplemented)) = (entered 10).map fun e => (e, [(0xFFFFFFFF80001000, 0x44A80800)]) := by decide

-- R1120, by hand
theorem test_bc1 :
    after (start.setC0 12 0x20000000) 0x45010000 (fun t => (entry t, t.unimplemented)) = (entered 10).map fun e => (e, [(0xFFFFFFFF80001000, 0x45010000)]) := by decide

-- R1120, by hand
theorem test_cop1s :
    after (start.setC0 12 0x20000000) 0x46020000 (fun t => (entry t, t.unimplemented)) = (entered 10).map fun e => (e, [(0xFFFFFFFF80001000, 0x46020000)]) := by decide

-- R1120, by hand
theorem test_cop1d :
    after (start.setC0 12 0x20000000) 0x46220000 (fun t => (entry t, t.unimplemented)) = (entered 10).map fun e => (e, [(0xFFFFFFFF80001000, 0x46220000)]) := by decide

-- R1120, by hand
theorem test_cop1w :
    after (start.setC0 12 0x20000000) 0x46820000 (fun t => (entry t, t.unimplemented)) = (entered 10).map fun e => (e, [(0xFFFFFFFF80001000, 0x46820000)]) := by decide

-- R1120, by hand
theorem test_cop1l :
    after (start.setC0 12 0x20000000) 0x46A20000 (fun t => (entry t, t.unimplemented)) = (entered 10).map fun e => (e, [(0xFFFFFFFF80001000, 0x46A20000)]) := by decide

-- CP1-7
theorem test_lwc1 :
    after start 0xC5200000 (fun t => (entry t, t.unimplemented)) = (entered 10).map fun e => (e, [(0xFFFFFFFF80001000, 0xC5200000)]) := by decide

-- R1121, by hand: CU = 0
theorem test_lwc2 :
    after start 0xC9200000 (fun t => (entry t, t.unimplemented)) = (entered 10).map fun e => (e, [(0xFFFFFFFF80001000, 0xC9200000)]) := by decide

-- R1121, by hand: CU = 0
theorem test_ldc1 :
    after start 0xD5200000 (fun t => (entry t, t.unimplemented)) = (entered 10).map fun e => (e, [(0xFFFFFFFF80001000, 0xD5200000)]) := by decide

-- R1121, by hand: CU = 0
theorem test_ldc2 :
    after start 0xD9200000 (fun t => (entry t, t.unimplemented)) = (entered 10).map fun e => (e, [(0xFFFFFFFF80001000, 0xD9200000)]) := by decide

-- R1121, by hand: CU = 0
theorem test_swc1 :
    after start 0xE5200000 (fun t => (entry t, t.unimplemented)) = (entered 10).map fun e => (e, [(0xFFFFFFFF80001000, 0xE5200000)]) := by decide

-- R1121, by hand: CU = 0
theorem test_swc2 :
    after start 0xE9200000 (fun t => (entry t, t.unimplemented)) = (entered 10).map fun e => (e, [(0xFFFFFFFF80001000, 0xE9200000)]) := by decide

-- R1121, by hand: CU = 0
theorem test_sdc1 :
    after start 0xF5200000 (fun t => (entry t, t.unimplemented)) = (entered 10).map fun e => (e, [(0xFFFFFFFF80001000, 0xF5200000)]) := by decide

-- R1121, by hand: CU = 0
theorem test_sdc2 :
    after start 0xF9200000 (fun t => (entry t, t.unimplemented)) = (entered 10).map fun e => (e, [(0xFFFFFFFF80001000, 0xF9200000)]) := by decide

-- CP1-8
theorem test_cop2_unusable :
    after start 0x48080000 (fun t => (entry t, CauseReg.ce t.cause)) = (entered 11).map fun e => (e, 2) := by decide

-- CP1-8
theorem test_cop2 :
    after (start.setC0 12 0x40000000) 0x48080000 (fun t => (entry t, t.unimplemented)) = (entered 10).map fun e => (e, [(0xFFFFFFFF80001000, 0x48080000)]) := by decide

-- CP1-9
theorem test_cop3 :
    after (start.setC0 12 0x80000000) 0x4C000000 (fun t => (entry t, t.unimplemented)) = (entered 10).map fun e => (e, [(0xFFFFFFFF80001000, 0x4C000000)]) := by decide

/-! Interrupts, the timer and reset. -/

-- EXC-1
theorem test_interrupt :
    after ((start.setC0 12 0x8001).setC0 13 0x8000) 0x70000000 entry = entered 0 := by decide

-- EXC-2
theorem test_interrupt_in_delay_slot :
    after ((start.setC0 12 0x8001).setC0 13 0x8000 |>.setDs (some 0xFFFFFFFF80001004)) 0x70000000 (fun t => (entry t, t.ds)) = some ((0, 0xFFFFFFFF80001000, 0xFFFFFFFF80001004, true, 0xFFFFFFFF80000180), none) := by decide

-- EXC-3
theorem test_no_interrupt_with_erl :
    after ((start.setC0 12 0x8005).setC0 13 0x8000) 0x0000000F flow = some (none, 0xFFFFFFFF80001004) := by decide

-- EXC-6
theorem test_timer_in_same_cycle :
    after ((start.setC0 12 0x8001).setC0 9 5 |>.setC0 11 6) 0x70000000 (fun t => (entry t, t.c0 9)) = (entered 0).map fun e => (e, 6) := by decide

-- EXC-7
theorem test_timer_low_words :
    after ((start.setC0 9 0xFFFFFFFF).setC0 11 0x100000000) 0x0000000F (fun t => (t.c0 9, t.c0 13)) = some (0, 0x8000) := by decide

/-! Reports to the host, R1336, by hand. -/

theorem test_report_no_row :
    cycleReports (start.withFetchWord 32 0x70000000) =
      [⟨.unimplemented, 0xFFFFFFFF80001000, some 0x70000000, none⟩] := by decide

theorem test_report_tlbp :
    cycleReports ((start.signal 0xFFFFFFFF80001000 0x42000008).withFetchWord 32 0x42000008) =
      [⟨.unimplemented, 0xFFFFFFFF80001000, some 0x42000008, some "TLBP"⟩] := by decide

theorem test_report_misaligned :
    cycleReports (start.withFetchWord 32 0x8D280002) =
      [⟨.fatal (.misaligned 0xFFFFFFFF80000102 4), 0xFFFFFFFF80001000, some 0x8D280002, some "LW"⟩] := by decide

theorem test_report_rom_in_delay_slot :
    cycleReports (((start.setX 9 0xFFFFFFFFBFC00000).setDs (some 0xFFFFFFFF80001004)).withFetchWord 32 0xAD280000) =
      [⟨.fatal (.noWriteHandler 0x1FC00000), 0xFFFFFFFF80001004, some 0xAD280000, some "SW"⟩] := by decide

theorem test_report_nothing :
    cycleReports (start.withFetchWord 32 0x0000000F) =
      [] := by decide

theorem test_report_fetch :
    cycleReports (start.setPc 0xFFFFFFFF80001002) =
      [⟨.fatal (.misaligned 0xFFFFFFFF80001002 4), 0xFFFFFFFF80001002, none, none⟩] := by decide

-- RST-1
theorem test_reset_status :
    (fun t : State => (t.c0 12, t.pc, t.c0 30, t.ds))
        (coldReset ((start.setC0 12 0x08700013).setDs (some 4))) =
      (0x00400017, 0xFFFFFFFFBFC00000, 0xFFFFFFFF80001000, none) := by decide
-- S7
theorem test_reset_registers :
    (fun t : State => (t.c0 1, t.c0 16, t.pc)) (coldReset (start.setC0 16 0)) =
      (31, 0x8000, 0xFFFFFFFFBFC00000) := by decide
-- S10
def tableOfS10 : BusTable :=
  .entry ⟨⟨0x04000000, 0x04000FFF, false⟩, .device 1, true, true⟩
    (.entry ⟨⟨0x04001000, 0x04001FFF, true⟩, .device 2, true, true⟩
      (.entry ⟨⟨0x04500000, 0x04500000, false⟩, .device 3, true, true⟩ .empty))
theorem test_bus_boundaries :
    (readPort tableOfS10 0x04000FFC, readPort tableOfS10 0x04001000, readPort tableOfS10 0x04001FFC,
      readPort tableOfS10 0x04500000, readPort tableOfS10 0x04002000) =
    (.next (.device 1, 0x04000FFC), .next (.device 2, 0), .next (.device 2, 0xFFC),
      .next (.device 3, 0x04500000), .fault (.unmappedAddress 0x04002000)) := by rfl
-- S11
theorem test_translate :
    (Machine.translate 0xFFFFFFFF80000100, Machine.translate 0xFFFFFFFFA0000100) = (.next 0x100, .next 0x100) := by rfl
-- log 14: from reset, the word placed where the reset vector fetches is the first to run
theorem test_first_after_reset :
    after State.reset 0x24080007 (fun t => (t.x 8, t.pc)) = some (7, 0xFFFFFFFFBFC00004) := by decide

/-! ## Witnesses: each statement's hypotheses, met together, at the ends of their ranges -/

/-- An instruction answers a next state. -/
def runs (i : Instr) (s : State) : Bool :=
  match exec i s with
  | .next _ => true
  | _ => false

/-- A step answers a next state. -/
def steps (s : State) : Bool :=
  match step s with
  | .next _ => true
  | _ => false

/-- RAM over the whole physical space, `$t1` (9) at an address. -/
def pointing (a : Addr) : State := { start with params := defaultParams }.setX 9 a

/-- A delay slot pending at kseg0 0x1004. -/
def slot (s : State) : State := s.setDs (some 0xFFFFFFFF80001004)

/-- User mode, every CU bit clear. -/
def user : State := start.setC0 12 0x10

/-- `start` with `$t1` at an address, and a map without overlaps: a word that is written only, one read
only, a device of two words that is handed offsets, and two doublewords whose second word is written
only and read only. -/
def holes (a : Addr) : State :=
  let e (lo hi : Nat) (off : Bool) (b : Backing) (r w : Bool) : MapEntry := ⟨⟨lo, hi, off⟩, b, r, w⟩
  let s := start.setX 9 a
  { s with params := { s.params with
      busMap := .entry (e 0x100 0x103 false (.memory 0) false true)
        (.entry (e 0x104 0x107 false (.memory 0) true false)
        (.entry (e 0x108 0x10F true (.device 7) true true)
        (ram 0x110 0x11B
        (.entry (e 0x11C 0x11F false (.memory 0) false true)
        (ram 0x120 0x123
        (.entry (e 0x124 0x127 false (.memory 0) true false)
        (ram 0x128 0x7FFFFF .empty))))))) } }

/-- DMTC0 left out of IMPLEMENTED. -/
def withoutDmtc0 : State := { start with params := { start.params with leftOut := [0x40A00000] } }

/-- `start` about to fetch a word. -/
def fetching (w : Nat) : State := start.withFetchWord 32 w

theorem test_witness_DecodeFollowsTheTable :
    decode 0x013FFFC8#32 = .ok (.jr 9) ∧ (0x013FFFC8#32 &&& (Instr.jr 9).row.mask) = (Instr.jr 9).row.pattern :=
  ⟨rfl, rfl⟩

theorem test_witness_DispatchKeysAreCanonical :
    decode 0x012A4020#32 = .ok (.add 9 10 8) ∧ hasUnit 0x012A4020#32 = false ∧
    dispatchKey 0x03FFFFE0#32 = dispatchKey 0x012A4020#32 := ⟨rfl, rfl, rfl⟩

/-- No row and no unit, no row and a unit that is or is not usable, a row left out. -/
theorem test_witness_WordsWithoutHandler :
    (decode 0x70000000#32 = .error (.reservedPrimary 0x1C) ∧ hasUnit 0x70000000#32 = false) ∧
    (decode 0x40486000#32).toOption = none ∧ hasUnit 0x40486000#32 = true ∧
    usable (start.setWord 0x40486000) (unitOf 0x40486000#32) = true ∧
    usable (user.setWord 0x40486000) (unitOf 0x40486000#32) = false ∧
    decode 0x012A402A#32 = .ok (.slt 9 10 8) ∧ (Instr.slt 9 10 8).row.cls = .gk ∧
    (Instr.slt 9 10 8).row.pattern ∈ withoutSlt.params.leftOut :=
  ⟨⟨rfl, rfl⟩, rfl, rfl, by decide, by decide, rfl, rfl, by decide⟩

/-- The bytes of ADDU at kseg0 0x1000 and at the pending delay slot kseg0 0x1004. -/
theorem test_witness_StepRunsDecodedInstruction :
    (hasPendingInterrupt (incrementCounter (fetching 0x012A4021)) = false ∧
      inSegment (fetchAddress (fetching 0x012A4021)) = true ∧ (fetching 0x012A4021).ds = none) ∧
    readPort (fetching 0x012A4021).params.busMap (physical (fetchAddress (fetching 0x012A4021))).toNat =
      .next (.memory 0, 0x1000) ∧
    ([0x1000, 0x1001, 0x1002, 0x1003].map (Memory.read (fetching 0x012A4021).mem)) =
      [0x01, 0x2A, 0x40, 0x21] ∧
    readPort start.params.busMap (physical (fetchAddress ((slot start).withFetchWord 32 0x012A4021))).toNat =
      .next (.memory 0, 0x1004) ∧
    ([0x1004, 0x1005, 0x1006, 0x1007].map (Memory.read ((slot start).withFetchWord 32 0x012A4021).mem)) =
      [0x01, 0x2A, 0x40, 0x21] ∧
    decodeBytes [0x01, 0x2A, 0x40, 0x21] = .ok (.addu 9 10 8, []) ∧
    implemented start.params (Instr.addu 9 10 8).row = true :=
  ⟨by decide, rfl, by decide, rfl, by decide, rfl, by decide⟩

/-- No multiple of 4, the addresses next to the segments, an unmapped address; an entry without a read
function and a device, from their first to their last word. -/
theorem test_witness_FetchFaults :
    (hasPendingInterrupt (incrementCounter start) = false ∧
      hasPendingInterrupt (incrementCounter (holes 0)) = false ∧
      (start.setPc 0xFFFFFFFF80001001).pc.toNat % 4 ≠ 0 ∧
      inSegment 0xFFFFFFFF7FFFFFFC = false ∧ inSegment 0xFFFFFFFFC0000000 = false ∧
      inSegment 0xFFFFFFFF80800000 = true ∧ inSegment 0xFFFFFFFF80000100 = true) ∧
    findEntry start.params.busMap (physical 0xFFFFFFFF80800000).toNat = .error 0x800000 ∧
    findEntry (holes 0).params.busMap (physical 0xFFFFFFFF80000100).toNat =
      .ok (⟨⟨0x100, 0x103, false⟩, .memory 0, false, true⟩, 0x100) ∧
    ([0x108, 0x10C].map (findEntry (holes 0).params.busMap)) =
      [.ok (⟨⟨0x108, 0x10F, true⟩, .device 7, true, true⟩, 0x108),
       .ok (⟨⟨0x108, 0x10F, true⟩, .device 7, true, true⟩, 0x10C)] ∧
    step ((holes 0).setPc 0xFFFFFFFF80000100) = .fault (.noReadHandler 0x100) ∧
    step ((holes 0).setPc 0xFFFFFFFF8000010C) = .refused (.deviceRead 7 4) :=
  ⟨by decide, rfl, rfl, rfl, rfl, rfl⟩

/-- ZeroAfterEveryCycle, EveryStepKeeps: a step outside and in a delay slot. -/
theorem test_witness_EveryStepKeeps :
    steps (fetching 0x012A4021) = true ∧ steps ((slot start).withFetchWord 32 0x012A4021) = true ∧
    (slot start).ds.isSome = true := by decide

theorem test_witness_StepKeepsInvariant :
    Machine.Inv (fetching 0x012A4021) ∧ steps (fetching 0x012A4021) = true :=
  ⟨⟨by decide, by decide, by decide, by decide⟩, by decide⟩

/-- SYNC; then what no move to Count runs in: an interrupt, user mode, a row left out. -/
theorem test_witness_CountAdvancesEveryCycle :
    steps (fetching 0x0000000F) = true ∧
    ∀ w rt, fetch (incrementCounter (fetching 0xF)) (fetchAddress (fetching 0xF)) = .next w →
      decode w ≠ .ok (.mtc0 rt 9) ∧ decode w ≠ .ok (.dmtc0 rt 9) := by
  refine ⟨by decide, fun w rt h => ?_⟩
  have hf : fetch (incrementCounter (fetching 0xF)) (fetchAddress (fetching 0xF)) = .next 0xF := rfl
  have hw : w = 0xF := Host.Outcome.next.inj (h.symm.trans hf)
  have hd : decode 0xF#32 = .ok (.sync 0) := rfl
  subst hw
  exact ⟨fun e => (nomatch hd.symm.trans e), fun e => (nomatch hd.symm.trans e)⟩

/-- MTC0 to Count under a pending interrupt and in user mode; DMTC0 to Count left out of IMPLEMENTED. -/
theorem test_witness_CountAdvancesUnderMoves :
    (decode 0x40884800#32 = .ok (.mtc0 8 9) ∧ decode 0x40A84800#32 = .ok (.dmtc0 8 9)) ∧
    hasPendingInterrupt (incrementCounter ((start.setC0 12 0x8001).setC0 13 0x8000)) = true ∧
    after ((start.setC0 12 0x8001).setC0 13 0x8000 |>.setC0 9 5) 0x40884800 (·.c0 9) = some 6 ∧
    usable user 0 = false ∧ after (user.setC0 9 0xFFFFFFFF) 0x40884800 (·.c0 9) = some 0 ∧
    implemented withoutDmtc0.params (Instr.dmtc0 8 9).row = false ∧
    after (withoutDmtc0.setC0 9 5) 0x40A84800 (·.c0 9) = some 6 :=
  ⟨⟨rfl, rfl⟩, by decide⟩

/-- The lowest and the highest interrupt bit; then each mask alone. -/
theorem test_witness_InterruptPending :
    hasPendingInterrupt ((start.setC0 12 0x0101).setC0 13 0x0100) = true ∧
    hasPendingInterrupt ((start.setC0 12 0x8001).setC0 13 0x8000) = true ∧
    hasPendingInterrupt ((start.setC0 12 0x8000).setC0 13 0x8000) = false ∧
    hasPendingInterrupt ((start.setC0 12 0x8003).setC0 13 0x8000) = false ∧
    hasPendingInterrupt ((start.setC0 12 0x8005).setC0 13 0x8000) = false ∧
    hasPendingInterrupt ((start.setC0 12 0x8001).setC0 13 0x7F00) = false := by decide

theorem test_witness_InterruptTaken :
    hasPendingInterrupt (incrementCounter ((start.setC0 12 0x8001).setC0 13 0x8000)) = true ∧
    hasPendingInterrupt (incrementCounter (slot ((start.setC0 12 0x8001).setC0 13 0x8000))) = true := by
  decide

theorem test_witness_SyscallAndBreak :
    start.status.getLsbD 1 = false ∧ start.inDS = false ∧ (slot start).inDS = true ∧
    runs (.syscall 0xFFFFF) start = true ∧ runs (.break_ 0) (slot start) = true := by decide

/-- SYSCALL, in and outside a delay slot. -/
theorem test_witness_DelaySlotException :
    (steps (fetching 0x0000000C) = true ∧ steps ((slot start).withFetchWord 32 0x0000000C) = true ∧
      hasPendingInterrupt (incrementCounter start) = false ∧ start.status.getLsbD 1 = false) ∧
    fetch (incrementCounter (fetching 0xC)) 0xFFFFFFFF80001000 = .next 0xC ∧
    fetch (incrementCounter ((slot start).withFetchWord 32 0xC)) 0xFFFFFFFF80001004 = .next 0xC ∧
    ∀ m, m = beginNormal 0xC (incrementCounter (fetching 0xC)) ∨
        m = beginDelaySlot 0xC (incrementCounter ((slot start).withFetchWord 32 0xC)) →
      execute 0xC m = .next (raised .sys m) :=
  ⟨by decide, rfl, rfl, by rintro m (rfl | rfl) <;> rfl⟩

/-- A row with no operation (TLBP), a word of no row, and CTC1 with Cause.E, in a delay slot. -/
theorem test_witness_DelaySlotExceptionForms :
    (fun m => execute 0x42000008 m = .next (reservedEntry m))
      (beginDelaySlot 0x42000008 (incrementCounter ((slot start).withFetchWord 32 0x42000008))) ∧
    (fun m => execute 0x70000000 m = .next (reservedEntry m))
      (beginDelaySlot 0x70000000 (incrementCounter ((slot start).withFetchWord 32 0x70000000))) ∧
    (fun m => execute 0x44C8F800 m = .next (raised .fpe (m.setFcr31 0x20000)))
      (beginDelaySlot 0x44C8F800 (incrementCounter
        (((slot start).setC0 12 0x20000000).setX 8 0x20000 |>.withFetchWord 32 0x44C8F800))) ∧
    after (slot start) 0x70000000 entry =
      some (10, 0xFFFFFFFF80001000, 0xFFFFFFFF80001004, true, 0xFFFFFFFF80000180) :=
  ⟨rfl, rfl, rfl, by decide⟩

theorem test_witness_PreciseExceptions :
    runs (.ctc1 8 31) ((start.setC0 12 0x20000000).setX 8 0x20000) = true ∧ runs (.lw 9 8 0) start = true ∧
    runs .tlbp start = true ∧ isMoveToC0 (.lw 9 8 0) = false := by decide

/-- The greatest and least sums that fit 32 and 64 bits, and the first that do not. -/
theorem test_witness_SignedAddSub :
    (0x7FFFFFFE#64).toInt.bmod (2 ^ 32) + (1#64).toInt.bmod (2 ^ 32) = 2 ^ 31 - 1 ∧
    (0x80000001#64).toInt.bmod (2 ^ 32) + (0xFFFF#16).toInt = -2 ^ 31 ∧
    (0x7FFFFFFF#64).toInt.bmod (2 ^ 32) + (1#64).toInt.bmod (2 ^ 32) = 2 ^ 31 ∧
    (0x80000000#64).toInt.bmod (2 ^ 32) - (1#64).toInt.bmod (2 ^ 32) = -2 ^ 31 - 1 ∧
    (0x7FFFFFFFFFFFFFFE#64).toInt + (1#64).toInt = 2 ^ 63 - 1 ∧
    (0x7FFFFFFFFFFFFFFF#64).toInt + (1#16).toInt = 2 ^ 63 ∧
    (0x8000000000000000#64).toInt - (1#64).toInt = -2 ^ 63 - 1 ∧
    start.params.arithOverflow = .trap ∧ (wrapping 0 0).params.arithOverflow = .wrap := by decide

theorem test_witness_DivideByZero :
    (0x100000000#64).toNat % 2 ^ 32 = 0 ∧ ((regs 1 0x100000000 0).x 10).toNat % 2 ^ 32 = 0 ∧
    (regs 1 0 0).x 10 = 0 := by decide

/-- Divisors 1 and -1, and one whose low word alone is not zero. -/
theorem test_witness_QuotientAndRemainder :
    ((regs 1 1 0).x 10).toInt.bmod (2 ^ 32) ≠ 0 ∧
    ((regs 0x80000000 0xFFFFFFFF 0).x 10).toInt.bmod (2 ^ 32) = -1 ∧
    ((regs 1 0x100000001 0).x 10).toNat % 2 ^ 32 ≠ 0 ∧
    ((regs 0x8000000000000000 0xFFFFFFFFFFFFFFFF 0).x 10).toInt = -1 ∧
    (regs 1 0x100000000 0).x 10 ≠ 0 := by decide

/-- PlainBranches, LikelyBranches, LinkingBranches: both sides of every condition, next to zero. -/
theorem test_witness_Branches :
    start.ds = none ∧ (9 : RegIdx) ≠ 31 ∧ (regs 7 7 0).x 9 = (regs 7 7 0).x 10 ∧
    (regs 7 0x100000007 0).x 9 ≠ (regs 7 0x100000007 0).x 10 ∧
    ((regs 0 0 0).x 9).toInt ≤ 0 ∧ ¬ ((regs 1 0 0).x 9).toInt ≤ 0 ∧
    0 < ((regs 1 0 0).x 9).toInt ∧ ¬ 0 < ((regs 0 0 0).x 9).toInt ∧
    ((regs 0xFFFFFFFFFFFFFFFF 0 0).x 9).toInt < 0 ∧ ¬ ((regs 0x80000000 0 0).x 9).toInt < 0 ∧
    0 ≤ ((regs 0 0 0).x 9).toInt ∧ ¬ 0 ≤ ((regs 0x8000000000000000 0 0).x 9).toInt := by decide

theorem test_witness_Jumps : start.ds = none ∧ (31 : RegIdx) ≠ 9 ∧ runs (.jalr 9 0) start = true := by decide

theorem test_witness_FatalControlTransfers :
    isControlTransfer (.bgezall 31 0) = true ∧ isControlTransfer .eret = true ∧ (slot start).inDS = true ∧
    usable (slot start) 0 = true ∧ start.inDS = false := by decide

/-- The first and the last addresses of kseg0 and kseg1, for every size. -/
theorem test_witness_SizedLoads :
    effAddr (pointing 0xFFFFFFFF80000001) 9 0xFFFF = 0xFFFFFFFF80000000 ∧
    BitVec.ofInt 64 (((pointing 0xFFFFFFFF80000001).x 9).toInt + (0xFFFF#16).toInt) = 0xFFFFFFFF80000000 ∧
    ([0xFFFFFFFF80000000, 0xFFFFFFFF9FFFFFFF, 0xFFFFFFFFA0000000, 0xFFFFFFFFBFFFFFFF].all
      (ramReadable (pointing 0))) = true ∧
    (0xFFFFFFFFBFFFFFFE#64).toNat % 2 = 0 ∧ ramReadable (pointing 0) 0xFFFFFFFFBFFFFFFE = true ∧
    (0xFFFFFFFFBFFFFFFC#64).toNat % 4 = 0 ∧ ramReadable (pointing 0) 0xFFFFFFFFBFFFFFFC = true ∧
    (0xFFFFFFFFBFFFFFF8#64).toNat % 8 = 0 ∧ ramReadable (pointing 0) 0xFFFFFFFFBFFFFFF8 = true ∧
    runs (.ld 9 8 0) (pointing 0xFFFFFFFFBFFFFFF8) = true := by decide

/-- SizedStores, StoreThenLoad, StoreSeenByFetch, at the two ends of kseg0 and kseg1. -/
theorem test_witness_Stores :
    Memory.wf start.mem = true ∧
    ([0xFFFFFFFF80000000, 0xFFFFFFFF9FFFFFFF, 0xFFFFFFFFA0000000, 0xFFFFFFFFBFFFFFFF].all fun a =>
      ramReadable (pointing 0) a && ramWritable (pointing 0) a) = true ∧
    ([0xFFFFFFFF80000000, 0xFFFFFFFF9FFFFFF8, 0xFFFFFFFFBFFFFFF8].all fun a =>
      a.toNat % 8 == 0 && ramWritable (pointing 0) (a + 4) && ramReadable (pointing 0) (a + 4) &&
        wordsApart (pointing 0) a) = true ∧
    effAddr (pointing 0xFFFFFFFF80000000) 9 0 = effAddr (pointing 0xFFFFFFFF80000000) 9 0 ∧
    runs (.sd 9 8 0) (pointing 0xFFFFFFFFBFFFFFF8) = true := by decide

/-- PartialLoads, PartialStores, at the first and last byte of a doubleword. -/
theorem test_witness_Partial :
    Memory.wf start.mem = true ∧
    ([0xFFFFFFFF80000000, 0xFFFFFFFF80000007, 0xFFFFFFFFBFFFFFF8, 0xFFFFFFFFBFFFFFFF].all fun a =>
      ramReadable (pointing 0) a && ramWritable (pointing 0) a &&
        ramReadable (pointing 0) (dwordBase a) && ramReadable (pointing 0) (dwordBase a + 4) &&
        ramWritable (pointing 0) (dwordBase a) && ramWritable (pointing 0) (dwordBase a + 4) &&
        wordsApart (pointing 0) (dwordBase a)) = true ∧
    runs (.lwr 9 8 0) (pointing 0xFFFFFFFFBFFFFFFF) = true ∧
    runs (.sdl 9 8 0) (little (pointing 0xFFFFFFFFBFFFFFFF)) = true := by decide

/-- A word that lies in two bus words, the second load reaching its last byte. -/
theorem test_witness_UnalignedWordPair :
    (9 : RegIdx) ≠ 8 ∧ effAddr start 9 1 = 0xFFFFFFFF80000101 ∧ effAddr start 9 4 = effAddr start 9 1 + 3 ∧
    ramReadable start (effAddr start 9 1) = true ∧ ramReadable start (effAddr start 9 1 + 3) = true := by
  decide

theorem test_witness_LoadLinked :
    ramReadable (pointing 0) 0xFFFFFFFFBFFFFFFC = true ∧ (0xFFFFFFFFBFFFFFFC#64).toNat % 4 = 0 ∧
    ramReadable (pointing 0) 0xFFFFFFFFBFFFFFF8 = true ∧ (0xFFFFFFFFBFFFFFF8#64).toNat % 8 = 0 ∧
    runs (.ll 9 8 0) (pointing 0xFFFFFFFFBFFFFFFC) = true ∧
    runs (.lld 9 8 0) (pointing 0xFFFFFFFFBFFFFFF8) = true := by decide

/-- LLbit clear at an address outside the segments; LLbit set at the ends of kseg0. -/
theorem test_witness_StoreConditional :
    (pointing 1).llbit = false ∧ runs (.sc 9 8 0) (pointing 1) = true ∧
    ((pointing 0).setLlbit true).llbit = true ∧
    ([0xFFFFFFFF80000000, 0xFFFFFFFF9FFFFFF8].all fun a =>
      ramWritable (pointing a) a && ramWritable (pointing a) (a + 4) && wordsApart (pointing a) a) = true ∧
    runs (.scd 9 8 0) ((pointing 0xFFFFFFFF9FFFFFF8).setLlbit true) = true := by decide

/-- The greatest remainders, in and outside the segments. -/
theorem test_witness_MisalignedIsFatal :
    (effAddr (pointing 1) 9 0).toNat % 2 ≠ 0 ∧ (effAddr (pointing 0xFFFFFFFF80000002) 9 0).toNat % 4 ≠ 0 ∧
    (effAddr (pointing 0xFFFFFFFF80000003) 9 0).toNat % 4 ≠ 0 ∧
    (effAddr (pointing 0xFFFFFFFF80000004) 9 0).toNat % 8 ≠ 0 ∧
    (effAddr (pointing 0xFFFFFFFFFFFFFFFF) 9 0).toNat % 8 ≠ 0 ∧
    ((pointing 1).setLlbit true).llbit = true := by decide

/-- The last address before kseg0, the ends of kseg0 and kseg1, the first address after kseg1. -/
theorem test_witness_TranslateSegments :
    Machine.translate 0xFFFFFFFF7FFFFFFF = .fault (.unknownSegment 0xFFFFFFFF7FFFFFFF) ∧
    Machine.translate 0xFFFFFFFF80000000 = .next 0 ∧ Machine.translate 0xFFFFFFFF9FFFFFFF = .next 0x1FFFFFFF ∧
    Machine.translate 0xFFFFFFFFA0000000 = .next 0 ∧ Machine.translate 0xFFFFFFFFBFFFFFFF = .next 0x1FFFFFFF ∧
    Machine.translate 0xFFFFFFFFC0000000 = .fault (.unknownSegment 0xFFFFFFFFC0000000) ∧
    Machine.translate 0x80000000 = .fault (.unknownSegment 0x80000000) := ⟨rfl, rfl, rfl, rfl, rfl, rfl, rfl⟩

theorem test_witness_OutsideSegmentsIsFatal :
    (effAddr (pointing 0xFFFFFFFF7FFFFFFF) 9 0).toNat < 0xFFFFFFFF80000000 ∧
    (effAddr (pointing 0xFFFFFFFF7FFFFFF8) 9 0).toNat % 8 = 0 ∧
    0xFFFFFFFFBFFFFFFF < (effAddr (pointing 0xFFFFFFFFC0000000) 9 0).toNat ∧
    (effAddr (pointing 0xFFFFFFFFC0000000) 9 0).toNat % 8 = 0 ∧
    ((pointing 0).setLlbit true).llbit = true := by decide

/-- The bus clauses of OutsideSegmentsIsFatal: how a transaction stops, at both ends of an entry, on each
side of it and at the end of kseg1; then a read that stops, a write that stops after a read that answers,
and a second word that stops. -/
theorem test_witness_BusStops :
    ([0x100, 0x104, 0x108, 0x10C, 0x110, 0x11C, 0x800000, 0x1FFFFFFC].map
        (readStop (holes 0).params.busMap)) =
      [some (.fault (.noReadHandler 0x100)), none, some (.refused (.deviceRead 7 0)),
       some (.refused (.deviceRead 7 4)), none, some (.fault (.noReadHandler 0x11C)),
       some (.fault (.unmappedAddress 0x800000)), some (.fault (.unmappedAddress 0x1FFFFFFC))] ∧
    ([0x100, 0x104, 0x108, 0x110, 0x120, 0x124].map fun p => writeStop (holes 0).params.busMap p 5) =
      [none, some (.fault (.noWriteHandler 0x104)), some (.refused (.deviceWrite 7 0 5)), none, none,
       some (.fault (.noWriteHandler 0x124))] ∧
    (wordBase (physical 0xFFFFFFFFBFFFFFFF)).toNat = 0x1FFFFFFC ∧
    (wordBase (physical 0xFFFFFFFF80000000)).toNat = 0 ∧
    readStop .empty 0 = some (.fault (.unmappedAddress 0)) := by decide
theorem test_witness_BusStopsRun :
    exec (.lb 9 8 0) (holes 0xFFFFFFFF80000103) = .fault (.noReadHandler 0x100) ∧
    exec (.lw 9 8 0) (holes 0xFFFFFFFF8000010C) = .refused (.deviceRead 7 4) ∧
    exec (.swr 9 8 0) (holes 0xFFFFFFFF80000107) = .fault (.noWriteHandler 0x104) ∧
    exec (.sw 9 8 0) ((holes 0xFFFFFFFF80000108).setX 8 0xAABBCCDD11223344) =
      .refused (.deviceWrite 7 0 0x11223344) ∧
    exec (.ld 9 8 0) (holes 0xFFFFFFFF80000118) = .fault (.noReadHandler 0x11C) ∧
    exec (.ldl 9 8 0) (holes 0xFFFFFFFF8000011F) = .fault (.noReadHandler 0x11C) ∧
    exec (.sdl 9 8 0) (holes 0xFFFFFFFF80000127) = .fault (.noWriteHandler 0x124) ∧
    exec (.scd 9 8 0) (((holes 0xFFFFFFFF80000108).setX 8 0xAABBCCDD11223344).setLlbit true) =
      .refused (.deviceWrite 7 0 0xAABBCCDD) ∧
    exec (.sd 9 8 0) (holes 0xFFFFFFFF80000120) = .fault (.noWriteHandler 0x124) :=
  ⟨rfl, rfl, rfl, rfl, rfl, rfl, rfl, rfl, rfl⟩

/-- A table of two entries around a forwarding entry, asked at every end. -/
def forwarding : BusTable :=
  ram 0 0xFF (.forward ⟨0x100, 0x1FF, true⟩ (ram 0 0x7F .empty) (ram 0x200 0x2FF .empty))
theorem test_witness_BusLookup :
    (BusTable.wf forwarding = true ∧
      (⟨⟨0x200, 0x2FF, false⟩, .memory 0, true, true⟩ : MapEntry) ∈ forwarding.entries ∧
      (⟨0x100, 0x1FF, true⟩, ram 0 0x7F .empty) ∈ forwarding.forwards ∧
      (∀ r, r ∈ forwarding.ranges → (0x300 : Nat) < r.start ∨ r.stop < 0x300)) ∧
    findEntry forwarding 0xFF = .ok (⟨⟨0, 0xFF, false⟩, .memory 0, true, true⟩, 0xFF) ∧
    findEntry forwarding 0x17F = .ok (⟨⟨0, 0x7F, false⟩, .memory 0, true, true⟩, 0x7F) ∧
    findEntry forwarding 0x1FF = .error 0xFF ∧
    findEntry forwarding 0x2FF = .ok (⟨⟨0x200, 0x2FF, false⟩, .memory 0, true, true⟩, 0x2FF) ∧
    findEntry forwarding 0x300 = .error 0x300 := ⟨by decide, rfl, rfl, rfl, rfl, rfl⟩

/-- The ports of BusLookup: read only, write only, offset, forwarded and unmapped, at the ends. -/
theorem test_witness_BusPorts :
    BusTable.wf (holes 0).params.busMap = true ∧
    readPort (holes 0).params.busMap 0x100 = .fault (.noReadHandler 0x100) ∧
    writePort (holes 0).params.busMap 0x103 = .next (.memory 0, 0x103) ∧
    readPort (holes 0).params.busMap 0x104 = .next (.memory 0, 0x104) ∧
    writePort (holes 0).params.busMap 0x107 = .fault (.noWriteHandler 0x107) ∧
    readPort (holes 0).params.busMap 0x10F = .next (.device 7, 7) ∧
    writePort forwarding 0x17F = .next (.memory 0, 0x7F) ∧
    readPort forwarding 0x1FF = .fault (.unmappedAddress 0xFF) ∧
    writePort forwarding 0x300 = .fault (.unmappedAddress 0x300) :=
  ⟨by decide, rfl, rfl, rfl, rfl, rfl, rfl, rfl, rfl⟩

/-- SyncCacheTlbwi, MovesFromCp0, MovesToCp0, ReservedRows, CoprocessorUnusable, ControlRegistersOfCp1:
CP0 usable by the mode and by CU[0], each unit by its CU bit, none in user mode. -/
theorem test_witness_Usable :
    usable start 0 = true ∧ usable (start.setC0 12 0x10000010) 0 = true ∧
    usable (start.setC0 12 0x12) 0 = true ∧ usable (start.setC0 12 0x14) 0 = true ∧
    usable (start.setC0 12 0x18) 0 = false ∧ usable (start.setC0 12 0x8) 0 = false ∧
    usable user 0 = false ∧ usable start 1 = false ∧
    usable (start.setC0 12 0x20000000) 1 = true ∧ usable (start.setC0 12 0x40000000) 2 = true ∧
    usable (start.setC0 12 0x80000000) 3 = true ∧ copUnit (.cache 9 0 0) = some 0 ∧
    copUnit (.cop3 0) = some 3 := by decide

theorem test_witness_ExceptionReturn :
    usable start 0 = true ∧ start.inDS = false ∧ usable (slot start) 0 = true ∧ (slot start).inDS = true ∧
    start.status.getLsbD 2 = false ∧ (start.setC0 12 4).status.getLsbD 2 = true := by decide

/-- Cause.E alone, a cause bit with its enable at both ends, and neither. -/
theorem test_witness_ControlRegistersOfCp1 :
    (0x20000#32).getLsbD 17 = true ∧ ((0x1080#32).getLsbD 12 && (0x1080#32).getLsbD 7) = true ∧
    ((0x10800#32).getLsbD 16 && (0x10800#32).getLsbD 11) = true ∧
    fpeRaised 0x20000 = true ∧ fpeRaised 0x1080 = true ∧ fpeRaised 0x10800 = true ∧
    fpeRaised 0x10F80 = true ∧ fpeRaised 0x1F000 = false ∧ fpeRaised 0xF80 = false ∧
    (1 : RegIdx) ≠ 0 ∧ (1 : RegIdx) ≠ 31 ∧ (30 : RegIdx) ≠ 31 := by decide

/-- FrameGeneralRegisters, FrameMemory, FrameSpecialRegisters. -/
theorem test_witness_Frames :
    Memory.wf start.mem = true ∧ runs (.jal 0) start = true ∧ destReg (.jal 0) ≠ some 30 ∧
    runs (.sdr 9 8 3) start = true ∧ storedCells (.sdr 9 8 3) start = [0x100, 0x101, 0x102, 0x103] ∧
    storedCells (.sdr 9 8 3) (little start) = [0x100, 0x107, 0x106, 0x105, 0x104] ∧
    runs (.sc 9 8 0) start = true ∧ storedAddrs (.sc 9 8 0) start = [] ∧
    runs (.mult 9 10) start = true ∧ writesHiLo (.and 9 10 8) = false := by decide

theorem test_witness_Cp0Isolation :
    runs (.mtc0 8 12) user = true ∧ cp0Locked user = true ∧ runs (.lw 9 8 0) start = true ∧
    isMoveToC0 (.lw 9 8 0) = false ∧ cp0Locked start = false := by decide

end Sys2Proof.Tests
end

section
/-! The memory statements (spec/20_memory.md). A store is read back by a load of its width and by a fetch;
an access stops at its alignment check, at its translation or in a bus transaction, and its instruction stops
as the access does. -/

namespace Sys2Proof.Machine

/-! ## A store read back, R248, R282 -/

section
variable {s : State} {va : Addr}

/-- A read that answers the value at an address answers the value last stored there. -/
theorem eq_next_of_guestValue {k n : Nat} {r : Access (BitVec k)} {t : State} {v : BitVec k}
    (hr : r = .next (BitVec.ofNat k (guestValue t va n))) (hv : guestValue t va n = v.toNat) :
    r = .next v := by
  rw [hr, hv, BitVec.ofNat_toNat, BitVec.setWidth_eq]

theorem memWrite8_reads_back (v : BitVec 8) (hwf : Memory.wf s.mem = true)
    (hw : ramWritable s va = true) (hr : ramReadable s va = true) :
    ∃ m, memWrite8 s va v = .next (s.setMem m) ∧ memRead8 (s.setMem m) va = .next v := by
  obtain ⟨t, ht⟩ := memWriteSub_answers v hr hw (Nat.mod_one _)
  obtain ⟨m, rfl, -⟩ := memWriteSub_next ht
  exact ⟨m, ht, eq_next_of_guestValue (memRead8_eq hr) (memWrite8_value hwf ht)⟩

theorem memWrite16_reads_back (v : BitVec 16) (hwf : Memory.wf s.mem = true)
    (hw : ramWritable s va = true) (hr : ramReadable s va = true) (ha : va.toNat % 2 = 0) :
    ∃ m, memWrite16 s va v = .next (s.setMem m) ∧ memRead16 (s.setMem m) va = .next v := by
  obtain ⟨t, ht⟩ := memWriteSub_answers v hr hw ha
  obtain ⟨m, rfl, -⟩ := memWriteSub_next ht
  exact ⟨m, ht, eq_next_of_guestValue (memRead16_eq hr ha) (memWrite16_value hwf ht)⟩

theorem memWrite32_reads_back (v : BitVec 32) (hwf : Memory.wf s.mem = true)
    (hw : ramWritable s va = true) (hr : ramReadable s va = true) (ha : va.toNat % 4 = 0) :
    ∃ m, memWrite32 s va v = .next (s.setMem m) ∧ memRead32 (s.setMem m) va = .next v := by
  obtain ⟨t, ht⟩ := memWrite32_answers v hw ha
  obtain ⟨m, rfl, -⟩ := memWrite32_next ht
  exact ⟨m, ht, eq_next_of_guestValue (memRead32_eq hr ha) (memWrite32_value hwf ht)⟩

theorem memWrite64_reads_back (v : BitVec 64) (hwf : Memory.wf s.mem = true)
    (hw : ramWritable s va = true) (hr : ramReadable s va = true) (ha : va.toNat % 8 = 0)
    (hw4 : ramWritable s (va + 4) = true) (hr4 : ramReadable s (va + 4) = true)
    (hap : wordsApart s va = true) :
    ∃ m, memWrite64 s va v = .next (s.setMem m) ∧ memRead64 (s.setMem m) va = .next v := by
  obtain ⟨t, ht⟩ := memWrite64_answers v hw hw4 ha
  obtain ⟨m, rfl, -⟩ := memWrite64_next ht
  exact ⟨m, ht, eq_next_of_guestValue (memRead64_eq hr hr4 ha) (memWrite64_value hwf hap ht)⟩

/-- A zero-extending load that reads the low `n` bits of a register leaves them as a number. -/
theorem zextLoad_eq {n : Nat} {r : Access (BitVec n)} {x : Word} (t : State) (rt : RegIdx)
    (h : r = .next (x.setWidth n)) :
    (andThen r fun v => .next (t.setX rt (zext64 v))) =
      (.next (t.setX rt (BitVec.ofNat 64 (x.toNat % 2 ^ n))) : Result) := by
  have hx : zext64 (x.setWidth n) = BitVec.ofNat 64 (x.toNat % 2 ^ n) := by
    apply BitVec.eq_of_toNat_eq; simp [zext64]
  rw [h, andThen_next, hx]

end

/-- Settles O39: each width's write is read back by its read, and the state between differs from the first in
memory alone, so the load's address is the store's. -/
theorem storeThenLoad : Obligations.StoreThenLoad := by
  unfold Obligations.StoreThenLoad
  intro s base rt base' rt' off off' hwf va law he hw hr
  have hld (m : List Host.Cell) : effAddr (s.setMem m) base' off' = va := he
  refine ⟨?_, fun ha => ?_, fun ha => ?_, fun ha hw4 hr4 hap => ?_⟩
  · obtain ⟨m, hst, hrd⟩ := memWrite8_reads_back ((s.x rt).setWidth 8) hwf hw hr
    exact ⟨_, hst, zextLoad_eq _ rt' (by rw [hld, hrd])⟩
  · obtain ⟨m, hst, hrd⟩ := memWrite16_reads_back ((s.x rt).setWidth 16) hwf hw hr ha
    exact ⟨_, hst, zextLoad_eq _ rt' (by rw [hld, hrd])⟩
  · obtain ⟨m, hst, hrd⟩ := memWrite32_reads_back ((s.x rt).setWidth 32) hwf hw hr ha
    exact ⟨_, hst, zextLoad_eq _ rt' (by rw [hld, hrd])⟩
  · obtain ⟨m, hst, hrd⟩ := memWrite64_reads_back (s.x rt) hwf hw hr ha hw4 hr4 hap
    refine ⟨_, hst, ?_⟩
    show andThen (memRead64 (s.setMem m) (effAddr (s.setMem m) base' off')) _ = _
    rw [hld, hrd, andThen_next, Nat.mod_eq_of_lt (s.x rt).isLt, BitVec.ofNat_toNat, BitVec.setWidth_eq]

/-- Settles O40: a fetch is a word read, which reads the stored word back. -/
theorem storeSeenByFetch : Obligations.StoreSeenByFetch := by
  unfold Obligations.StoreSeenByFetch
  intro s base rt off hwf va ha hw hr
  obtain ⟨m, hst, hrd⟩ := memWrite32_reads_back ((s.x rt).setWidth 32) hwf hw hr ha
  exact ⟨_, hst, (fetch_eq_memRead32 _ _).trans hrd⟩

/-! ## Translation, R210 -/

/-- In a 512 MB segment that starts at a multiple of its size, the physical address is the offset. -/
theorem physical_eq_sub {va b : Addr} (hb : b.toNat % 2 ^ 29 = 0) (hl : b.toNat ≤ va.toNat)
    (hu : va.toNat < b.toNat + 2 ^ 29) : physical va = va - b := by
  apply BitVec.eq_of_toNat_eq
  rw [toNat_physical, BitVec.toNat_sub_of_le (BitVec.le_def.2 hl)]
  omega

theorem inSegment_eq_false_iff (va : Addr) : inSegment va = false ↔
    va.toNat < 0xFFFFFFFF80000000 ∨ 0xFFFFFFFFBFFFFFFF < va.toNat := by
  rw [← Bool.not_eq_true, inSegment_iff]
  omega

/-- Settles O47: the two segments are adjacent and each translates to the offset in it. -/
theorem translateSegments : Obligations.TranslateSegments := by
  unfold Obligations.TranslateSegments
  intro va
  refine ⟨fun ⟨hl, hu⟩ => ?_, fun ⟨hl, hu⟩ => ?_, fun h => ?_⟩
  · rw [translate_inSegment ((inSegment_iff va).2 (by omega)),
      physical_eq_sub (b := 0xFFFFFFFF80000000) rfl hl (Nat.lt_succ_of_le hu)]
  · rw [translate_inSegment ((inSegment_iff va).2 (by omega)),
      physical_eq_sub (b := 0xFFFFFFFFA0000000) rfl hl (Nat.lt_succ_of_le hu)]
  · exact translate_outside ((inSegment_eq_false_iff va).2 h)

/-! ## Where an access stops, R242, R210 -/

/-- A sized access at no multiple of its size stops at its alignment check. -/
theorem access_misaligned {α : Type} {va : Addr} {n : Nat} (k : Access α) (ha : va.toNat % n ≠ 0) :
    checkAligned va n k = (Stop.fault (.misaligned va n)).outcome := checkAligned_fault ha

/-- An aligned access outside the segments stops at its translation. -/
theorem access_outside {α : Type} {va : Addr} {n : Nat} (k : Addr → Access α) (hs : inSegment va = false)
    (ha : va.toNat % n = 0) :
    checkAligned va n (andThen (translate va) k) = (Stop.fault (.unknownSegment va)).outcome := by
  rw [checkAligned_ok ha, translate_outside hs, andThen_fault, Stop.outcome]

/-! The word and the doubleword that hold an address, which the left and right forms access. -/

theorem aligned_wordBase (va : Addr) : (wordBase va).toNat % 4 = 0 := by
  rw [toNat_wordBase]; omega

theorem aligned_dwordBase (va : Addr) : (dwordBase va).toNat % 8 = 0 := by
  rw [toNat_dwordBase]; omega

theorem inSegment_wordBase (va : Addr) : inSegment (wordBase va) = inSegment va :=
  sameWord_inSegment (by rw [toNat_wordBase]; omega)

theorem inSegment_dwordBase (va : Addr) : inSegment (dwordBase va) = inSegment va := by
  rw [Bool.eq_iff_iff, inSegment_iff, inSegment_iff, toNat_dwordBase]; omega

theorem physical_wordBase (va : Addr) :
    wordBase (physical (wordBase va)) = wordBase (physical va) :=
  sameWord_physical (by rw [toNat_wordBase]; omega)

theorem readStopAt_wordBase (s : State) (va : Addr) : readStopAt s (wordBase va) = readStopAt s va := by
  rw [readStopAt, physical_wordBase, readStopAt]

theorem writeStopAt_wordBase (s : State) (va : Addr) (w : BusWord) :
    writeStopAt s (wordBase va) w = writeStopAt s va w := by
  rw [writeStopAt, physical_wordBase, writeStopAt]

/-! ## An instruction stops as its access does -/

theorem andThen_stop {α β : Type} {a : Access α} {k : α → Access β} {o : Stop} (h : a = o.outcome) :
    andThen a k = o.outcome := by
  rw [h, andThen_outcome]

theorem andThen_next_stop {α β : Type} {a : Access α} {v : α} {k : α → Access β} {o : Stop}
    (ha : a = .next v) (hk : k v = o.outcome) : andThen a k = o.outcome := by
  rw [ha, andThen_next, hk]

section
variable {s : State} {base rt : RegIdx} {off : BitVec 16} {o : Stop}

theorem byteAccesses_stop (hr : memRead8 s (effAddr s base off) = o.outcome)
    (hw : memWrite8 s (effAddr s base off) ((s.x rt).setWidth 8) = o.outcome) :
    exec (.lb base rt off) s = o.outcome ∧ exec (.lbu base rt off) s = o.outcome ∧
      exec (.sb base rt off) s = o.outcome :=
  ⟨andThen_stop hr, andThen_stop hr, hw⟩

theorem halfAccesses_stop (hr : memRead16 s (effAddr s base off) = o.outcome)
    (hw : memWrite16 s (effAddr s base off) ((s.x rt).setWidth 16) = o.outcome) :
    exec (.lh base rt off) s = o.outcome ∧ exec (.lhu base rt off) s = o.outcome ∧
      exec (.sh base rt off) s = o.outcome :=
  ⟨andThen_stop hr, andThen_stop hr, hw⟩

theorem wordLoads_stop (h : memRead32 s (effAddr s base off) = o.outcome) :
    exec (.lw base rt off) s = o.outcome ∧ exec (.lwu base rt off) s = o.outcome ∧
      exec (.ll base rt off) s = o.outcome :=
  ⟨andThen_stop h, andThen_stop h, andThen_stop h⟩

theorem wordStores_stop (h : memWrite32 s (effAddr s base off) (xLo s rt) = o.outcome) :
    exec (.sw base rt off) s = o.outcome ∧ (s.llbit = true → exec (.sc base rt off) s = o.outcome) :=
  ⟨h, fun hl => (if_pos hl).trans (andThen_stop h)⟩

theorem dwordLoads_stop (h : memRead64 s (effAddr s base off) = o.outcome) :
    exec (.ld base rt off) s = o.outcome ∧ exec (.lld base rt off) s = o.outcome :=
  ⟨andThen_stop h, andThen_stop h⟩

theorem dwordStores_stop (h : memWrite64 s (effAddr s base off) (s.x rt) = o.outcome) :
    exec (.sd base rt off) s = o.outcome ∧ (s.llbit = true → exec (.scd base rt off) s = o.outcome) :=
  ⟨h, fun hl => (if_pos hl).trans (andThen_stop h)⟩

/-- Every left and right word form reads its word first. -/
theorem partialWords_stop (h : memRead32 s (wordBase (effAddr s base off)) = o.outcome) :
    exec (.lwl base rt off) s = o.outcome ∧ exec (.lwr base rt off) s = o.outcome ∧
      exec (.swl base rt off) s = o.outcome ∧ exec (.swr base rt off) s = o.outcome :=
  ⟨andThen_stop h, andThen_stop h, andThen_stop h, andThen_stop h⟩

/-- Every left and right doubleword form reads its doubleword first. -/
theorem partialDwords_stop (h : memRead64 s (dwordBase (effAddr s base off)) = o.outcome) :
    exec (.ldl base rt off) s = o.outcome ∧ exec (.ldr base rt off) s = o.outcome ∧
      exec (.sdl base rt off) s = o.outcome ∧ exec (.sdr base rt off) s = o.outcome :=
  ⟨andThen_stop h, andThen_stop h, andThen_stop h, andThen_stop h⟩

/-- Where the word can be read, how its write stops does not depend on the merged word. -/
theorem partialWordStores_stop {w : BusWord} (hs : inSegment (effAddr s base off) = true)
    (hr : readStopAt s (effAddr s base off) = none)
    (hw : writeStopAt s (effAddr s base off) w = some o) :
    exec (.swl base rt off) s = o.outcome ∧ exec (.swr base rt off) s = o.outcome := by
  rw [← inSegment_wordBase] at hs
  rw [← readStopAt_wordBase] at hr
  rw [← writeStopAt_wordBase] at hw
  have ha := aligned_wordBase (effAddr s base off)
  obtain ⟨u, hu⟩ := memRead32_goes hs ha hr
  have hst (v : BusWord) : memWrite32 s (wordBase (effAddr s base off)) v = o.outcome :=
    memWrite32_stop hs ha ((writeStop_of_readable hr w v).trans hw)
  exact ⟨andThen_next_stop hu (hst _), andThen_next_stop hu (hst _)⟩

/-- Where both words can be read, how their writes stop does not depend on the merged words. -/
theorem partialDwordStores_stop {w w' : BusWord} (hs : inSegment (effAddr s base off) = true)
    (hr : readStopAt s (dwordBase (effAddr s base off)) = none)
    (hr4 : readStopAt s (dwordBase (effAddr s base off) + 4) = none)
    (hw : (writeStopAt s (dwordBase (effAddr s base off)) w).or
      (writeStopAt s (dwordBase (effAddr s base off) + 4) w') = some o) :
    exec (.sdl base rt off) s = o.outcome ∧ exec (.sdr base rt off) s = o.outcome := by
  rw [← inSegment_dwordBase] at hs
  have ha := aligned_dwordBase (effAddr s base off)
  obtain ⟨u, hu⟩ := memRead64_goes hs ha hr hr4
  have hany (u u' : BusWord) : (writeStopAt s (dwordBase (effAddr s base off)) u).or
      (writeStopAt s (dwordBase (effAddr s base off) + 4) u') = some o := by
    rw [writeStopAt, writeStop_of_readable hr w u, writeStopAt, writeStop_of_readable hr4 w' u']
    exact hw
  have hst (v : BitVec 64) : memWrite64 s (dwordBase (effAddr s base off)) v = o.outcome :=
    memWrite64_stop hs ha (hany _ _)
  exact ⟨andThen_next_stop hu (hst _), andThen_next_stop hu (hst _)⟩

end

/-- Settles O46: every wider access begins with the check, and no access of a byte ends in Misaligned. -/
theorem misalignedIsFatal : Obligations.MisalignedIsFatal := by
  unfold Obligations.MisalignedIsFatal
  intro s base rt off va law
  refine ⟨fun ha => ?_, fun ha => ?_, fun ha => ?_, ?_⟩
  · exact halfAccesses_stop (access_misaligned _ ha) (access_misaligned _ ha)
  · obtain ⟨hlw, hlwu, hll⟩ := wordLoads_stop (rt := rt) (access_misaligned _ ha)
    obtain ⟨hsw, hsc⟩ := wordStores_stop (rt := rt) (access_misaligned _ ha)
    exact ⟨hlw, hlwu, hsw, hll, hsc⟩
  · obtain ⟨hld, hlld⟩ := dwordLoads_stop (rt := rt) (access_misaligned _ ha)
    obtain ⟨hsd, hscd⟩ := dwordStores_stop (rt := rt) (access_misaligned _ ha)
    exact ⟨hld, hsd, hlld, hscd⟩
  · have hload (k : BitVec 8 → Result) (hk : ∀ b, NeverMisaligned (k b)) :
        NeverMisaligned (andThen (memRead8 s va) k) :=
      neverMisaligned_andThen (neverMisaligned_memReadSub s va 8) hk
    rintro i a n (rfl | rfl | rfl)
    · exact hload _ (fun _ => neverMisaligned_next _) a n
    · exact hload _ (fun _ => neverMisaligned_next _) a n
    · exact neverMisaligned_memWriteSub s va _ a n

/-- The low word of a register, as a slice of it. -/
theorem xLo_eq_extractLsb' (s : State) (r : RegIdx) : xLo s r = (s.x r).extractLsb' 0 32 := by
  rw [xLo, lo32, BitVec.setWidth_eq_extractLsb' (by decide)]

/-- Settles O48: outside the segments the translation stops the access; inside them its first transaction
that stops does. -/
theorem outsideSegmentsIsFatal : Obligations.OutsideSegmentsIsFatal := by
  unfold Obligations.OutsideSegmentsIsFatal
  intro s base rt off va
  constructor
  · intro law h
    have hs : inSegment va = false := (inSegment_eq_false_iff va).2 h
    refine ⟨?_, fun ha => ?_, fun ha => ?_, fun ha => ?_, ?_, ?_⟩
    · exact byteAccesses_stop (access_outside _ hs (Nat.mod_one _)) (access_outside _ hs (Nat.mod_one _))
    · exact halfAccesses_stop (access_outside _ hs ha) (access_outside _ hs ha)
    · obtain ⟨hlw, hlwu, hll⟩ := wordLoads_stop (rt := rt) (access_outside _ hs ha)
      obtain ⟨hsw, hsc⟩ := wordStores_stop (rt := rt) (access_outside _ hs ha)
      exact ⟨hlw, hlwu, hsw, hll, hsc⟩
    · obtain ⟨hld, hlld⟩ := dwordLoads_stop (rt := rt) (access_outside _ hs ha)
      obtain ⟨hsd, hscd⟩ := dwordStores_stop (rt := rt) (access_outside _ hs ha)
      exact ⟨hld, hsd, hlld, hscd⟩
    · exact partialWords_stop
        (access_outside _ ((inSegment_wordBase va).trans hs) (aligned_wordBase va))
    · exact partialDwords_stop
        (access_outside _ ((inSegment_dwordBase va).trans hs) (aligned_dwordBase va))
  · intro word reading writing law v hi lo d hl hu o
    have hs : inSegment va = true := (inSegment_iff va).2 (by omega)
    have hsd : inSegment d = true := (inSegment_dwordBase va).trans hs
    refine ⟨fun hr => ⟨?_, fun ha => ?_, fun ha => ?_, ?_⟩, fun w hr hw => ?_, fun ha hw => ?_,
      fun ha hr => ?_, fun hr => ?_, fun w w' hr hr4 hw => ?_, fun ha hw => ?_⟩
    · exact byteAccesses_stop (memReadSub_stop 8 hs (Nat.mod_one _) hr)
        (memWriteSub_stop _ 0 hs (Nat.mod_one _) (congrArg (Option.or · _) hr))
    · exact halfAccesses_stop (memReadSub_stop 16 hs ha hr)
        (memWriteSub_stop _ 0 hs ha (congrArg (Option.or · _) hr))
    · exact wordLoads_stop (memRead32_stop hs ha hr)
    · exact partialWords_stop (memRead32_stop ((inSegment_wordBase va).trans hs) (aligned_wordBase va)
        ((readStopAt_wordBase s va).trans hr))
    · have hor : (readStopAt s va).or (writeStopAt s va w) = some o :=
        (congrArg (Option.or · _) hr).trans hw
      exact ⟨memWriteSub_stop _ w hs (Nat.mod_one _) hor, fun ha => memWriteSub_stop _ w hs ha hor,
        partialWordStores_stop hs hr hw⟩
    · have hlo : xLo s rt = lo := xLo_eq_extractLsb' s rt
      rw [← hlo] at hw
      exact wordStores_stop (memWrite32_stop hs ha hw)
    · exact dwordLoads_stop (memRead64_stop hs ha hr)
    · exact partialDwords_stop (memRead64_stop hsd (aligned_dwordBase va) hr)
    · exact partialDwordStores_stop hs hr hr4 hw
    · exact dwordStores_stop (memWrite64_stop hs ha hw)

end Sys2Proof.Machine
end

section
/-! The coprocessor statements (spec/30_encoding.md R331). A unit is usable by the bits of Status, and an
instruction that checks a unit runs behind the gate of that unit. -/

namespace Sys2Proof.Machine

/-- R331: when a unit is usable, in Status bits. -/
theorem usable_iff (s : State) (z : BitVec 2) : usable s z = true ↔
    s.status.getLsbD (28 + z.toNat) = true ∨
      (z = 0 ∧ (s.status.getLsbD 1 = true ∨ s.status.getLsbD 2 = true ∨
        (s.status.getLsbD 3 = false ∧ s.status.getLsbD 4 = false))) := by
  by_cases hz : z = 0
  · subst hz
    simp only [usable_zero, Bool.or_eq_true, Bool.and_eq_true, Bool.not_eq_true', true_and]
    rw [or_comm, or_assoc]
    rfl
  · rw [usable_of_ne_zero s hz]
    exact ⟨Or.inl, fun h => h.resolve_right fun h0 => hz h0.1⟩

/-- R410: an instruction that checks a unit does nothing before the gate of that unit. -/
theorem exec_eq_copGate {i : Instr} {z : BitVec 2} (s : State) (h : copUnit i = some z) :
    ∃ run, exec i s = copGate z s run := by
  cases i
  all_goals cases h -- leaves the instructions that have a unit
  all_goals exact ⟨_, rfl⟩

theorem excCode_raised (e : ExcCode) (s : State) : CauseReg.excCode (raised e s).cause = excNumber e := by
  rw [raised, cause_enterException, excCode_causeOnEntry]

theorem ce_raised_cpu (z : BitVec 2) (s : State) : CauseReg.ce (raised (.cpu z) s).cause = z := by
  rw [raised, cause_enterException, ce_causeOnEntry_cpu]

/-- Settles O55: the gate of an unusable unit raises, and the entry writes the code and the unit to Cause. -/
theorem coprocessorUnusable : Obligations.CoprocessorUnusable := by
  unfold Obligations.CoprocessorUnusable
  refine ⟨usable_iff, fun i s z hi hz => ⟨?_, excCode_raised (.cpu z) s, ce_raised_cpu z s⟩⟩
  obtain ⟨run, hrun⟩ := exec_eq_copGate s hi
  rw [hrun, copGate_unusable hz]

end Sys2Proof.Machine
end

section
/-! The engine statements (spec/40_engine.md). A Cycle that answers ends with the write of `x[0]`; a control
transfer runs behind the delay-slot check; and the frames over all instructions are read off `exec_effect`,
which says what an instruction that answers a next state can leave. -/

namespace Sys2Proof.Machine

open State

/-! ## Register 0, R402 -/

/-- Settles O8: a step ends with the write of `x[0]`, after an interrupt and after an instruction alike. -/
theorem zeroAfterEveryCycle : Obligations.ZeroAfterEveryCycle := by
  unfold Obligations.ZeroAfterEveryCycle
  intro s t h
  rcases step_next h with ⟨-, rfl⟩ | ⟨-, w, u, -, -, rfl⟩
  · exact x_setX_self _ 0 0
  · exact x_setX_self _ 0 0

/-! ## Fatal control transfers, R406, R790 -/

/-- R406: a control transfer other than ERET does nothing before the delay-slot check. -/
theorem exec_eq_ctiCheck {i : Instr} (s : State) (h : isControlTransfer i = true) (he : i ≠ .eret) :
    ∃ k, exec i s = ctiCheck s k := by
  cases i
  case eret => exact absurd rfl he
  all_goals cases h -- leaves the branches and jumps
  all_goals exact ⟨_, rfl⟩

theorem exec_eret_fatal {s : State} (hd : s.inDS = true) (hu : usable s 0 = true) :
    exec .eret s = .fault (.ctiInDelaySlot s.cur s.word) :=
  (copGate_usable hu).trans (ctiCheck_fatal hd)

theorem inDS_eq_false_iff (s : State) : s.inDS = false ↔ s.ds = none :=
  Option.isSome_eq_false_iff.trans Option.isNone_iff_eq_none

/-- Settles O36: the delay-slot check comes first, and the link check follows it. -/
theorem fatalControlTransfers : Obligations.FatalControlTransfers := by
  unfold Obligations.FatalControlTransfers
  refine ⟨fun i s hc hd hu => ?_, fun s r imm i hd hi => ?_⟩
  · by_cases he : i = .eret
    · rw [he]
      exact exec_eret_fatal hd (hu he)
    · obtain ⟨k, hk⟩ := exec_eq_ctiCheck s hc he
      rw [hk, ctiCheck_fatal hd]
  · have hds : s.ds = none := (inDS_eq_false_iff s).1 hd
    rcases hi with rfl | rfl | rfl | rfl | rfl
    all_goals exact linkCheck_fatal hds (beq_self_eq_true _)

/-! ## Frames over all instructions, R440 -/

section
variable {i : Instr} {s t : State}

theorem x_of_exec (h : exec i s = .next t) {r : RegIdx} (hr : destReg i ≠ some r) : t.x r = s.x r := by
  have hne {q : RegIdx} (hq : destReg i = some q) : r ≠ q := fun he => hr (he ▸ hq)
  cases exec_effect h with
  | exception | reserved | floatingPoint => simp [raised, reservedEntry]
  | register q v hd => exact x_setX_ne _ _ _ _ (hne hd)
  | controlLink q v d a hd => exact x_setX_ne _ _ _ _ (hne hd)
  | storeConditional m q hd => exact x_setX_ne _ _ _ _ (hne hd)
  | draw b q o v hi => exact x_setX_ne _ _ _ _ (hne (hi ▸ rfl))
  | linked b q o v a hi => exact x_setX_ne _ _ _ _ (hne (by rcases hi with rfl | rfl <;> rfl))
  | _ => rfl

/-- Memory is kept, or it is changed by a store, outside whose cells it is kept. -/
theorem mem_of_exec (h : exec i s = .next t) : t.mem = s.mem ∨ storedAddrs i s ≠ [] ∧
    (Memory.wf s.mem = true → ∀ c, c ∉ storedCells i s → Memory.read t.mem c = Memory.read s.mem c) := by
  cases exec_effect h with
  | store m hne hwf hf => exact .inr ⟨hne, hf⟩
  | storeConditional m r hd hne hwf hf => exact .inr ⟨hne, hf⟩
  | exception | reserved | floatingPoint => exact .inl (by simp [raised, reservedEntry])
  | _ => exact .inl rfl

theorem hiLo_of_exec (h : exec i s = .next t) (hn : writesHiLo i = false) : t.hi = s.hi ∧ t.lo = s.lo := by
  cases exec_effect h with
  | hiLo a b hw => exact absurd (hn.symm.trans hw) Bool.false_ne_true
  | exception | reserved | floatingPoint => simp [raised, reservedEntry]
  | _ => exact ⟨rfl, rfl⟩

theorem llbit_of_exec (h : exec i s = .next t) (hn : ∀ b r o, i ≠ .ll b r o ∧ i ≠ .lld b r o)
    (he : i ≠ .eret) : t.llbit = s.llbit := by
  cases exec_effect h with
  | linked b r o v a hi => exact absurd hi (not_or.2 (hn b r o))
  | exceptionReturn a v hi => exact absurd hi he
  | exception | reserved | floatingPoint => simp [raised, reservedEntry]
  | _ => rfl

theorem fcr31_of_exec (h : exec i s = .next t) (hn : ∀ r, i ≠ .ctc1 r 31) : t.fcr31 = s.fcr31 := by
  cases exec_effect h with
  | control31 rt v hi => exact absurd hi (hn rt)
  | floatingPoint rt v hi => exact absurd hi (hn rt)
  | exception | reserved => simp [raised, reservedEntry]
  | _ => rfl

theorem draws_of_exec (h : exec i s = .next t) (hn : ∀ b r o, i ≠ .lwr b r o) : t.draws = s.draws := by
  cases exec_effect h with
  | draw b r o v hi => exact absurd hi (hn b r o)
  | exception | reserved | floatingPoint => simp [raised, reservedEntry]
  | _ => rfl

end

/-- Settles O57: every write of a general register among the effects is of the destination. -/
theorem frameGeneralRegisters : Obligations.FrameGeneralRegisters := by
  unfold Obligations.FrameGeneralRegisters
  exact fun i s t h r hr => x_of_exec h hr

/-- Settles O58: an instruction keeps memory or stores, and a store keeps every cell but its own. -/
theorem frameMemory : Obligations.FrameMemory := by
  unfold Obligations.FrameMemory
  intro i s t hwf h
  rcases mem_of_exec h with hm | ⟨hne, hf⟩
  · exact ⟨fun c _ => congrArg (Memory.read · c) hm, fun _ => hm⟩
  · exact ⟨hf hwf, fun he => absurd he hne⟩

/-- Settles O59: each special register is written by the effects of its own instructions only. -/
theorem frameSpecialRegisters : Obligations.FrameSpecialRegisters := by
  unfold Obligations.FrameSpecialRegisters
  intro i s t h
  have hk : Keeps s t := keeps_exec h
  exact ⟨hiLo_of_exec h, llbit_of_exec h, fcr31_of_exec h, draws_of_exec h, hk.f, hk.params⟩

end Sys2Proof.Machine
end

section
/-! The arithmetic statements (spec/41_alu.md). The value an instruction writes is a word of the model; the
lemmas give it as an integer, or bit by bit, over every operand. -/

namespace Sys2Proof.Machine

/-! ## Add and subtract, R500 to R520 -/

/-- R521: a 32-bit form writes the result on the low words, wrapped to 32 bits and sign-extended. -/
theorem toInt_sext64_lo32_add (a b : Word) :
    (sext64 (lo32 a + lo32 b)).toInt = (a.toInt.bmod (2 ^ 32) + b.toInt.bmod (2 ^ 32)).bmod (2 ^ 32) := by
  rw [toInt_sext64 _ (by decide), BitVec.toInt_add, toInt_lo32, toInt_lo32]

theorem toInt_sext64_lo32_sub (a b : Word) :
    (sext64 (lo32 a - lo32 b)).toInt = (a.toInt.bmod (2 ^ 32) - b.toInt.bmod (2 ^ 32)).bmod (2 ^ 32) := by
  rw [toInt_sext64 _ (by decide), BitVec.toInt_sub, toInt_lo32, toInt_lo32]

theorem toInt_sext64_lo32_add_simm32 (a : Word) (imm : BitVec 16) :
    (sext64 (lo32 a + simm32 imm)).toInt = (a.toInt.bmod (2 ^ 32) + imm.toInt).bmod (2 ^ 32) := by
  rw [toInt_sext64 _ (by decide), BitVec.toInt_add, toInt_lo32, toInt_simm32]

theorem toInt_add_simm (a : Word) (imm : BitVec 16) :
    (a + simm imm).toInt = (a.toInt + imm.toInt).bmod (2 ^ 64) := by
  rw [BitVec.toInt_add, toInt_simm]

/-- Settles O22: wrapping the operands before the sum or difference does not change its wrapped value. -/
theorem wrappingAddSub : Obligations.WrappingAddSub := by
  unfold Obligations.WrappingAddSub
  intro s rs rt rd imm a b
  refine ⟨⟨_, rfl, ?_⟩, ⟨_, rfl, ?_⟩, ⟨_, rfl, ?_⟩, ⟨_, rfl, BitVec.toInt_add _ _⟩,
    ⟨_, rfl, toInt_add_simm _ _⟩, ⟨_, rfl, BitVec.toInt_sub⟩⟩
  · exact (toInt_sext64_lo32_add _ _).trans (by rw [Int.bmod_add_bmod, Int.add_bmod_bmod])
  · exact (toInt_sext64_lo32_add_simm32 _ _).trans Int.bmod_add_bmod
  · exact (toInt_sext64_lo32_sub _ _).trans (by rw [Int.bmod_sub_bmod, Int.sub_bmod_bmod])

/-- An integer that fits `w` bits is its own wrapped value. -/
theorem bmod_eq_self_of_fits {w : Nat} {e : Int} (hw : 0 < w)
    (h : -(2 ^ (w - 1)) ≤ e ∧ e < 2 ^ (w - 1)) : e.bmod (2 ^ w) = e := by
  rw [← BitVec.toInt_ofInt, BitVec.toInt_ofInt_eq_self hw h.1 h.2]

/-- R520, once for every trapping form: `i` runs its unsigned form `u` behind the overflow check of the exact
result `e`, and `u` writes `e` wrapped to `w` bits. -/
theorem exact_or_overflow {s : State} {i u : Instr} {r : RegIdx} {o : Bool} {e : Int} {w : Nat} {v : Word}
    (hw : 0 < w) (ho : o = overflows w e) (hv : v.toInt = e.bmod (2 ^ w))
    (hi : exec i s = overflowCheck o s (exec u s)) (hu : exec u s = .next (s.setX r v)) :
    (-(2 ^ (w - 1)) ≤ e ∧ e < 2 ^ (w - 1) → ∃ v, exec i s = .next (s.setX r v) ∧ v.toInt = e) ∧
    (¬ (-(2 ^ (w - 1)) ≤ e ∧ e < 2 ^ (w - 1)) →
      (s.params.arithOverflow = .trap → exec i s = .next (raised .ov s)) ∧
      (s.params.arithOverflow = .wrap → exec i s = exec u s)) := by
  refine ⟨fun h => ⟨v, ?_, ?_⟩, fun h => ⟨fun hp => ?_, fun hp => ?_⟩⟩
  · rw [hi, overflowCheck_fits ho h, hu]
  · rw [hv, bmod_eq_self_of_fits hw h]
  · rw [hi, overflowCheck_trap ho h hp]
  · rw [hi, overflowCheck_wrap hp]

/-- Settles O23: each form is its unsigned form behind the check of its exact result. -/
theorem signedAddSub : Obligations.SignedAddSub := by
  unfold Obligations.SignedAddSub
  intro s rs rt rd imm a b p q law
  exact ⟨
    exact_or_overflow (by decide) (addOverflow_lo32 _ _) (toInt_sext64_lo32_add _ _) rfl rfl,
    exact_or_overflow (by decide) (addOverflow_simm32 _ _) (toInt_sext64_lo32_add_simm32 _ _) rfl rfl,
    exact_or_overflow (by decide) (subOverflow_lo32 _ _) (toInt_sext64_lo32_sub _ _) rfl rfl,
    exact_or_overflow (by decide) rfl (BitVec.toInt_add _ _) rfl rfl,
    exact_or_overflow (by decide) (addOverflow_simm _ _) (toInt_add_simm _ _) rfl rfl,
    exact_or_overflow (by decide) rfl BitVec.toInt_sub rfl rfl,
    excCode_raised .ov s⟩

/-! ## Logical, R530 to R537 -/

/-- R310: the bits of a zero-extended immediate, in the range of a register. -/
theorem getLsbD_zimm (imm : BitVec 16) {k : Nat} (hk : k < 64) :
    (zimm imm).getLsbD k = (decide (k < 16) && imm.getLsbD k) := by
  rw [zimm, zext64, BitVec.getLsbD_setWidth, decide_eq_true hk, Bool.true_and]
  by_cases h : k < 16
  · rw [decide_eq_true h, Bool.true_and]
  · rw [BitVec.getLsbD_of_ge imm k (Nat.le_of_not_lt h), Bool.and_false]

/-- R537: LUI's operand is the signed immediate times 2^16. -/
theorem toInt_luiImm (imm : BitVec 16) : (luiImm imm).toInt = imm.toInt * 2 ^ 16 := by
  rw [luiImm, toInt_sext64 _ (by decide), BitVec.toInt_append]
  simp [Int.mul_comm]

/-- Settles O24: each operation acts on each bit alone. -/
theorem logicalBits : Obligations.LogicalBits := by
  unfold Obligations.LogicalBits
  intro s rs rt rd imm a b law
  refine ⟨⟨_, rfl, fun k _ => BitVec.getLsbD_and⟩, ⟨_, rfl, fun k _ => BitVec.getLsbD_or⟩,
    ⟨_, rfl, fun k _ => BitVec.getLsbD_xor⟩, ⟨_, rfl, fun k hk => ?_⟩, ⟨_, rfl, fun k hk => ?_⟩,
    ⟨_, rfl, fun k hk => ?_⟩, ⟨_, rfl, fun k hk => ?_⟩, ⟨_, rfl, toInt_luiImm imm⟩⟩
  · -- NOR
    rw [BitVec.getLsbD_not, BitVec.getLsbD_or, decide_eq_true hk, Bool.true_and]
  · -- ANDI
    rw [BitVec.getLsbD_and, getLsbD_zimm imm hk, Bool.and_left_comm, ← Bool.and_assoc]
  · -- ORI
    rw [BitVec.getLsbD_or, getLsbD_zimm imm hk]
  · -- XORI
    rw [BitVec.getLsbD_xor, getLsbD_zimm imm hk]

/-! ## Set on less than, R540 to R543 -/

theorem boolWord_ltS (a b : Word) : boolWord (ltS a b) = if a.toInt < b.toInt then 1 else 0 := by
  simp only [boolWord, ltS, decide_eq_true_eq]

theorem boolWord_ltU (a b : Word) : boolWord (ltU a b) = if a.toNat < b.toNat then 1 else 0 := by
  simp only [boolWord, ltU, decide_eq_true_eq]

/-- Settles O25: both comparisons with the immediate are with its sign extension. -/
theorem setOnLessThan : Obligations.SetOnLessThan := by
  unfold Obligations.SetOnLessThan
  intro s rs rt rd imm a b
  refine ⟨?_, ?_, ?_, ?_⟩
  · rw [← boolWord_ltS]
    rfl
  · rw [← boolWord_ltU]
    rfl
  · rw [← toInt_simm, ← boolWord_ltS]
    rfl
  · rw [← toNat_simm, ← boolWord_ltU]
    rfl

/-! ## Shifts, R550 to R564 -/

section
variable (v : Word) (n : Nat)

theorem toInt_sext64_shiftLeft : (sext64 (lo32 v <<< n)).toInt = (v.toInt * 2 ^ n).bmod (2 ^ 32) := by
  rw [toInt_sext64 _ (by decide), toInt_lo32_shiftLeft]

theorem toInt_sext64_ushiftRight :
    (sext64 (lo32 v >>> n)).toInt = ((v.toNat % 2 ^ 32 / 2 ^ n : Nat) : Int).bmod (2 ^ 32) := by
  rw [toInt_sext64 _ (by decide), toInt_lo32_ushiftRight]

theorem toInt_sext64_sshiftRight :
    (sext64 ((lo32 v).sshiftRight n)).toInt = v.toInt.bmod (2 ^ 32) / 2 ^ n := by
  rw [toInt_sext64 _ (by decide), toInt_sshiftRight_eq, toInt_lo32]

theorem toNat_shiftLeft_eq : (v <<< n).toNat = v.toNat * 2 ^ n % 2 ^ 64 := by
  rw [BitVec.toNat_shiftLeft, Nat.shiftLeft_eq]

theorem toNat_ushiftRight_eq : (v >>> n).toNat = v.toNat / 2 ^ n := by
  rw [BitVec.toNat_ushiftRight, Nat.shiftRight_eq_div_pow]

end

/-- Settles O26: a count from a register is its value modulo 32, and each shift is one of three. -/
theorem wordShifts : Obligations.WordShifts := by
  unfold Obligations.WordShifts
  intro s rs rt rd sa x low c law
  have hc : count5 (s.x rs) = c := count5_eq _
  rw [← hc]
  exact ⟨
    ⟨_, rfl, toInt_sext64_shiftLeft _ _⟩,
    ⟨_, rfl, toInt_sext64_ushiftRight _ _⟩,
    ⟨_, rfl, toInt_sext64_sshiftRight _ _⟩,
    ⟨_, rfl, toInt_sext64_shiftLeft _ _⟩,
    ⟨_, rfl, toInt_sext64_ushiftRight _ _⟩,
    ⟨_, rfl, toInt_sext64_sshiftRight _ _⟩⟩

/-- Settles O27: a count from a register is its value modulo 64, and each shift is one of three. -/
theorem doubleShifts : Obligations.DoubleShifts := by
  unfold Obligations.DoubleShifts
  intro s rs rt rd sa n x c left right arith
  have hc : count6 (s.x rs) = c := count6_eq _
  rw [← hc]
  exact ⟨
    ⟨_, rfl, toNat_shiftLeft_eq _ _⟩, ⟨_, rfl, toNat_shiftLeft_eq _ _⟩, ⟨_, rfl, toNat_shiftLeft_eq _ _⟩,
    ⟨_, rfl, toNat_ushiftRight_eq _ _⟩, ⟨_, rfl, toNat_ushiftRight_eq _ _⟩,
    ⟨_, rfl, toNat_ushiftRight_eq _ _⟩,
    ⟨_, rfl, toInt_sshiftRight_eq _ _⟩, ⟨_, rfl, toInt_sshiftRight_eq _ _⟩,
    ⟨_, rfl, toInt_sshiftRight_eq _ _⟩⟩

end Sys2Proof.Machine
end

section
/-! The multiply, divide and HI/LO statements (spec/42_muldiv.md). A product is one word of double width whose
halves are HI and LO; a divide writes a quotient and a remainder, given here as integers. -/

namespace Sys2Proof.Machine

/-! ## Products, R600 to R605 -/

/-- R612: the sign-extended halves of a 64-bit product put together are its signed value. -/
theorem toInt_sext64_halves (p : Word) :
    (sext64 (p.extractLsb' 32 32)).toInt * 2 ^ 32 + ((sext64 (p.extractLsb' 0 32)).toNat % 2 ^ 32 : Nat) =
      p.toInt := by
  rw [toInt_sext64 _ (by decide), toNat_sext64_mod]
  exact toInt_halves (w := 32) p (by decide)

theorem toNat_sext64_halves (p : Word) :
    (sext64 (p.extractLsb' 32 32)).toNat % 2 ^ 32 * 2 ^ 32 + (sext64 (p.extractLsb' 0 32)).toNat % 2 ^ 32 =
      p.toNat := by
  rw [toNat_sext64_mod, toNat_sext64_mod]
  exact toNat_halves (w := 32) p

/-- Settles O28: the halves of each product make up the product, which is exact at double width. -/
theorem products : Obligations.Products := by
  unfold Obligations.Products
  intro s rs rt a b
  refine ⟨
    ⟨_, _, rfl, ?mult, toInt_sext64_canonical _, toInt_sext64_canonical _⟩,
    ⟨_, _, rfl, ?multu, toInt_sext64_canonical _, toInt_sext64_canonical _⟩,
    ⟨_, _, rfl, ?dmult⟩, ⟨_, _, rfl, ?dmultu⟩⟩
  case mult => exact (toInt_sext64_halves _).trans (by rw [toInt_product32, xLo, xLo, toInt_lo32, toInt_lo32])
  case multu => exact (toNat_sext64_halves _).trans (by rw [toNat_product32, xLo, xLo, toNat_lo32, toNat_lo32])
  case dmult => exact (toInt_halves (w := 64) _ (by decide)).trans (toInt_product64 a b)
  case dmultu => exact (toNat_halves (w := 64) _).trans (toNat_product64 a b)

/-! ## Divides, R602 to R613 -/

/-- R610: with a zero divisor the state is kept. -/
theorem divide_of_eq_zero {w : Nat} {b : BitVec w} (h : b = 0) (rem quot : Word) (s : State) :
    divide (b == 0) rem quot s = s := by
  rw [divide, if_pos (beq_iff_eq.2 h)]

/-- R611: with any other divisor the remainder goes to HI and the quotient to LO. -/
theorem divide_of_ne_zero {w : Nat} {b : BitVec w} (h : b ≠ 0) (rem quot : Word) (s : State) :
    divide (b == 0) rem quot s = (s.setHi rem).setLo quot := by
  rw [divide, if_neg (mt beq_iff_eq.1 h), setHiLo]

/-- Settles O29: the 32-bit forms test the low word of the divisor alone. -/
theorem divideByZero : Obligations.DivideByZero := by
  unfold Obligations.DivideByZero
  intro s rs rt
  refine ⟨fun h => ?_, fun h => ?_⟩
  · have hlo : xLo s rt = 0 := BitVec.eq_of_toNat_eq ((toNat_lo32 _).trans h)
    exact ⟨congrArg _ (divide_of_eq_zero hlo _ _ s), congrArg _ (divide_of_eq_zero hlo _ _ s)⟩
  · exact ⟨congrArg _ (divide_of_eq_zero h _ _ s), congrArg _ (divide_of_eq_zero h _ _ s)⟩

/-- The signed remainder is the library's, which fits its width for every pair of operands. -/
theorem toInt_remS {w : Nat} (a b : BitVec w) : (remS a b).toInt = a.toInt.tmod b.toInt := by
  rw [remS, ← BitVec.toInt_srem, BitVec.ofInt_toInt]

/-- R611: division toward zero leaves a remainder that is smaller than the divisor and never has the sign
opposite to the dividend's. -/
theorem tdiv_tmod_spec (a : Int) {b : Int} (hb : b ≠ 0) :
    a = b * a.tdiv b + a.tmod b ∧ (a.tmod b).natAbs < b.natAbs ∧ 0 ≤ a.tmod b * a := by
  refine ⟨(Int.mul_tdiv_add_tmod a b).symm, ?_, ?_⟩
  · rw [Int.natAbs_tmod]
    exact Nat.mod_lt _ (Int.natAbs_pos.2 hb)
  · rcases Int.le_total 0 a with ha | ha
    · exact Int.mul_nonneg (Int.tmod_nonneg b ha) ha
    · have hneg : 0 ≤ -a.tmod b := Int.neg_tmod a b ▸ Int.tmod_nonneg b (Int.neg_nonneg_of_nonpos ha)
      exact Int.mul_nonneg_of_nonpos_of_nonpos (Int.nonpos_of_neg_nonneg hneg) ha

/-- R611, R613, once for both widths of a signed divide: `hi` and `lo` are the words of the remainder and of the
wrapped quotient. -/
theorem signed_divide {s : State} {i : Instr} {w : Nat} {a b : BitVec w} {hi lo : Word}
    (hexec : exec i s = .next (divide (b == 0) hi lo s))
    (hhi : hi = BitVec.ofInt 64 (a.toInt.tmod b.toInt))
    (hlo : lo = BitVec.ofInt 64 ((a.toInt.tdiv b.toInt).bmod (2 ^ w))) (hb : b.toInt ≠ 0) :
    ∃ q r : Int,
      exec i s = .next ((s.setHi (BitVec.ofInt 64 r)).setLo (BitVec.ofInt 64 (q.bmod (2 ^ w)))) ∧
      a.toInt = b.toInt * q + r ∧ r.natAbs < b.toInt.natAbs ∧ 0 ≤ r * a.toInt := by
  have hne : b ≠ 0 := fun h => hb (by rw [h]; exact BitVec.toInt_zero)
  refine ⟨_, _, ?_, tdiv_tmod_spec a.toInt hb⟩
  rw [hexec, divide_of_ne_zero hne, hhi, hlo]

/-- R611, once for both widths of an unsigned divide. -/
theorem unsigned_divide {s : State} {i : Instr} {w : Nat} {a b : BitVec w} {word : Nat → Word}
    (hexec : exec i s = .next (divide (b == 0) (word (a.toNat % b.toNat)) (word (a.toNat / b.toNat)) s))
    (hb : b ≠ 0) :
    ∃ q r : Nat, exec i s = .next ((s.setHi (word r)).setLo (word q)) ∧
      a.toNat = b.toNat * q + r ∧ r < b.toNat :=
  ⟨_, _, hexec.trans (congrArg _ (divide_of_ne_zero hb _ _ s)), (Nat.div_add_mod _ _).symm,
    Nat.mod_lt _ (BitVec.toNat_pos_of_ne_zero hb)⟩

/-- Settles O30: a 32-bit form divides the low words, and each form is the divide of its width and sign. -/
theorem quotientAndRemainder : Obligations.QuotientAndRemainder := by
  unfold Obligations.QuotientAndRemainder
  intro s rs rt a b signed
  refine ⟨?div, ?ddiv, ?divu, ?ddivu⟩
  case div =>
    rw [← toInt_lo32, ← toInt_lo32]
    refine signed_divide rfl ?_ (sext64_ofInt _)
    rw [sext64_eq_ofInt _ (by decide), toInt_remS]
    rfl
  case ddiv => exact signed_divide rfl rfl (ofInt_bmod_64 _).symm
  case divu =>
    rw [← toNat_lo32, ← toNat_lo32]
    intro hb
    simp only [← sext64_ofNat 32 (by decide)]
    exact unsigned_divide (word := fun n => sext64 (BitVec.ofNat 32 n)) rfl
      (fun h => hb (congrArg BitVec.toNat h))
  case ddivu => exact unsigned_divide (word := BitVec.ofNat 64) rfl

/-! ## HI and LO, R620 to R623 -/

/-- Settles O31: a register read back after a move holds what the move wrote to HI or LO. -/
theorem hiLoMoves : Obligations.HiLoMoves := by
  unfold Obligations.HiLoMoves
  intro s rd rs
  exact ⟨rfl, rfl,
    ⟨_, _, rfl, rfl, State.x_setX_self _ rd (s.x rs), State.lo_setHi s _, rfl⟩,
    ⟨_, _, rfl, rfl, State.x_setX_self _ rd (s.x rs), State.hi_setLo s _, rfl⟩⟩

end Sys2Proof.Machine
end

section
/-! The load and store statements (spec/44_load_store.md). A left or right form moves the bytes from the
effective address to one end of its word or doubleword: it is given by the direction it goes in, up or down
in memory, and the number of places there are that way. -/

namespace Sys2Proof.Machine

/-! ## Places of a byte in its unit of `n` bytes, R840 to R847 -/

/-- The number of addresses above `va`, or below it, in its unit: upward for BE = 1 and downward for BE = 0
it is `byteLane` and `byteLane8`. -/
def reach (n : Nat) (up : Bool) (va : Addr) : Nat := if up then n - 1 - va.toNat % n else va.toNat % n

/-- The address `k` places above `va`, or below it. -/
def near (up : Bool) (va : Addr) (k : Nat) : Addr :=
  if up then va + BitVec.ofNat 64 k else va - BitVec.ofNat 64 k

theorem leftShift4_eq_reach (be : Bool) (va : Addr) : leftShift4 be va = reach 4 (!be) va := by
  rw [leftShift4, offset4_eq]; cases be <;> rfl

theorem rightShift4_eq_reach (be : Bool) (va : Addr) : rightShift4 be va = reach 4 be va := by
  rw [rightShift4, offset4_eq]; cases be <;> rfl

theorem leftShift8_eq_reach (be : Bool) (va : Addr) : leftShift8 be va = reach 8 (!be) va := by
  rw [leftShift8, offset8_eq]; cases be <;> rfl

theorem rightShift8_eq_reach (be : Bool) (va : Addr) : rightShift8 be va = reach 8 be va := by
  rw [rightShift8, offset8_eq]; cases be <;> rfl

section
variable {n k : Nat} {up : Bool} {va : Addr}

theorem reach_add_reach_not (hn : 0 < n) (up : Bool) (va : Addr) :
    reach n up va + reach n (!up) va = n - 1 := by
  have := Nat.mod_lt va.toNat hn
  cases up <;> simp [reach] <;> omega

theorem reach_lt (hn : 0 < n) (up : Bool) (va : Addr) : reach n up va < n := by
  have := reach_add_reach_not hn up va
  omega

theorem toNat_near (hn : n = 4 ∨ n = 8) (hk : k ≤ reach n up va) :
    (near up va k).toNat = if up then va.toNat + k else va.toNat - k := by
  have hva := va.isLt
  cases up
  · simp only [reach, near, Bool.false_eq_true, if_false, BitVec.toNat_sub, BitVec.toNat_ofNat] at hk ⊢
    rcases hn with rfl | rfl <;> omega
  · simp only [reach, near, if_true, BitVec.toNat_add, BitVec.toNat_ofNat] at hk ⊢
    rcases hn with rfl | rfl <;> omega

/-- An address within reach lies in the same unit, as much nearer to its end as it is away from `va`. -/
theorem near_within (hn : n = 4 ∨ n = 8) (hk : k ≤ reach n up va) :
    (near up va k).toNat / n = va.toNat / n ∧ reach n up (near up va k) + k = reach n up va := by
  have e := toNat_near hn hk
  cases up
  · simp only [reach, Bool.false_eq_true, if_false, e] at hk ⊢
    rcases hn with rfl | rfl <;> omega
  · simp only [reach, if_true, e] at hk ⊢
    rcases hn with rfl | rfl <;> omega

/-! The statements write the two directions out, and tell them apart by BE. -/

theorem ite_near (hn : 0 < n) (up : Bool) (va : Addr) (k : Nat) (s : State) (z : Byte) :
    (if up then (if k < n - va.toNat % n then guestByte s (va + BitVec.ofNat 64 k) else z)
      else (if k ≤ va.toNat % n then guestByte s (va - BitVec.ofNat 64 k) else z)) =
    if k ≤ reach n up va then guestByte s (near up va k) else z := by
  have h := Nat.mod_lt va.toNat hn
  cases up
  · rfl
  · have e : k < n - va.toNat % n ↔ k ≤ n - 1 - va.toNat % n := by omega
    simp [reach, near, e]

theorem ite_near_not (hn : 0 < n) (be : Bool) (va : Addr) (k : Nat) (s : State) (z : Byte) :
    (if be then (if k ≤ va.toNat % n then guestByte s (va - BitVec.ofNat 64 k) else z)
      else (if k < n - va.toNat % n then guestByte s (va + BitVec.ofNat 64 k) else z)) =
    if k ≤ reach n (!be) va then guestByte s (near (!be) va k) else z := by
  rw [← ite_near hn]; cases be <;> rfl

theorem guestByte_of_near {s : State} {b : Byte} (h : k ≤ reach n up va → guestByte s (near up va k) = b) :
    (up = true → k < n - va.toNat % n → guestByte s (va + BitVec.ofNat 64 k) = b) ∧
      (up = false → k ≤ va.toNat % n → guestByte s (va - BitVec.ofNat 64 k) = b) := by
  constructor <;> rintro rfl hk
  · exact h (by rw [reach, if_pos rfl]; omega)
  · exact h hk

theorem guestByte_of_near_not {be : Bool} {s : State} {b : Byte}
    (h : k ≤ reach n (!be) va → guestByte s (near (!be) va k) = b) :
    (be = true → k ≤ va.toNat % n → guestByte s (va - BitVec.ofNat 64 k) = b) ∧
      (be = false → k < n - va.toNat % n → guestByte s (va + BitVec.ofNat 64 k) = b) := by
  obtain ⟨hup, hdown⟩ := guestByte_of_near h
  exact ⟨fun hb => hdown (by rw [hb]; rfl), fun hb => hup (by rw [hb]; rfl)⟩

end

/-! ## The merges at the places of memory, R840 to R847 -/

section
variable {n w : Nat} {s t : State} {va : Addr} {m r : BitVec w} {k : Nat}

/-- The unit of `va` holds `v`: a byte is as far from the least significant end of `v` as its address is from
the top of the unit for BE = 1, and from the bottom for BE = 0 (R241, R247). -/
def UnitHolds (n : Nat) (s : State) (va : Addr) {w : Nat} (v : BitVec w) : Prop :=
  ∀ vb : Addr, vb.toNat / n = va.toNat / n → guestByte s vb = v.extractLsb' (8 * reach n s.be vb) 8

theorem loadLeft_byte (hn : n = 4 ∨ n = 8) (hw : w = 8 * n) (hm : UnitHolds n s va m) (hk : k < n) :
    (mergeLoadLeft m r (reach n (!s.be) va)).extractLsb' (8 * (n - 1 - k)) 8 =
      if k ≤ reach n s.be va then guestByte s (near s.be va k) else r.extractLsb' (8 * (n - 1 - k)) 8 := by
  have hsum := reach_add_reach_not (n := n) (by omega) s.be va
  rw [mergeLoadLeft_byte n hw _ _ _ _ (by omega)]
  by_cases h : k ≤ reach n s.be va
  · obtain ⟨hu, hr⟩ := near_within hn h
    rw [if_pos h, if_neg (by omega), hm _ hu]
    congr 2; omega
  · rw [if_neg h, if_pos (by omega)]

theorem loadRight_byte (hn : n = 4 ∨ n = 8) (hw : w = 8 * n) (hm : UnitHolds n s va m) (hk : k < n) :
    (mergeLoadRight m r (reach n s.be va)).extractLsb' (8 * k) 8 =
      if k ≤ reach n (!s.be) va then guestByte s (near (!s.be) va k) else r.extractLsb' (8 * k) 8 := by
  have hsum := reach_add_reach_not (n := n) (by omega) s.be va
  rw [mergeLoadRight_byte n hw _ _ _ _ hk]
  by_cases h : k ≤ reach n (!s.be) va
  · obtain ⟨hu, hr⟩ := near_within hn h
    have hsum' := reach_add_reach_not (n := n) (by omega) s.be (near (!s.be) va k)
    rw [if_pos h, if_pos (by omega), hm _ hu]
    congr 2; omega
  · rw [if_neg h, if_neg (by omega)]

theorem storeLeft_byte (hn : n = 4 ∨ n = 8) (hw : w = 8 * n)
    (ht : UnitHolds n t va (mergeStoreLeft m r (reach n (!t.be) va))) (hk : k ≤ reach n t.be va) :
    guestByte t (near t.be va k) = r.extractLsb' (8 * (n - 1 - k)) 8 := by
  obtain ⟨hu, hr⟩ := near_within hn hk
  have hsum := reach_add_reach_not (n := n) (by omega) t.be va
  rw [ht _ hu, mergeStoreLeft_byte n hw _ _ _ _ (by omega), if_pos (by omega)]
  congr 2; omega

theorem storeRight_byte (hn : n = 4 ∨ n = 8) (hw : w = 8 * n)
    (ht : UnitHolds n t va (mergeStoreRight m r (reach n t.be va))) (hk : k ≤ reach n (!t.be) va) :
    guestByte t (near (!t.be) va k) = r.extractLsb' (8 * k) 8 := by
  obtain ⟨hu, hr⟩ := near_within hn hk
  have hsum := reach_add_reach_not (n := n) (by omega) t.be va
  have hsum' := reach_add_reach_not (n := n) (by omega) t.be (near (!t.be) va k)
  rw [ht _ hu, mergeStoreRight_byte n hw _ _ _ _ (by omega), if_neg (by omega)]
  congr 2; omega

end

/-! ## Accesses to a unit -/

section
variable {s : State} {va : Addr}

/-! A read of a whole unit answers what the unit holds, and a write leaves in it what was written. -/

theorem memRead32_holds (hr : ramReadable s va = true) :
    ∃ w, memRead32 s (wordBase va) = .next w ∧ UnitHolds 4 s va w := by
  have hu : (wordBase va).toNat / 4 = va.toNat / 4 := by rw [toNat_wordBase]; omega
  have h := memRead32_eq ((sameWord_ramReadable hu).trans hr) (aligned_wordBase va)
  exact ⟨_, h, fun vb hv => guestByte_memRead32 h (hv.trans hu.symm)⟩

theorem memRead64_holds (hr : ramReadable s (dwordBase va) = true)
    (hr4 : ramReadable s (dwordBase va + 4) = true) :
    ∃ m, memRead64 s (dwordBase va) = .next m ∧ UnitHolds 8 s va m := by
  have hu : (dwordBase va).toNat / 8 = va.toNat / 8 := by rw [toNat_dwordBase]; omega
  have h := memRead64_eq hr hr4 (aligned_dwordBase va)
  exact ⟨_, h, fun vb hv => guestByte_memRead64 h (hv.trans hu.symm)⟩

theorem memWrite32_holds (v : BusWord) (hwf : Memory.wf s.mem = true) (hw : ramWritable s va = true) :
    ∃ m, memWrite32 s (wordBase va) v = .next (s.setMem m) ∧ UnitHolds 4 (s.setMem m) va v := by
  have hu : (wordBase va).toNat / 4 = va.toNat / 4 := by rw [toNat_wordBase]; omega
  obtain ⟨t, ht⟩ := memWrite32_answers v ((sameWord_ramWritable hu).trans hw) (aligned_wordBase va)
  obtain ⟨m, rfl, -⟩ := memWrite32_next ht
  exact ⟨m, ht, fun vb hv => guestByte_memWrite32 (s := s) hwf ht (hv.trans hu.symm)⟩

theorem memWrite64_holds (v : BitVec 64) (hwf : Memory.wf s.mem = true)
    (hw : ramWritable s (dwordBase va) = true) (hw4 : ramWritable s (dwordBase va + 4) = true)
    (hap : wordsApart s (dwordBase va) = true) :
    ∃ m, memWrite64 s (dwordBase va) v = .next (s.setMem m) ∧ UnitHolds 8 (s.setMem m) va v := by
  have hu : (dwordBase va).toNat / 8 = va.toNat / 8 := by rw [toNat_dwordBase]; omega
  obtain ⟨t, ht⟩ := memWrite64_answers v hw hw4 (aligned_dwordBase va)
  obtain ⟨m, rfl, -⟩ := memWrite64_next ht
  exact ⟨m, ht, fun vb hv => guestByte_memWrite64 (s := s) hwf hap ht (hv.trans hu.symm)⟩

end

/-! ## The partial loads -/

theorem andThen_of_next {α β : Type} {o : Access α} {a : α} {k : α → Access β} (h : o = .next a) :
    andThen o k = k a := by
  rw [h, andThen_next]

/-- The low four bytes of a register value are those of its low word. -/
theorem regByte_eq_lo32 (v : Word) {k : Nat} (hk : k < 4) :
    regByte v k = (lo32 v).extractLsb' (8 * k) 8 := by
  apply BitVec.eq_of_getLsbD_eq
  intro b hb
  simp [regByte, lo32, hb, show 8 * k + b < 32 by omega]

section
variable {s : State} {base rt : RegIdx} {off : BitVec 16} {va : Addr}

theorem lwl_bytes (hva : effAddr s base off = va) (hr : ramReadable s va = true) :
    ∃ v, exec (.lwl base rt off) s = .next (s.setX rt v) ∧ v.toInt = v.toInt.bmod (2 ^ 32) ∧
      ∀ k, k < 4 → regByte v (3 - k) =
        if k ≤ reach 4 s.be va then guestByte s (near s.be va k) else regByte (s.x rt) (3 - k) := by
  obtain ⟨w, hw, hm⟩ := memRead32_holds hr
  refine ⟨sext64 (mergeLoadLeft w (xLo s rt) (reach 4 (!s.be) va)), ?_, toInt_sext64_canonical _,
    fun k hk => ?_⟩
  · subst hva
    rw [← leftShift4_eq_reach]
    exact andThen_of_next hw
  · rw [regByte_eq_lo32 _ (by omega), regByte_eq_lo32 _ (by omega), lo32_sext64]
    exact loadLeft_byte (.inl rfl) rfl hm hk

/-- LWR leaves its merge in the low word, and counts a draw unless all four bytes were loaded (D28). -/
theorem writeLwr_eq (rt : RegIdx) (t : Nat) (r : BitVec 32) (s : State) :
    ∃ v, writeLwr rt t r s = (s.setX rt v).setDraws (if t = 0 then s.draws else s.draws + 1) ∧
      lo32 v = r ∧ (t = 0 → v.toInt = v.toInt.bmod (2 ^ 32)) := by
  unfold writeLwr
  by_cases ht : t = 0
  · rw [if_pos ht, if_pos ht]
    exact ⟨_, rfl, lo32_sext64 r, fun _ => toInt_sext64_canonical r⟩
  · rw [if_neg ht, if_neg ht]
    exact ⟨_, rfl, BitVec.setWidth_append_eq_right, fun h => absurd h ht⟩

theorem lwr_bytes (hva : effAddr s base off = va) (hr : ramReadable s va = true) :
    ∃ v, exec (.lwr base rt off) s = .next ((s.setX rt v).setDraws
        (if reach 4 s.be va = 0 then s.draws else s.draws + 1)) ∧
      (reach 4 s.be va = 0 → v.toInt = v.toInt.bmod (2 ^ 32)) ∧
      ∀ k, k < 4 → regByte v k =
        if k ≤ reach 4 (!s.be) va then guestByte s (near (!s.be) va k) else regByte (s.x rt) k := by
  obtain ⟨w, hw, hm⟩ := memRead32_holds hr
  obtain ⟨v, he, hlo, hv⟩ := writeLwr_eq rt (reach 4 s.be va)
    (mergeLoadRight w (xLo s rt) (reach 4 s.be va)) s
  refine ⟨v, ?_, hv, fun k hk => ?_⟩
  · subst hva
    rw [← he, ← rightShift4_eq_reach]
    exact andThen_of_next hw
  · rw [regByte_eq_lo32 _ hk, regByte_eq_lo32 _ hk, hlo]
    exact loadRight_byte (.inl rfl) rfl hm hk

theorem ldl_bytes (hva : effAddr s base off = va) (hr : ramReadable s (dwordBase va) = true)
    (hr4 : ramReadable s (dwordBase va + 4) = true) :
    ∃ v, exec (.ldl base rt off) s = .next (s.setX rt v) ∧ ∀ k, k < 8 → regByte v (7 - k) =
      if k ≤ reach 8 s.be va then guestByte s (near s.be va k) else regByte (s.x rt) (7 - k) := by
  obtain ⟨m, hrd, hm⟩ := memRead64_holds hr hr4
  refine ⟨mergeLoadLeft m (s.x rt) (reach 8 (!s.be) va), ?_,
    fun k hk => loadLeft_byte (.inr rfl) rfl hm hk⟩
  subst hva
  rw [← leftShift8_eq_reach]
  exact andThen_of_next hrd

theorem ldr_bytes (hva : effAddr s base off = va) (hr : ramReadable s (dwordBase va) = true)
    (hr4 : ramReadable s (dwordBase va + 4) = true) :
    ∃ v, exec (.ldr base rt off) s = .next (s.setX rt v) ∧ ∀ k, k < 8 → regByte v k =
      if k ≤ reach 8 (!s.be) va then guestByte s (near (!s.be) va k) else regByte (s.x rt) k := by
  obtain ⟨m, hrd, hm⟩ := memRead64_holds hr hr4
  refine ⟨mergeLoadRight m (s.x rt) (reach 8 s.be va), ?_,
    fun k hk => loadRight_byte (.inr rfl) rfl hm hk⟩
  subst hva
  rw [← rightShift8_eq_reach]
  exact andThen_of_next hrd

end

theorem reach_four_eq_zero_iff (be : Bool) (va : Addr) :
    reach 4 be va = 0 ↔ va.toNat % 4 = if be then 3 else 0 := by
  cases be
  · rfl
  · simp only [reach, if_true]; omega

/-- Settles O41: each form's bytes are those of its merge with what the word or doubleword holds. -/
theorem partialLoads : Obligations.PartialLoads := by
  unfold Obligations.PartialLoads
  intro s base rt off va up down old o p
  refine ⟨fun hr => ⟨?lwl, ?lwr⟩, fun hr hr4 => ⟨?ldl, ?ldr⟩⟩
  case lwl =>
    obtain ⟨v, he, hv, hb⟩ := lwl_bytes (rt := rt) rfl hr
    exact ⟨v, he, hv, fun k hk => (hb k hk).trans (ite_near (by decide) s.be va k s _).symm⟩
  case lwr =>
    obtain ⟨v, he, hv, hb⟩ := lwr_bytes (rt := rt) rfl hr
    have ho := reach_four_eq_zero_iff s.be va
    refine ⟨v, he.trans (congrArg _ ?_), fun h => hv (ho.2 h),
      fun k hk => (hb k hk).trans (ite_near_not (by decide) s.be va k s _).symm⟩
    by_cases h : o = if s.be then 3 else 0
    · rw [if_pos h, if_pos (ho.2 h)]; rfl
    · rw [if_neg h, if_neg (mt ho.1 h)]
  case ldl =>
    obtain ⟨v, he, hb⟩ := ldl_bytes (rt := rt) rfl hr hr4
    exact ⟨v, he, fun k hk => (hb k hk).trans (ite_near (by decide) s.be va k s _).symm⟩
  case ldr =>
    obtain ⟨v, he, hb⟩ := ldr_bytes (rt := rt) rfl hr hr4
    exact ⟨v, he, fun k hk => (hb k hk).trans (ite_near_not (by decide) s.be va k s _).symm⟩

/-! ## An unaligned word, R848 -/

/-- The places of a load that goes up from `a` and of one that goes down from `a + 3` make up the word. -/
theorem pair_bytes {s : State} {a : Addr} {old first second : Nat → Byte} (hs : inSegment a = true)
    (h1 : ∀ k, k < 4 → first k = if k ≤ reach 4 true a then guestByte s (near true a k) else old k)
    (h2 : ∀ k, k < 4 → second k =
      if 3 - k ≤ reach 4 false (a + 3) then guestByte s (near false (a + 3) (3 - k)) else first k)
    {k : Nat} (hk : k < 4) : second k = guestByte s (a + BitVec.ofNat 64 k) := by
  have hlt := (inSegment_iff a).1 hs
  have h3 : (a + 3).toNat = a.toNat + 3 := by
    rw [BitVec.toNat_add]; exact Nat.mod_eq_of_lt (by simp; omega)
  have hup : reach 4 true a = 3 - a.toNat % 4 := rfl
  have hdown : reach 4 false (a + 3) = (a.toNat + 3) % 4 := congrArg (· % 4) h3
  rw [h2 k hk, h1 k hk]
  by_cases hd : 3 - k ≤ reach 4 false (a + 3)
  · rw [if_pos hd]
    congr 1
    apply BitVec.eq_of_toNat_eq
    rw [toNat_near (.inl rfl) hd, if_neg Bool.false_ne_true, h3, BitVec.toNat_add, BitVec.toNat_ofNat]
    omega
  · rw [if_neg hd, if_pos (by omega), near, if_pos rfl]

/-- The low word of a register value whose bytes are those at an address. -/
theorem toNat_mod_eq_guestValue {s : State} {a : Addr} {v : Word} (h : ∀ k, k < 4 →
    regByte v (if s.be then 3 - k else k) = guestByte s (a + BitVec.ofNat 64 k)) :
    v.toNat % 2 ^ 32 = guestValue s a 4 := by
  have e (k : Nat) : (regByte v k).toNat = v.toNat / 2 ^ (8 * k) % 2 ^ 8 := by
    rw [regByte, BitVec.extractLsb'_toNat, Nat.shiftRight_eq_div_pow]
  have h0 : _ = guestByte s a := (h 0 (by decide)).trans (congrArg _ (BitVec.add_zero a))
  have h1 : _ = guestByte s (a + 1) := h 1 (by decide)
  have h2 : _ = guestByte s (a + 2) := h 2 (by decide)
  have h3 : _ = guestByte s (a + 3) := h 3 (by decide)
  rw [guestValue_four, ← h0, ← h1, ← h2, ← h3]
  cases s.be
  · simp only [Bool.false_eq_true, if_false, e]; omega
  · simp only [if_true, e]; omega

/-- Settles O43: the first form goes up from the address, the second down from the last of the four bytes. -/
theorem unalignedWordPair : Obligations.UnalignedWordPair := by
  unfold Obligations.UnalignedWordPair
  intro s base rt off off3 hne a h3 hr hr3 first second
  have hs := (ramReadable_cell hr).1
  have hva (v : Word) : effAddr (s.setX rt v) base off3 = a + 3 := by
    rw [effAddr, State.x_setX_ne _ _ _ _ hne]; exact h3
  cases hbe : s.be
  · obtain ⟨v, he, -, hb⟩ := lwr_bytes (rt := rt) rfl hr
    generalize (if reach 4 s.be _ = 0 then s.draws else s.draws + 1) = n at he
    obtain ⟨v', he', -, hb'⟩ := lwl_bytes (rt := rt) (s := (s.setX rt v).setDraws n) (hva v) hr3
    rw [show first = .lwr base rt off from if_neg (by rw [hbe]; decide),
      show second = .lwl base rt off3 from if_neg (by rw [hbe]; decide)]
    refine ⟨_, _, he, he', ?_⟩
    rw [State.be_setDraws, State.be_setX, State.x_setDraws, State.x_setX_self, hbe] at hb'
    rw [hbe] at hb
    rw [State.x_setX_self]
    refine toNat_mod_eq_guestValue fun k hk => ?_
    rw [hbe]
    refine pair_bytes hs hb (fun k hk => ?_) hk
    have h := hb' (3 - k) (by omega)
    rwa [show 3 - (3 - k) = k by omega] at h
  · obtain ⟨v, he, -, hb⟩ := lwl_bytes (rt := rt) rfl hr
    obtain ⟨v', he', -, hb'⟩ := lwr_bytes (rt := rt) (s := s.setX rt v) (hva v) hr3
    rw [show first = .lwl base rt off from if_pos hbe, show second = .lwr base rt off3 from if_pos hbe]
    refine ⟨_, _, he, he', ?_⟩
    rw [State.be_setX, State.x_setX_self, hbe] at hb'
    rw [hbe] at hb
    rw [State.x_setDraws, State.x_setX_self]
    refine toNat_mod_eq_guestValue fun k hk => ?_
    rw [hbe]
    exact pair_bytes hs hb (fun k _ => hb' (3 - k) (by omega)) hk

/-! ## The partial stores -/

/-- The frame of a store is that of every instruction. -/
theorem read_of_exec {s t : State} {i : Instr} (hwf : Memory.wf s.mem = true) (h : exec i s = .next t) :
    ∀ c, c ∉ storedCells i s → Memory.read t.mem c = Memory.read s.mem c :=
  (frameMemory i s t hwf h).1

section
variable {s : State} {i : Instr} {va : Addr}

/-! A partial store reads the word or doubleword of its address and writes a merge of it back. -/

theorem wordMerge_holds {f : BusWord → BusWord} (hi : exec i s =
      andThen (memRead32 s (wordBase va)) fun w => memWrite32 s (wordBase va) (f w))
    (hwf : Memory.wf s.mem = true) (hr : ramReadable s va = true) (hw : ramWritable s va = true) :
    ∃ w m, exec i s = .next (s.setMem m) ∧ UnitHolds 4 (s.setMem m) va (f w) := by
  obtain ⟨w, hrd, -⟩ := memRead32_holds hr
  obtain ⟨m, hst, hm⟩ := memWrite32_holds (f w) hwf hw
  exact ⟨w, m, hi.trans ((andThen_of_next hrd).trans hst), hm⟩

theorem dwordMerge_holds {f : BitVec 64 → BitVec 64} (hi : exec i s =
      andThen (memRead64 s (dwordBase va)) fun w => memWrite64 s (dwordBase va) (f w))
    (hwf : Memory.wf s.mem = true) (hr : ramReadable s (dwordBase va) = true)
    (hr4 : ramReadable s (dwordBase va + 4) = true) (hw : ramWritable s (dwordBase va) = true)
    (hw4 : ramWritable s (dwordBase va + 4) = true) (hap : wordsApart s (dwordBase va) = true) :
    ∃ w m, exec i s = .next (s.setMem m) ∧ UnitHolds 8 (s.setMem m) va (f w) := by
  obtain ⟨w, hrd, -⟩ := memRead64_holds hr hr4
  obtain ⟨m, hst, hm⟩ := memWrite64_holds (f w) hwf hw hw4 hap
  exact ⟨w, m, hi.trans ((andThen_of_next hrd).trans hst), hm⟩

end

/-- Settles O42: the merge written back holds the register's bytes at the places a partial load reads. -/
theorem partialStores : Obligations.PartialStores := by
  unfold Obligations.PartialStores
  intro s base rt off hwf va reg law up down o p
  refine ⟨fun hr hw => ⟨?swl, ?swr⟩, fun hr hr4 hw hw4 hap => ⟨?sdl, ?sdr⟩⟩
  case swl =>
    obtain ⟨w, m, he, hm⟩ := wordMerge_holds (i := .swl base rt off) rfl hwf hr hw
    rw [leftShift4_eq_reach] at hm
    refine ⟨m, he, fun k => guestByte_of_near fun hk => ?_, read_of_exec hwf he⟩
    exact (storeLeft_byte (.inl rfl) rfl hm hk).trans (regByte_eq_lo32 _ (by omega)).symm
  case swr =>
    obtain ⟨w, m, he, hm⟩ := wordMerge_holds (i := .swr base rt off) rfl hwf hr hw
    rw [rightShift4_eq_reach] at hm
    refine ⟨m, he, fun k => guestByte_of_near_not fun hk => ?_, read_of_exec hwf he⟩
    exact (storeRight_byte (.inl rfl) rfl hm hk).trans
      (regByte_eq_lo32 _ (Nat.lt_of_le_of_lt hk (reach_lt (by decide) _ _))).symm
  case sdl =>
    obtain ⟨w, m, he, hm⟩ := dwordMerge_holds (i := .sdl base rt off) rfl hwf hr hr4 hw hw4 hap
    rw [leftShift8_eq_reach] at hm
    exact ⟨m, he, fun k => guestByte_of_near fun hk => storeLeft_byte (.inr rfl) rfl hm hk,
      read_of_exec hwf he⟩
  case sdr =>
    obtain ⟨w, m, he, hm⟩ := dwordMerge_holds (i := .sdr base rt off) rfl hwf hr hr4 hw hw4 hap
    rw [rightShift8_eq_reach] at hm
    exact ⟨m, he, fun k => guestByte_of_near_not fun hk => storeRight_byte (.inr rfl) rfl hm hk,
      read_of_exec hwf he⟩

/-! ## Load-linked and store-conditional, R860 to R863 -/

/-- What LL and LLD write after the value is read, R860, R861. -/
theorem translate_loadLinked {s : State} {va : Addr} (rt : RegIdx) (v : Word) (hs : inSegment va = true) :
    (andThen (translate va) fun pa => .next (loadLinked rt v pa s)) =
      (.next (((s.setX rt v).setLlbit true).setC0 17 (BitVec.ofNat 64 (va.toNat % 2 ^ 29 / 16))) :
        Result) := by
  rw [translate_inSegment hs, andThen_next, loadLinked, llAddr_eq, Cp0.llAddr]

/-- Settles O44: the value is that of the sized read, and the address translates as in the read. -/
theorem LoadStore.loadLinked : Obligations.LoadLinked := by
  unfold Obligations.LoadLinked
  intro s base rt off va law hr
  obtain ⟨hs, -⟩ := ramReadable_cell hr
  refine ⟨fun ha => ?_, fun ha hr4 => ?_⟩
  · refine (andThen_of_next (memRead32_eq hr ha)).trans ?_
    rw [translate_loadLinked _ _ hs, sext64_ofNat 32 (by decide)]
  · refine (andThen_of_next (memRead64_eq hr hr4 ha)).trans ?_
    rw [translate_loadLinked _ _ hs, BitVec.ofInt_natCast]

/-- Settles O45: LLbit decides between the sized store, after which 1 is written, and the write of 0. -/
theorem storeConditional : Obligations.StoreConditional := by
  unfold Obligations.StoreConditional
  intro s base rt off hwf va law
  refine ⟨fun hl => ?_, fun hl hw => ⟨fun ha => ?_, fun ha hw4 hap => ?_⟩⟩
  · have hl' : ¬ s.llbit = true := by rw [hl]; decide
    exact ⟨if_neg hl', if_neg hl'⟩
  · obtain ⟨t, ht⟩ := memWrite32_answers (xLo s rt) hw ha
    obtain ⟨m, rfl, -⟩ := memWrite32_next ht
    have he : exec (.sc base rt off) s = .next ((s.setMem m).setX rt 1) :=
      (if_pos hl).trans (andThen_of_next ht)
    exact ⟨m, he, (memWrite32_value hwf ht).trans (toNat_lo32 _), read_of_exec hwf he⟩
  · obtain ⟨t, ht⟩ := memWrite64_answers (s.x rt) hw hw4 ha
    obtain ⟨m, rfl, -⟩ := memWrite64_next ht
    have he : exec (.scd base rt off) s = .next ((s.setMem m).setX rt 1) :=
      (if_pos hl).trans (andThen_of_next ht)
    exact ⟨m, he, (memWrite64_value hwf hap ht).trans (Nat.mod_eq_of_lt (s.x rt).isLt).symm,
      read_of_exec hwf he⟩

end Sys2Proof.Machine
end

section
/-! The system statements (spec/45_system.md). SYSCALL, BREAK and a trap whose condition holds enter the
general exception, at the address of the instruction; CACHE and TLBWI do nothing behind the gate of CP0. -/

namespace Sys2Proof.Machine

/-! ## Traps, R910 to R925 -/

section
variable {a b : Word}

theorem ltS_iff : ltS a b = true ↔ a.toInt < b.toInt := decide_eq_true_iff

theorem ltU_iff : ltU a b = true ↔ a.toNat < b.toNat := decide_eq_true_iff

theorem not_ltS_iff : (!ltS a b) = true ↔ b.toInt ≤ a.toInt := by
  rw [Bool.not_eq_true', ← Bool.not_eq_true, ltS_iff, Int.not_lt]

theorem not_ltU_iff : (!ltU a b) = true ↔ b.toNat ≤ a.toNat := by
  rw [Bool.not_eq_true', ← Bool.not_eq_true, ltU_iff, Nat.not_lt]

theorem eq_simm_iff {imm : BitVec 16} : a = simm imm ↔ a.toInt = imm.toInt := by
  rw [← toInt_simm, BitVec.toInt_inj]

end

/-- Settles O20: a trap decides its comparison on the values, and the immediate is compared as its sign
extension. -/
theorem traps : Obligations.Traps := by
  unfold Obligations.Traps
  intro s rs rt code imm a b u tr
  have hu : (simm imm).toNat = u := toNat_simm imm
  refine ⟨trapIf_eq _ not_ltS_iff, trapIf_eq _ not_ltU_iff, trapIf_eq _ ltS_iff, trapIf_eq _ ltU_iff,
    trapIf_eq _ beq_iff_eq, trapIf_eq _ bne_iff_ne, ?tgei, ?tgeiu, ?tlti, ?tltiu, ?teqi, ?tnei,
    excCode_raised .tr s⟩
  case tgei => exact trapIf_eq _ (by rw [not_ltS_iff, toInt_simm])
  case tgeiu => exact trapIf_eq _ (by rw [not_ltU_iff, hu])
  case tlti => exact trapIf_eq _ (by rw [ltS_iff, toInt_simm])
  case tltiu => exact trapIf_eq _ (by rw [ltU_iff, hu])
  case teqi => exact trapIf_eq _ (beq_iff_eq.trans eq_simm_iff)
  case tnei => exact trapIf_eq _ (bne_iff_ne.trans (not_congr eq_simm_iff))

/-! ## SYSCALL and BREAK, R900 to R902 -/

/-- R1220, R1221: where an exception that an instruction raises leaves the machine, and what it tells of the
instruction. -/
theorem raised_entry (e : ExcCode) (s : State) :
    (raised e s).c0 8 = s.cur ∧ (raised e s).status.getLsbD 1 = true ∧ (raised e s).ds = none ∧
    (raised e s).pc = (if s.status.getLsbD 22 then 0xFFFFFFFFBFC00380 else 0xFFFFFFFF80000180) ∧
    (s.status.getLsbD 1 = false →
      CauseReg.bd (raised e s).cause = s.inDS ∧
        (raised e s).c0 14 = if s.inDS then s.cur - 4 else s.cur) := by
  unfold raised
  refine ⟨?badVAddr, ?exl, ds_enterException .., pc_enterException .., fun hexl => ⟨?bd, ?epc⟩⟩
  case badVAddr => exact c0_enterException e s.cur s.inDS s 8
  case exl => rw [status_enterException, getLsbD_setExl, if_pos rfl]
  case bd => rw [cause_enterException, StatusReg.exl, hexl, bd_causeOnEntry]
  case epc =>
    have hepc := c0_enterException e s.cur s.inDS s 14
    rw [StatusReg.exl, hexl] at hepc
    exact hepc

/-- Settles O18: both raise, and the entry is that of every raised exception. -/
theorem syscallAndBreak : Obligations.SyscallAndBreak := by
  unfold Obligations.SyscallAndBreak
  refine fun s code => ⟨⟨rfl, rfl⟩, excCode_raised .sys s, excCode_raised .bp s, fun t ht => ?_⟩
  rcases ht with rfl | rfl
  · exact raised_entry .sys s
  · exact raised_entry .bp s

/-! ## SYNC, CACHE and TLBWI, R930, R931, R1020 -/

/-- Settles O50: CACHE and TLBWI are the gate of CP0 with nothing behind it, whatever their fields. -/
theorem syncCacheTlbwi : Obligations.SyncCacheTlbwi := by
  unfold Obligations.SyncCacheTlbwi
  exact fun s base op stype off => ⟨rfl, fun h => ⟨copGate_usable h, copGate_usable h⟩,
    fun h => ⟨copGate_unusable h, copGate_unusable h⟩⟩

end Sys2Proof.Machine
end

section
/-! The CP0 statements (spec/46_cp0.md). A move reads or writes any register behind the gate of CP0, a write
of Cause or Compare having its own rule; ERET undoes an exception entry outside a delay slot. -/

namespace Sys2Proof.Machine

/-! ## Moves to CP0, R1010 to R1013 -/

/-- R1012: a write of Cause writes its software bits only. -/
theorem writeC0_cause (v : Word) (s : State) :
    writeC0 13 v s = s.setC0 13 (CauseReg.setIpSoftware s.cause (CauseReg.ipSoftware v)) := rfl

/-- R1013: a write of Compare clears the timer bit of Cause. -/
theorem writeC0_compare (v : Word) (s : State) :
    writeC0 11 v s = (s.setC0 11 v).setC0 13 (CauseReg.setIpTimer s.cause false) := rfl

theorem writeC0_raw {rd : RegIdx} (hcause : rd ≠ 13) (hcompare : rd ≠ 11) (v : Word) (s : State) :
    writeC0 rd v s = s.setC0 rd v := by
  rw [writeC0, if_neg hcause, if_neg hcompare]

theorem getLsbD_sext64_lo32 (v : Word) {k : Nat} (hk : k < 32) :
    (sext64 (lo32 v)).getLsbD k = v.getLsbD k := by
  rw [sext64, BitVec.getLsbD_signExtend, if_pos hk, lo32, BitVec.getLsbD_setWidth, decide_eq_true hk,
    decide_eq_true (show k < 64 by omega), Bool.true_and, Bool.true_and]

/-- Settles O52: both moves are one write behind the gate of CP0, of values that agree on the software bits
of Cause. -/
theorem movesToCp0 : Obligations.MovesToCp0 := by
  unfold Obligations.MovesToCp0
  intro s rt hu law
  have of_writeC0 {i : RegIdx → Instr} {v : Word} (hi : ∀ rd, exec (i rd) s = .next (writeC0 rd v s))
      (hv : ∀ k < 32, v.getLsbD k = (s.x rt).getLsbD k) : law i v := by
    refine ⟨⟨_, (hi 13).trans (congrArg _ (writeC0_cause v s)), fun k => ?cause⟩,
      ⟨_, (hi 11).trans (congrArg _ (writeC0_compare v s)), fun k => ?compare⟩,
      fun rd hcause hcompare => (hi rd).trans (congrArg _ (writeC0_raw hcause hcompare v s))⟩
    case cause =>
      rw [getLsbD_setIpSoftware]
      by_cases hk : k = 8 ∨ k = 9
      · rw [if_pos hk, if_pos hk]
        exact hv k (by omega)
      · rw [if_neg hk, if_neg hk]
    case compare => exact (getLsbD_setIpTimer s.cause false k).trans (Bool.if_false_left ..)
  have hlow : sext64 (xLo s rt) = BitVec.ofInt 64 ((s.x rt).toInt.bmod (2 ^ 32)) := by
    rw [sext64_eq_ofInt _ (by decide), xLo, toInt_lo32]
  refine ⟨?mtc0, of_writeC0 (fun _ => copGate_usable hu) fun _ _ => rfl⟩
  case mtc0 =>
    rw [← hlow]
    exact of_writeC0 (fun _ => copGate_usable hu) fun _ => getLsbD_sext64_lo32 (s.x rt)

/-! ## The return from an exception, R1040 -/

/-- R1040: one return for both levels, to the level's return address and with the level's bit cleared. -/
theorem returnFromException_eq (s : State) : returnFromException s =
    (((s.setPc (if s.status.getLsbD 2 then s.c0 30 else s.c0 14)).setC0 12
      (if s.status.getLsbD 2 then StatusReg.setErl s.status false
        else StatusReg.setExl s.status false)).setLlbit false).setDs none := by
  unfold returnFromException StatusReg.erl
  cases s.status.getLsbD 2 <;> rfl

theorem getLsbD_statusOnReturn (v : Word) (erl : Bool) (k : Nat) :
    (if erl then StatusReg.setErl v false else StatusReg.setExl v false).getLsbD k =
      (v.getLsbD k && k != (if erl then 2 else 1)) := by
  cases erl
  · exact (getLsbD_setExl v false k).trans ((Bool.if_false_left ..).trans (Bool.and_comm ..))
  · exact (getLsbD_setErl v false k).trans ((Bool.if_false_left ..).trans (Bool.and_comm ..))

/-- Settles O53: behind the gate of CP0 and the delay-slot check stands the return. -/
theorem exceptionReturn : Obligations.ExceptionReturn := by
  unfold Obligations.ExceptionReturn
  refine fun s hu => ⟨fun hd => exec_eret_fatal hd hu,
    fun hd => ⟨_, ?_, getLsbD_statusOnReturn s.status (s.status.getLsbD 2)⟩⟩
  calc exec .eret s
      = ctiCheck s (.next (returnFromException s)) := copGate_usable hu
    _ = .next (returnFromException s) := ctiCheck_ok ((inDS_eq_false_iff s).1 hd)
    _ = _ := congrArg _ (returnFromException_eq s)

/-! ## Moves from CP0, R1000, R1001 -/

/-- Settles O51: behind the gate of CP0 each move writes what the register holds, MFC0 its low word extended. -/
theorem movesFromCp0 : Obligations.MovesFromCp0 := by
  unfold Obligations.MovesFromCp0
  exact fun s rt rd hu => ⟨⟨_, copGate_usable hu, (toInt_sext64 _ (by decide)).trans (toInt_lo32 _)⟩,
    copGate_usable hu⟩

end Sys2Proof.Machine
end

section
/-! The CP1, CP2 and CP3 statements (spec/47_cp1_cop.md). CFC1 and CTC1 select a control register behind the
gate of CP1; a row with no operation ends in Reserved Instruction, behind the gate of its unit if it has one. -/

namespace Sys2Proof.Machine

/-- R420: the path of Reserved Instruction, by the name the statements give its entry. -/
theorem reservedInstruction_eq (s : State) : reservedInstruction s = .next (reservedEntry s) := rfl

/-! ## CFC1 and CTC1, R1100 to R1112 -/

section
variable {s : State} {rt fs : RegIdx}

theorem exec_cfc1 (hu : usable s 1 = true) : exec (.cfc1 rt fs) s =
    if fs = 0 then .next (s.setX rt (sext64 s.fcr0))
    else if fs = 31 then .next (s.setX rt (sext64 s.fcr31))
    else reservedInstruction s := copGate_usable hu

theorem exec_ctc1 (hu : usable s 1 = true) : exec (.ctc1 rt fs) s =
    if fs = 0 then .next s
    else if fs = 31 then writeFcr31 (xLo s rt) s
    else reservedInstruction s := copGate_usable hu

end

/-- R1110, R1111: FCR31 is written in both cases, and the Floating-Point entry follows the write. -/
theorem writeFcr31_of_fpeRaised {v : BitVec 32} {s : State} (h : fpeRaised v = true) :
    writeFcr31 v s = .next (raised .fpe (s.setFcr31 v)) := if_pos h

theorem writeFcr31_of_not_fpeRaised {v : BitVec 32} {s : State} (h : ¬ fpeRaised v = true) :
    writeFcr31 v s = .next (s.setFcr31 v) := if_neg h

/-- Settles O56: the register number selects the case, and the written value's own bits decide whether its
write raises. -/
theorem controlRegistersOfCp1 : Obligations.ControlRegistersOfCp1 := by
  unfold Obligations.ControlRegistersOfCp1
  intro s rt fs hu v
  have hwrite : exec (.ctc1 rt 31) s = writeFcr31 v s := exec_ctc1 hu
  refine ⟨?cfc1_fcr0, ?cfc1_fcr31, exec_ctc1 hu, fun hraise => ?ctc1_raises, fun hquiet => ?ctc1_quiet,
    fun h0 h31 => ⟨?cfc1_reserved, ?ctc1_reserved⟩, excCode_raised .fpe (s.setFcr31 v), s.getLsbD_fcr0⟩
  case cfc1_fcr0 =>
    rw [← sext64_eq_ofInt s.fcr0 (by decide)]
    exact exec_cfc1 hu
  case cfc1_fcr31 =>
    rw [← sext64_eq_ofInt s.fcr31 (by decide)]
    exact exec_cfc1 hu
  case ctc1_raises => rw [hwrite, writeFcr31_of_fpeRaised ((fpeRaised_iff v).2 hraise)]
  case ctc1_quiet => rw [hwrite, writeFcr31_of_not_fpeRaised (mt (fpeRaised_iff v).1 hquiet)]
  case cfc1_reserved => rw [exec_cfc1 hu, if_neg h0, if_neg h31, reservedInstruction_eq]
  case ctc1_reserved => rw [exec_ctc1 hu, if_neg h0, if_neg h31, reservedInstruction_eq]

/-! ## The rows with no operation, R1050, R1120 to R1130 -/

theorem copReserved_usable {z : BitVec 2} {s : State} (hu : usable s z = true) :
    copReserved z s = .next (reservedEntry s) :=
  (copGate_usable hu).trans (reservedInstruction_eq s)

theorem mem_unimplemented_reservedEntry (s : State) :
    (s.cur, s.word) ∈ (reservedEntry s).unimplemented :=
  (State.mem_unimplemented_signal _ _ _ _).2 (.inr rfl)

/-- The signal leaves Cause as the entry wrote it. -/
theorem cause_reservedEntry (s : State) : (reservedEntry s).cause = (raised .ri s).cause :=
  State.c0_signal _ _ _ _

/-- Settles O54: a word of the load and store rows takes the Reserved Instruction path at once, a coprocessor
word behind the gate of its unit. -/
theorem reservedRows : Obligations.ReservedRows := by
  unfold Obligations.ReservedRows
  intro s a b c nd off f cf law
  have hpath : reservedInstruction s = .next (reservedEntry s) := reservedInstruction_eq s
  refine ⟨?loadsAndStores, fun h0 => ?cop0, fun h1 => ?cop1, copReserved_usable, copReserved_usable,
    mem_unimplemented_reservedEntry s, ?excCode⟩
  case loadsAndStores => exact ⟨hpath, hpath, hpath, hpath, hpath, hpath, hpath, hpath⟩
  case cop0 =>
    have hcop := copReserved_usable h0
    exact ⟨hcop, hcop, hcop, hcop⟩
  case cop1 =>
    have hcop := copReserved_usable h1
    exact ⟨hcop, hcop, hcop, hcop, hcop, hcop, hcop, hcop, hcop⟩
  case excCode => rw [cause_reservedEntry, excCode_raised, excNumber]

end Sys2Proof.Machine
end

section
/-! The exception and interrupt statements (spec/60_exceptions.md). An interrupt is pending when a mask bit
meets the IP bit of its index and nothing above masks it; taking one is an exception entry at the address the
Cycle would have fetched, and what an entry leaves is read off its laws. -/

namespace Sys2Proof.Machine

open State

/-! ## When an interrupt is pending, R1250 -/

/-- Two fields at one place meet exactly where the words share a bit of the field. -/
theorem getField_and_getField_ne_zero_iff (v w : Word) (lo n : Nat) :
    getField v lo n &&& getField w lo n ≠ 0 ↔
      ∃ k, k < n ∧ v.getLsbD (lo + k) = true ∧ w.getLsbD (lo + k) = true := by
  have hbit (k : Nat) : (getField v lo n &&& getField w lo n).getLsbD k =
      (decide (k < n) && (v.getLsbD (lo + k) && w.getLsbD (lo + k))) := by
    rw [BitVec.getLsbD_and, getField, getField, BitVec.getLsbD_extractLsb', BitVec.getLsbD_extractLsb']
    cases decide (k < n) <;> rfl
  calc getField v lo n &&& getField w lo n ≠ 0
      ↔ ¬ ∀ k, (getField v lo n &&& getField w lo n).getLsbD k = false :=
        not_congr BitVec.zero_iff_eq_false
    _ ↔ ∃ k, (getField v lo n &&& getField w lo n).getLsbD k = true := by
        simp only [Classical.not_forall, Bool.not_eq_false]
    _ ↔ _ := exists_congr fun k => by rw [hbit, Bool.and_eq_true, Bool.and_eq_true, decide_eq_true_iff]

/-- Settles O15: IM and IP stand at one place, so they meet in a bit of the same index. -/
theorem interruptPending : Obligations.InterruptPending := by
  unfold Obligations.InterruptPending
  intro s
  rw [hasPendingInterrupt, Bool.and_eq_true, Bool.and_eq_true, Bool.and_eq_true, bne_iff_ne,
    Bool.not_eq_true', Bool.not_eq_true', and_assoc, and_assoc, StatusReg.im, CauseReg.ip,
    getField_and_getField_ne_zero_iff, StatusReg.ie, StatusReg.exl, StatusReg.erl]

/-! ## What an entry leaves, R1220 to R1226 -/

theorem effectiveMode_of_exl {s : State} (h : s.status.getLsbD 1 = true) : effectiveMode s = .kernel := by
  rw [effectiveMode, StatusReg.exl, h, Bool.true_or, if_pos rfl]

/-- A state whose register `m` holds `v`, and which elsewhere reads as `s`, reads as `s` with `v` written. -/
theorem c0_eq_setC0 {s t : State} {m n : RegIdx} {v : Word} (hv : t.c0 m = v)
    (h : n ≠ m → t.c0 n = s.c0 n) : t.c0 n = (s.setC0 m v).c0 n := by
  by_cases hn : n = m
  · rw [hn, c0_setC0_self, hv]
  · rw [c0_setC0_ne _ _ _ _ hn, h hn]

section
variable (e : ExcCode) (fpc : Addr) (bd : Bool) (s : State)

theorem getLsbD_status_enterException (k : Nat) :
    (enterException e fpc bd s).status.getLsbD k = (k == 1 || s.status.getLsbD k) := by
  rw [status_enterException, getLsbD_setExl]
  by_cases hk : k = 1
  · rw [if_pos hk, beq_iff_eq.2 hk, Bool.true_or]
  · rw [if_neg hk, beq_eq_false_iff_ne.2 hk, Bool.false_or]

theorem c0_enterException_frame {n : RegIdx} (h8 : n ≠ 8) (h12 : n ≠ 12) (h13 : n ≠ 13) (h14 : n ≠ 14) :
    (enterException e fpc bd s).c0 n = s.c0 n := by
  rw [c0_enterException, if_neg h8, if_neg h12, if_neg h13, if_neg h14]

/-- An entry writes four CP0 registers, the marker and pc, and nothing else. -/
theorem enterException_frame : let t := enterException e fpc bd s
    t = (((((s.setC0 8 (t.c0 8)).setC0 12 t.status).setC0 13 t.cause).setC0 14 (t.c0 14)).setDs
      none).setPc t.pc := by
  intro t
  refine ext_reads (fun r => ?x) (fun n => ?c0) (fun n => ?f) rfl ?hi ?lo ?llbit ?ds ?fcr31 ?mem ?signals
    ?runStatus ?word ?draws ?params
  case c0 =>
    rw [c0_setPc, c0_setDs]
    exact c0_eq_setC0 rfl fun h14 => c0_eq_setC0 rfl fun h13 => c0_eq_setC0 rfl fun h12 =>
      c0_eq_setC0 rfl fun h8 => c0_enterException_frame e fpc bd s h8 h12 h13 h14
  all_goals simp [t]

end

/-- Settles O17: the laws of the entry give each register it writes, and with EXL set the mode is Kernel and
nothing is pending. -/
theorem exceptionEntry : Obligations.ExceptionEntry := by
  unfold Obligations.ExceptionEntry
  intro e fpc bd s t
  have hexl : t.status.getLsbD 1 = true := getLsbD_status_enterException e fpc bd s 1
  refine ⟨pc_enterException .., c0_enterException e fpc bd s 8, c0_enterException e fpc bd s 14,
    getLsbD_status_enterException e fpc bd s, fun k => ?cause, enterException_frame e fpc bd s,
    effectiveMode_of_exl hexl, not_pending_of_exl hexl⟩
  case cause =>
    rw [cause_enterException, getLsbD_causeOnEntry]
    rfl

/-! ## Taking an interrupt, R1252 to R1255 -/

/-- A pending interrupt finds EXL clear, so its entry saves EPC and BD. -/
theorem exl_of_pending {s : State} (h : hasPendingInterrupt s = true) : s.status.getLsbD 1 = false := by
  obtain ⟨-, hexl, -⟩ := (interruptPending s).1 h
  exact hexl

/-- The Cycle that takes an interrupt: the counter, the entry at the address it would have fetched, and its
end. -/
theorem step_eq_enterException {s : State} (h : hasPendingInterrupt (incrementCounter s) = true) :
    step s = .next (((enterException .int (fetchAddress s) s.ds.isSome (incrementCounter s)).setX 0
      0).setWord 0) := by
  rw [step_eq_interrupt h, takeInterrupt_enters, fetchAddress_incrementCounter, ds_incrementCounter]

/-- R1221: the return address of an entry at the next fetch. -/
theorem returnAddress_eq (s : State) : (if s.ds.isSome then fetchAddress s - 4 else fetchAddress s) =
    match s.ds with | some a => a - 4 | none => s.pc := by
  unfold fetchAddress
  cases s.ds <;> rfl

/-- Settles O16: the entry finds EXL clear after the count, which keeps Status, the marker and pc; the end of
the Cycle writes `x[0]` and the word latch. -/
theorem interruptTaken : Obligations.InterruptTaken := by
  unfold Obligations.InterruptTaken
  intro s t hp
  have hexl : StatusReg.exl t.status = false := exl_of_pending hp
  have hcause := cause_enterException .int (fetchAddress s) s.ds.isSome t
  have hepc := c0_enterException .int (fetchAddress s) s.ds.isSome t 14
  have hpc := pc_enterException .int (fetchAddress s) s.ds.isSome t
  rw [hexl] at hcause hepc
  refine ⟨_, step_eq_enterException hp, c0_enterException _ _ _ t 8, hepc.trans (returnAddress_eq s),
    (congrArg CauseReg.excCode hcause).trans (excCode_causeOnEntry ..),
    (congrArg CauseReg.bd hcause).trans (bd_causeOnEntry ..),
    (congrArg CauseReg.ip hcause).trans (ip_causeOnEntry ..), ?pc, rfl,
    getLsbD_status_enterException _ _ _ t 1, fun r hr => ?x,
    (hi_enterException ..).trans (hi_incrementCounter s), (lo_enterException ..).trans (lo_incrementCounter s),
    (mem_enterException ..).trans (mem_incrementCounter s),
    (llbit_enterException ..).trans (llbit_incrementCounter s)⟩
  case pc => rwa [status_incrementCounter] at hpc
  case x => rw [x_setWord, x_setX_ne _ _ _ _ hr, x_enterException, x_incrementCounter]

end Sys2Proof.Machine
end

section
/-! The reset statement (spec/70_reset_and_hazards.md R1301, R1307, R1308). Reset() writes four CP0
registers, the marker, pc and `x[0]`: one law reads every CP0 register after it, and one each gives the
bits of Status and Config. -/

namespace Sys2Proof.Machine

open State

/-! ## The views written -/

theorem getLsbD_setFlag_true (v : Word) (lo : Nat) (h : lo < 64) (k : Nat) :
    (setFlag v lo true).getLsbD k = (k == lo || v.getLsbD k) :=
  (getLsbD_setFlag v lo true h k).trans (Bool.if_true_left ..)

theorem getLsbD_setFlag_false (v : Word) (lo : Nat) (h : lo < 64) (k : Nat) :
    (setFlag v lo false).getLsbD k = (k != lo && v.getLsbD k) :=
  (getLsbD_setFlag v lo false h k).trans (Bool.if_false_left ..)

/-- Every bit of Status after a reset: the bits set are none of the bits cleared, so the order of the
five writes does not show. -/
theorem getLsbD_statusOnReset (v : Word) (k : Nat) : (statusOnReset v).getLsbD k =
    (k == 2 || k == 22 || (k != 20 && k != 21 && k != 27 && v.getLsbD k)) := by
  rw [statusOnReset, StatusReg.setBev, getLsbD_setFlag_true _ 22 (by decide),
    StatusReg.setErl, getLsbD_setFlag_true _ 2 (by decide),
    StatusReg.setRp, getLsbD_setFlag_false _ 27 (by decide),
    StatusReg.setTs, getLsbD_setFlag_false _ 21 (by decide),
    StatusReg.setSr, getLsbD_setFlag_false _ 20 (by decide)]
  ac_rfl

/-- Every bit of Config after BE and then EC are written; bit 15 lies outside EC. -/
theorem getLsbD_setEc_setBe (v : Word) (ec : BitVec 3) (k : Nat) :
    (ConfigReg.setEc (ConfigReg.setBe v true) ec).getLsbD k =
      if k = 15 then true
      else if 28 ≤ k ∧ k < 31 then ec.getLsbD (k - 28)
      else v.getLsbD k := by
  rw [ConfigReg.setEc, getLsbD_setField' _ 28 ec (by decide), ConfigReg.setBe,
    getLsbD_setFlag _ 15 true (by decide)]
  by_cases hk : k = 15
  · rw [if_pos hk, if_pos hk, if_neg (by omega)]
  · rw [if_neg hk, if_neg hk]

/-! ## Reset(), R1301 -/

section
variable (s : State)

/-- Every CP0 register after a reset, the last write first. -/
theorem c0_coldReset (n : RegIdx) : (coldReset s).c0 n =
    if n = 30 then s.pc
    else if n = 1 then Config.randomMax
    else if n = 16 then ConfigReg.setEc (ConfigReg.setBe s.config true) s.params.ecValue
    else if n = 12 then statusOnReset s.status
    else s.c0 n := by
  simp only [coldReset, c0_setX, c0_setPc, c0_setDs, c0_setC0]

theorem random_coldReset : (coldReset s).c0 1 = Config.randomMax := c0_coldReset s 1

theorem errorEpc_coldReset : (coldReset s).c0 30 = s.pc := c0_coldReset s 30

theorem status_coldReset : (coldReset s).status = statusOnReset s.status := c0_coldReset s 12

theorem config_coldReset :
    (coldReset s).config = ConfigReg.setEc (ConfigReg.setBe s.config true) s.params.ecValue :=
  c0_coldReset s 16

theorem c0_coldReset_frame {n : RegIdx} (h1 : n ≠ 1) (h12 : n ≠ 12) (h16 : n ≠ 16) (h30 : n ≠ 30) :
    (coldReset s).c0 n = s.c0 n := by
  rw [c0_coldReset, if_neg h30, if_neg h1, if_neg h16, if_neg h12]

theorem x_coldReset (r : RegIdx) : (coldReset s).x r = if r = 0 then 0 else s.x r := by
  simp only [coldReset, x_setX, x_setPc, x_setDs, x_setC0]

end

/-- Settles O12: the law of the CP0 registers gives the four written and the frame of the others, the laws
of the two views give their bits, and every other field no write of Reset() reaches. -/
theorem coldReset_spec : Obligations.ColdReset := by
  unfold Obligations.ColdReset
  intro s t
  refine ⟨rfl, rfl, random_coldReset s, errorEpc_coldReset s, x_coldReset s 0, fun k => ?status,
    fun k => ?config, fun _ => c0_coldReset_frame s, fun r hr => ?x, ?frame⟩
  case status => rw [status_coldReset, getLsbD_statusOnReset]
  case config => rw [config_coldReset, getLsbD_setEc_setBe]
  case x => rw [x_coldReset, if_neg hr]
  case frame => simp [t, coldReset]

end Sys2Proof.Machine
end

section
/-! The encoding statements (spec/30_encoding.md). The opcode, or the COP0 co bit with it, tells which bits
of a word select its row; the map of the opcode reads no other bit to select it, and the row's fixed bits
are exactly those. -/

namespace Sys2Proof

/-! ## The maps, R340 to R346 -/

section
variable {w : BusWord}

theorem decode_special (h : opcodeOf w = 0x00#6) : decode w = decodeSpecial w := by
  rw [decode, h]; rfl

theorem decode_regimm (h : opcodeOf w = 0x01#6) : decode w = decodeRegimm w := by
  rw [decode, h]; rfl

theorem decode_cop0 (h : opcodeOf w = 0x10#6) : decode w = decodeCop0 w := by
  rw [decode, h]; rfl

theorem decode_cop1 (h : opcodeOf w = 0x11#6) : decode w = decodeCop1 w := by
  rw [decode, h]; rfl

/-- The co bit is the top bit of rs. -/
theorem coBit_eq (w : BusWord) : w.getLsbD 25 = (rsOf w).getLsbD 4 := by
  rw [rsOf, BitVec.getLsbD_extractLsb']; rfl

theorem decodeCop0_co (h : (rsOf w).getLsbD 4 = true) : decodeCop0 w = decodeCop0Co w := by
  rw [decodeCop0, coBit_eq, if_pos h]

end

theorem ndTfOf_iFormat (op : BitVec 6) (rs : BitVec 5) (nd : BitVec 2) (imm : BitVec 16) :
    ndTfOf (iFormat op rs (0#3 ++ nd) imm) = nd := by
  apply BitVec.eq_of_getLsbD_eq; intro i hi
  simp only [ndTfOf, iFormat, BitVec.getLsbD_append, BitVec.getLsbD_extractLsb']; grind

/-! ## The encoder undone -/

/-- The word of each instruction has its number in the field its map reads, and its operands in the fields
its entry of the map reads. -/
theorem decode_encode (i : Instr) : decode (encode i) = .ok i := by
  cases i
  -- SPECIAL
  case syscall | break_ =>
    rw [encode, decode_special (opcodeOf_codeFormat ..), decodeSpecial, functOf_codeFormat,
      code20Of_codeFormat]; rfl
  case tge | tgeu | tlt | tltu | teq | tne =>
    rw [encode, decode_special (opcodeOf_trapFormat ..), decodeSpecial, functOf_trapFormat,
      rsOf_trapFormat, rtOf_trapFormat, code10Of_trapFormat]; rfl
  case sll | add | addu | srl | sub | sra | subu | sllv | and | or | srlv | xor | srav | nor | jr
      | jalr | slt | sltu | dadd | daddu | dsub | sync | dsubu | mfhi | mthi | mflo | mtlo | dsllv
      | dsrlv | dsrav | mult | dsll | multu | div | dsrl | divu | dsra | dmult | dsll32 | dmultu | ddiv
      | dsrl32 | ddivu | dsra32 =>
    rw [encode, decode_special (opcodeOf_rFormat ..), decodeSpecial, functOf_rFormat, rsOf_rFormat,
      rtOf_rFormat, rdOf_rFormat, saOf_rFormat]; rfl
  -- REGIMM
  case bltz | bgez | bltzl | bgezl | tgei | tgeiu | tlti | tltiu | teqi | tnei | bltzal | bgezal
      | bltzall | bgezall =>
    rw [encode, decode_regimm (opcodeOf_iFormat ..), decodeRegimm, rtOf_iFormat, rsOf_iFormat,
      immOf_iFormat]; rfl
  -- COP0
  case mfc0 | dmfc0 | mtc0 | dmtc0 =>
    rw [encode, decode_cop0 (opcodeOf_rFormat ..), decodeCop0, coBit_eq, rsOf_rFormat, rtOf_rFormat,
      rdOf_rFormat]; rfl
  case bc0 =>
    rw [encode, decode_cop0 (opcodeOf_iFormat ..), decodeCop0, coBit_eq, rsOf_iFormat, ndTfOf_iFormat,
      immOf_iFormat]; rfl
  case tlbr | tlbwi | tlbwr | tlbp | eret => rfl
  -- COP1
  case cfc1 | ctc1 | mfc1 | dmfc1 | mtc1 | dmtc1 | cop1S | cop1D | cop1W | cop1L =>
    rw [encode, decode_cop1 (opcodeOf_rFormat ..), decodeCop1, rsOf_rFormat, rtOf_rFormat, rdOf_rFormat,
      saOf_rFormat, functOf_rFormat]; rfl
  case bc1 =>
    rw [encode, decode_cop1 (opcodeOf_iFormat ..), decodeCop1, rsOf_iFormat, ndTfOf_iFormat,
      immOf_iFormat]; rfl
  -- the primary map
  case j | jal | cop2 | cop3 => rw [encode, decode, opcodeOf_jFormat, targetOf_jFormat]; rfl
  all_goals rw [encode, decode, opcodeOf_iFormat, rsOf_iFormat, rtOf_iFormat, immOf_iFormat]; rfl

/-- Settles O1: the byte decoder reads the word back from its bytes, and the decoder the instruction from the
word. -/
theorem decodeUndoesEncode : Obligations.DecodeUndoesEncode := by
  unfold Obligations.DecodeUndoesEncode
  intro i
  refine ⟨decode_encode i, fun rest => ?_⟩
  rw [encodeBytes, decodeBytes_bytesOfWord, decode_encode]

/-! ## The rows, R322 -/

/-- The bits of a word that select its row. -/
def selectMask (w : BusWord) : BusWord :=
  if opcodeOf w = 0x00#6 then 0xFC00003F#32
  else if opcodeOf w = 0x01#6 then 0xFC1F0000#32
  else if opcodeOf w = 0x10#6 then if (rsOf w).getLsbD 4 then 0xFE00003F#32 else 0xFFE00000#32
  else if opcodeOf w = 0x11#6 then 0xFFE00000#32
  else 0xFC000000#32

/-- The row of what a decoder answers. -/
def rowOf (r : Except DecodeError Instr) : Option OpcodeRow := r.toOption.map Instr.row

theorem exists_of_rowOf {r : Except DecodeError Instr} {o : OpcodeRow} (h : rowOf r = some o) :
    ∃ j, r = .ok j ∧ j.row = o := by
  cases r with
  | error e => cases h
  | ok j => exact ⟨j, rfl, Option.some.inj h⟩

section
variable {w v : BusWord}

theorem rowOf_decodeSpecial (h : functOf w = functOf v) :
    rowOf (decodeSpecial w) = rowOf (decodeSpecial v) := by
  unfold decodeSpecial; rw [h]; split <;> rfl

theorem rowOf_decodeRegimm (h : rtOf w = rtOf v) : rowOf (decodeRegimm w) = rowOf (decodeRegimm v) := by
  unfold decodeRegimm; rw [h]; split <;> rfl

theorem rowOf_decodeCop0Co (h : functOf w = functOf v) :
    rowOf (decodeCop0Co w) = rowOf (decodeCop0Co v) := by
  unfold decodeCop0Co; rw [h]; split <;> rfl

theorem rowOf_decodeCop1 (h : rsOf w = rsOf v) : rowOf (decodeCop1 w) = rowOf (decodeCop1 v) := by
  unfold decodeCop1; rw [h]; split <;> rfl

theorem rowOf_decodeCop0 (h : rsOf w = rsOf v) (hco : (rsOf v).getLsbD 4 = false) :
    rowOf (decodeCop0 w) = rowOf (decodeCop0 v) := by
  unfold decodeCop0; rw [coBit_eq, coBit_eq, h, hco, if_neg (by decide), if_neg (by decide)]; split <;> rfl

theorem rowOf_decode_primary (h : opcodeOf w = opcodeOf v) (h0 : opcodeOf v ≠ 0x00#6)
    (h1 : opcodeOf v ≠ 0x01#6) (h10 : opcodeOf v ≠ 0x10#6) (h11 : opcodeOf v ≠ 0x11#6) :
    rowOf (decode w) = rowOf (decode v) := by
  unfold decode; rw [h]; split
  case h_1 | h_2 | h_17 | h_18 => contradiction -- the other maps
  all_goals rfl

/-! Words that agree under a mask agree in the fields it covers. -/

theorem fields_of_and_primaryMask (h : w &&& 0xFC000000#32 = v &&& 0xFC000000#32) :
    opcodeOf w = opcodeOf v := by
  rw [and_primaryMask, and_primaryMask] at h
  simpa using congrArg opcodeOf h

theorem fields_of_and_specialMask (h : w &&& 0xFC00003F#32 = v &&& 0xFC00003F#32) :
    opcodeOf w = opcodeOf v ∧ functOf w = functOf v := by
  rw [and_specialMask, and_specialMask] at h
  exact ⟨by simpa using congrArg opcodeOf h, by simpa using congrArg functOf h⟩

theorem fields_of_and_regimmMask (h : w &&& 0xFC1F0000#32 = v &&& 0xFC1F0000#32) :
    opcodeOf w = opcodeOf v ∧ rtOf w = rtOf v := by
  rw [and_regimmMask, and_regimmMask] at h
  exact ⟨by simpa using congrArg opcodeOf h, by simpa using congrArg rtOf h⟩

theorem fields_of_and_copMask (h : w &&& 0xFFE00000#32 = v &&& 0xFFE00000#32) :
    opcodeOf w = opcodeOf v ∧ rsOf w = rsOf v := by
  rw [and_copMask, and_copMask] at h
  exact ⟨by simpa using congrArg opcodeOf h, by simpa using congrArg rsOf h⟩

theorem fields_of_and_coMask (h : w &&& 0xFE00003F#32 = v &&& 0xFE00003F#32) :
    opcodeOf w = opcodeOf v ∧ (rsOf w).getLsbD 4 = (rsOf v).getLsbD 4 ∧ functOf w = functOf v := by
  rw [and_coMask, and_coMask] at h
  exact ⟨by simpa using congrArg opcodeOf h, by simpa using congrArg (fun u => (rsOf u).getLsbD 4) h,
    by simpa using congrArg functOf h⟩

/-- The bits of `selectMask` are all a decoder reads to select the row. -/
theorem rowOf_decode_congr (h : w &&& selectMask v = v &&& selectMask v) :
    rowOf (decode w) = rowOf (decode v) := by
  unfold selectMask at h
  split at h
  next h0 =>
    obtain ⟨hop, hfunct⟩ := fields_of_and_specialMask h
    rw [decode_special h0, decode_special (hop.trans h0), rowOf_decodeSpecial hfunct]
  split at h
  next h1 =>
    obtain ⟨hop, hrt⟩ := fields_of_and_regimmMask h
    rw [decode_regimm h1, decode_regimm (hop.trans h1), rowOf_decodeRegimm hrt]
  split at h
  next h10 =>
    split at h
    next hco =>
      obtain ⟨hop, hco', hfunct⟩ := fields_of_and_coMask h
      rw [decode_cop0 h10, decode_cop0 (hop.trans h10), decodeCop0_co hco,
        decodeCop0_co (hco'.trans hco), rowOf_decodeCop0Co hfunct]
    next hco =>
      obtain ⟨hop, hrs⟩ := fields_of_and_copMask h
      rw [decode_cop0 h10, decode_cop0 (hop.trans h10), rowOf_decodeCop0 hrs (eq_false_of_ne_true hco)]
  split at h
  next h11 =>
    obtain ⟨hop, hrs⟩ := fields_of_and_copMask h
    rw [decode_cop1 h11, decode_cop1 (hop.trans h11), rowOf_decodeCop1 hrs]
  next h0 h1 h10 h11 => exact rowOf_decode_primary (fields_of_and_primaryMask h) h0 h1 h10 h11

end

/-- The word carries the row of the instruction: the row's mask is the bits that select it, the word has the
row's pattern under it, and the bits of the instruction's own encoding are all in the word. -/
structure Carries (w : BusWord) (i : Instr) : Prop where
  mask : i.row.mask = selectMask w
  pattern : w &&& selectMask w = i.row.pattern
  bits : encode i &&& w = encode i

section
variable {w : BusWord} {i : Instr}

/-! A decoder's answer carries its row. In each entry of its map the fields that select it are known, and
the operands are fields of the word. -/

theorem carries_of_decodeSpecial (h0 : opcodeOf w = 0x00#6) (h : decodeSpecial w = .ok i) : Carries w i := by
  have hm : selectMask w = 0xFC00003F#32 := by rw [selectMask, if_pos h0]
  unfold decodeSpecial at h
  split at h <;> cases h
  all_goals
    rename_i hf
    refine ⟨hm.symm, by rw [hm, and_specialMask, h0, hf]; rfl, ?_⟩
    simp [encode, rFormat_and_word, codeFormat_and_word, trapFormat_and_word, h0, hf]

theorem carries_of_decodeRegimm (h1 : opcodeOf w = 0x01#6) (h : decodeRegimm w = .ok i) : Carries w i := by
  have hm : selectMask w = 0xFC1F0000#32 := by rw [selectMask, h1]; rfl
  unfold decodeRegimm at h
  split at h <;> cases h
  all_goals
    rename_i hr
    refine ⟨hm.symm, by rw [hm, and_regimmMask, h1, hr]; rfl, ?_⟩
    simp [encode, iFormat_and_word, h1, hr]

theorem ndTf_and_rtOf (w : BusWord) : (0#3 ++ ndTfOf w) &&& rtOf w = 0#3 ++ ndTfOf w := by
  apply BitVec.eq_of_getLsbD_eq; intro i hi
  simp only [ndTfOf, rtOf, BitVec.getLsbD_append, BitVec.getLsbD_and, BitVec.getLsbD_extractLsb']; grind

theorem carries_of_decodeCop1 (h11 : opcodeOf w = 0x11#6) (h : decodeCop1 w = .ok i) : Carries w i := by
  have hm : selectMask w = 0xFFE00000#32 := by rw [selectMask, h11]; rfl
  unfold decodeCop1 at h
  split at h <;> cases h
  all_goals
    rename_i hr
    refine ⟨hm.symm, by rw [hm, and_copMask, h11, hr]; rfl, ?_⟩
    simp [encode, rFormat_and_word, iFormat_and_word, ndTf_and_rtOf, h11, hr]

theorem and_of_coBit : ∀ r : BitVec 5, r.getLsbD 4 = true → 0x10#5 &&& r = 0x10#5 := by decide

theorem carries_of_decodeCop0Co (h10 : opcodeOf w = 0x10#6) (hco : (rsOf w).getLsbD 4 = true)
    (h : decodeCop0Co w = .ok i) : Carries w i := by
  have hm : selectMask w = 0xFE00003F#32 := by rw [selectMask, h10, hco]; rfl
  have hrs : 0x10#5 &&& rsOf w = 0x10#5 := and_of_coBit _ hco
  unfold decodeCop0Co at h
  split at h <;> cases h
  all_goals
    rename_i hf
    refine ⟨hm.symm, by rw [hm, and_coMask, BitVec.and_comm, hrs, h10, hf]; rfl, ?_⟩
    simp [encode, rFormat_and_word, hrs, h10, hf]

theorem carries_of_decodeCop0 (h10 : opcodeOf w = 0x10#6) (h : decodeCop0 w = .ok i) : Carries w i := by
  cases hco : (rsOf w).getLsbD 4
  case true => exact carries_of_decodeCop0Co h10 hco (decodeCop0_co hco ▸ h)
  have hm : selectMask w = 0xFFE00000#32 := by rw [selectMask, h10, hco]; rfl
  rw [decodeCop0, coBit_eq, hco, if_neg Bool.false_ne_true] at h
  split at h <;> cases h
  all_goals
    rename_i hr
    refine ⟨hm.symm, by rw [hm, and_copMask, h10, hr]; rfl, ?_⟩
    simp [encode, rFormat_and_word, iFormat_and_word, ndTf_and_rtOf, h10, hr]

theorem carries_of_decode (h : decode w = .ok i) : Carries w i := by
  unfold decode at h
  split at h
  next h0 => exact carries_of_decodeSpecial h0 h
  next h1 => exact carries_of_decodeRegimm h1 h
  case h_17 h10 => exact carries_of_decodeCop0 h10 h
  case h_18 h11 => exact carries_of_decodeCop1 h11 h
  all_goals cases h
  all_goals
    rename_i hop
    have hm : selectMask w = 0xFC000000#32 := by rw [selectMask, hop]; rfl
    refine ⟨hm.symm, by rw [hm, and_primaryMask, hop]; rfl, ?_⟩
    simp [encode, iFormat_and_word, jFormat_and_word, hop]

end

/-- Settles O2: the word of an instruction carries its row too, and a word with the row's fixed bits agrees
with it in the bits that select the row. -/
theorem decodeFollowsTheTable : Obligations.DecodeFollowsTheTable := by
  unfold Obligations.DecodeFollowsTheTable
  refine ⟨fun w i h => ?_, fun w i h => ?_⟩
  · have hc := carries_of_decode h
    exact ⟨by rw [hc.mask, hc.pattern], hc.bits⟩
  · have hc := carries_of_decode (decode_encode i)
    have hrow : rowOf (decode w) = some i.row := by
      rw [rowOf_decode_congr (v := encode i) (by rw [hc.pattern, ← hc.mask, h]), decode_encode]; rfl
    exact exists_of_rowOf hrow

/-! ## Dispatch keys, R320, R321 -/

section
variable (w : BusWord)

theorem opcodeOf_dispatchKey : opcodeOf (dispatchKey w) = opcodeOf w := by
  unfold dispatchKey
  split
  · rw [and_specialMask, opcodeOf_rFormat]
  · split
    · rw [and_regimmMask, opcodeOf_iFormat]
    · rw [and_primaryMask, opcodeOf_iFormat]

/-- A key keeps the opcode, so it is taken under the mask it was made with. -/
theorem dispatchKey_dispatchKey : dispatchKey (dispatchKey w) = dispatchKey w := by
  have hop := opcodeOf_dispatchKey w
  rw [dispatchKey, hop]
  unfold dispatchKey
  split
  · rw [BitVec.and_assoc, BitVec.and_self]
  · split <;> rw [BitVec.and_assoc, BitVec.and_self]

theorem hasUnit_eq : hasUnit w = ((opcodeOf w).extractLsb' 2 4 == 0b0100#4) := by
  have h : w.extractLsb' 28 4 = (opcodeOf w).extractLsb' 2 4 := by
    apply BitVec.eq_of_getLsbD_eq; intro i hi
    simp only [opcodeOf, BitVec.getLsbD_extractLsb']; grind
  rw [hasUnit, h]

variable {w}

/-- Without a unit number the key is the bits that select the row. -/
theorem dispatchKey_eq (h : hasUnit w = false) : dispatchKey w = w &&& selectMask w := by
  have h10 : opcodeOf w ≠ 0x10#6 := fun he => by rw [hasUnit_eq, he] at h; cases h
  have h11 : opcodeOf w ≠ 0x11#6 := fun he => by rw [hasUnit_eq, he] at h; cases h
  unfold dispatchKey selectMask
  rw [if_neg h10, if_neg h11]
  split
  · rfl
  · split <;> rfl

theorem selectMask_congr {v : BusWord} (h : hasUnit w = false) (hop : opcodeOf v = opcodeOf w) :
    selectMask v = selectMask w := by
  have h10 : opcodeOf w ≠ 0x10#6 := fun he => by rw [hasUnit_eq, he] at h; cases h
  unfold selectMask
  rw [hop, if_neg h10, if_neg h10]

end

/-- Settles O3: words with one key have one opcode, and where it names no unit the key is the bits that
select the row. -/
theorem dispatchKeysAreCanonical : Obligations.DispatchKeysAreCanonical := by
  unfold Obligations.DispatchKeysAreCanonical
  refine ⟨by decide, by decide, by decide, dispatchKey_dispatchKey, fun w w' i hi hu hk => ?_⟩
  have hop : opcodeOf w' = opcodeOf w := by rw [← opcodeOf_dispatchKey, hk, opcodeOf_dispatchKey]
  have hu' : hasUnit w' = false := by rw [hasUnit_eq, hop, ← hasUnit_eq, hu]
  rw [dispatchKey_eq hu, dispatchKey_eq hu', selectMask_congr hu hop] at hk
  apply exists_of_rowOf
  rw [rowOf_decode_congr hk, hi]; rfl

/-! ## The words of the spec -/

/-- Settles O4: the decoder evaluates each word. -/
theorem sampleWordsDecode : Obligations.SampleWordsDecode := by
  unfold Obligations.SampleWordsDecode
  exact ⟨rfl, rfl, rfl, rfl, rfl, rfl, rfl, rfl, rfl, rfl, rfl, rfl, rfl, rfl, rfl, rfl, rfl, rfl, rfl, rfl⟩

end Sys2Proof
end

section
/-! The statements over a whole step (spec/40_engine.md R401 to R410). A step that takes no interrupt fetches a
word and executes it; the fetch stops it, or the word has a handler and is an instruction, or it takes the path
of R410. What the step leaves is read off these three. -/

namespace Sys2Proof.Machine

open State

/-! ## Words without a handler, R410, R420 -/

section
variable {s : State} {w : BusWord}

theorem noHandler_eq (hw : s.word = w) : noHandler w s = .next (
    if hasUnit w = true ∧ usable s (unitOf w) = false then raised (.cpu (unitOf w)) s
    else (raised .ri s).signal s.cur w) := by
  have hri : reservedInstruction s = .next ((raised .ri s).signal s.cur w) := by rw [← hw]; rfl
  unfold noHandler
  cases hasUnit w
  · exact hri
  · cases hu : usable s (unitOf w)
    · exact copGate_unusable hu
    · exact (copGate_usable hu).trans hri

theorem execute_of_error {e : DecodeError} (h : decode w = .error e) : execute w s = noHandler w s := by
  rw [execute, h]

theorem execute_of_leftOut {i : Instr} (h : decode w = .ok i) (hi : implemented s.params i.row = false) :
    execute w s = noHandler w s := by
  rw [execute, h]; exact if_neg (hi ▸ Bool.false_ne_true)

theorem execute_of_implemented {i : Instr} (h : decode w = .ok i)
    (hi : implemented s.params i.row = true) : execute w s = exec i s := by
  rw [execute, h]; exact if_pos hi

theorem implemented_leftOut {p : Params} {r : OpcodeRow} (hc : r.cls = .family ∨ r.cls = .gk)
    (hl : r.pattern ∈ p.leftOut) : implemented p r = false := by
  rcases hc with hc | hc <;> simp [implemented, hc, hl]

end

/-- Settles O5: both kinds of word take the path of a word that has no handler. -/
theorem wordsWithoutHandler : Obligations.WordsWithoutHandler := by
  unfold Obligations.WordsWithoutHandler
  rintro w s hw (⟨e, he⟩ | ⟨i, hi, hcls, hl⟩)
  · rw [execute_of_error he, noHandler_eq hw]
  · rw [execute_of_leftOut hi (implemented_leftOut hcls hl), noHandler_eq hw]

/-! ## A fetch that stops the machine, R260 -/

/-- An aligned fetch inside the segments stops as its bus transaction does. -/
theorem fetch_stop {s : State} {va : Addr} {o : Stop} (hs : inSegment va = true) (ha : va.toNat % 4 = 0)
    (h : readStop s.params.busMap (physical va).toNat = some o) : fetch s va = o.outcome := by
  rw [fetch, checkAligned_ok ha, translate_inSegment hs, andThen_next, busRead_stop h]

section
variable {t : BusTable} {p a : Nat} {e : MapEntry}

theorem readStop_of_error (h : findEntry t p = .error a) :
    readStop t p = some (.fault (.unmappedAddress a)) := by
  rw [readStop, h]

theorem readStop_of_not_readable (h : findEntry t p = .ok (e, a)) (hr : e.readable = false) :
    readStop t p = some (.fault (.noReadHandler a)) := by
  rw [readStop, h]; exact if_pos hr

theorem readStop_of_device {id : Nat} (h : findEntry t p = .ok (e, a)) (hr : e.readable = true)
    (hb : e.backing = .device id) :
    readStop t p = some (.refused (.deviceRead id (handed e.range a))) := by
  rw [readStop, h]
  simp only [hr, hb, Bool.true_eq_false, if_false]
  rfl

end

theorem step_of_fetch {s : State} {o : Stop} (hp : hasPendingInterrupt (incrementCounter s) = false)
    (h : fetch (incrementCounter s) (fetchAddress s) = o.outcome) : step s = o.outcome := by
  rw [step_eq_run hp, h, andThen_outcome]

/-- Settles O7: the fetch stops at its alignment check, at its translation or in its bus transaction, and the
step with it. -/
theorem fetchFaults : Obligations.FetchFaults := by
  unfold Obligations.FetchFaults
  intro s hp va found
  have hbus (o : Stop) (ha : va.toNat % 4 = 0) (hs : inSegment va = true)
      (h : readStop s.params.busMap (physical va).toNat = some o) : step s = o.outcome :=
    step_of_fetch hp (fetch_stop hs ha (by rwa [params_incrementCounter]))
  refine ⟨fun ha => ?misaligned, fun ha hs => ?outside, fun a ha hs hf => ?unmapped,
    fun e a ha hs hf => ⟨fun hr => ?noRead, fun id hr hb => ?device⟩⟩
  case misaligned => exact step_of_fetch (o := .fault _) hp (checkAligned_fault ha)
  case outside => exact step_of_fetch (o := .fault _) hp (access_outside _ hs ha)
  case unmapped => exact hbus (.fault _) ha hs (readStop_of_error hf)
  case noRead => exact hbus (.fault _) ha hs (readStop_of_not_readable hf hr)
  case device => exact hbus (.refused _) ha hs (readStop_of_device hf hr hb)

/-! ## What every step keeps, R18, R140, R400, R402 -/

theorem ended_normal (s : State) : ended false s = (s.setX 0 0).setWord 0 := by
  rw [ended, setX_setX, if_neg Bool.false_ne_true]

theorem ended_slot (s : State) : ended true s = ((s.setDs none).setX 0 0).setWord 0 := by
  rw [ended, setX_setX, if_pos rfl]

/-- Settles O9: an interrupt's entry clears the marker, and so does the end of a step that ran a delay slot. -/
theorem everyStepKeeps : Obligations.EveryStepKeeps := by
  unfold Obligations.EveryStepKeeps
  intro s t h
  have hk : Keeps s t := keeps_step h
  refine ⟨fun hd => ?_, hk.params, hk.runStatus, hk.f, hk.signals⟩
  rcases step_next h with ⟨-, rfl⟩ | ⟨-, w, u, -, -, rfl⟩
  · rw [takeInterrupt_enters]; rfl
  · rw [hd]; rfl

/-- Settles O10: no part of a step breaks the form of memory or of the signal set, and its end writes `x[0]` and
the latch. -/
theorem stepKeepsInvariant : Obligations.StepKeepsInvariant := by
  unfold Obligations.StepKeepsInvariant
  intro s t hi h
  have hk : Keeps s t := keeps_step h
  refine ⟨hk.memory hi.memory, zeroAfterEveryCycle s t h, ?latch, hk.nodup hi.signals⟩
  case latch => rcases step_next h with ⟨-, rfl⟩ | ⟨-, w, u, -, -, rfl⟩ <;> rfl

/-! ## The state after reset, R1302 -/

/-- Settles O11: the state is a literal, and its Status has ERL set and IE clear whatever Cause holds. -/
theorem resetState : Obligations.ResetState := by
  unfold Obligations.ResetState
  refine ⟨⟨rfl, rfl, rfl, List.nodup_nil⟩, by decide, fun v => ?masked⟩
  case masked =>
    have hs : (State.reset.setC0 Cp0.cause v).status = 0x00400004 := c0_setC0_ne _ _ _ _ (by decide)
    constructor
    · rw [effectiveMode, hs]; rfl
    · rw [hasPendingInterrupt, hs]; rfl

/-! ## The counter, R1260 -/

theorem toNat_zext64 (v : BitVec 32) : (zext64 v).toNat = v.toNat := BitVec.toNat_setWidth_of_le (by decide)

theorem toNat_count_incrementCounter (s : State) :
    ((incrementCounter s).c0 9).toNat = ((s.c0 9).toNat % 2 ^ 32 + 1) % 2 ^ 32 := by
  rw [count_incrementCounter, toNat_zext64, BitVec.toNat_add, toNat_lo32]; rfl

/-- Settles O13: the comparison of the low words is that of the numbers, and the counter writes Count and Cause
alone. -/
theorem counterRule : Obligations.CounterRule := by
  unfold Obligations.CounterRule
  intro s t
  have hmatch : (lo32 (s.c0 9) + 1 == lo32 (s.c0 11)) = ((t.c0 9).toNat == (s.c0 11).toNat % 2 ^ 32) := by
    rw [count_incrementCounter, toNat_zext64, ← toNat_lo32, Bool.eq_iff_iff, beq_iff_eq, beq_iff_eq,
      BitVec.toNat_inj]
  refine ⟨toNat_count_incrementCounter s, fun k => ?bits, ?frame⟩
  case bits => rw [getLsbD_cause_incrementCounter, hmatch]
  case frame =>
    obtain ⟨c, hc⟩ := incrementCounter_eq s
    have hcount : t.c0 9 = zext64 (lo32 (s.c0 9) + 1) := count_incrementCounter s
    have hcause : t.cause = c := (congrArg State.cause hc).trans (c0_setC0_self _ _ _)
    rw [hcount, hcause]
    exact hc

/-! ## CP0 under an instruction, R116, R1212, R1271 -/

section
variable {i : Instr} {s t : State}

/-- A move to CP0 writes only where CP0 is usable; every other instruction writes of CP0 only these. -/
theorem c0_of_exec (h : exec i s = .next t) (hi : isMoveToC0 i = false ∨ usable s 0 = false) {n : RegIdx}
    (h8 : n ≠ 8) (h12 : n ≠ 12) (h13 : n ≠ 13) (h14 : n ≠ 14) (h17 : n ≠ 17) : t.c0 n = s.c0 n := by
  have hno (hm : isMoveToC0 i = true) (hu : usable s 0 = true) : False :=
    hi.elim (fun hi => Bool.false_ne_true (hi.symm.trans hm)) fun hi => Bool.false_ne_true (hi.symm.trans hu)
  cases exec_effect h with
  | exception | floatingPoint => exact c0_enterException_frame _ _ _ _ h8 h12 h13 h14
  | reserved => exact (c0_signal ..).trans (c0_enterException_frame _ _ _ _ h8 h12 h13 h14)
  | linked => exact c0_setC0_ne _ _ _ _ h17
  | exceptionReturn => exact c0_setC0_ne (s.setPc _) _ _ _ h12
  | moveToC0 n v hm hu => exact (hno hm hu).elim
  | moveToCompare v c hm hu => exact (hno hm hu).elim
  | _ => rfl

/-- Where CP0 can not be used, Status changes by an exception entry at most. -/
theorem getLsbD_status_of_exec (h : exec i s = .next t) (hu : usable s 0 = false) {k : Nat} (hk : k ≠ 1) :
    t.status.getLsbD k = s.status.getLsbD k := by
  have hentry (e : ExcCode) (u : State) : (raised e u).status.getLsbD k = u.status.getLsbD k := by
    rw [raised, getLsbD_status_enterException, beq_eq_false_iff_ne.2 hk, Bool.false_or]
  cases exec_effect h with
  | exception e => exact hentry e s
  | reserved => exact (congrArg (·.getLsbD k) (c0_signal (raised .ri s) _ _ 12)).trans (hentry .ri s)
  | floatingPoint rt v => exact hentry .fpe (s.setFcr31 v)
  | linked => exact congrArg (·.getLsbD k) (c0_setC0_ne _ 17 12 _ (by decide))
  | moveToC0 n v hm hu' => exact absurd (hu.symm.trans hu') Bool.false_ne_true
  | moveToCompare v c hm hu' => exact absurd (hu.symm.trans hu') Bool.false_ne_true
  | exceptionReturn a v hi hu' => exact absurd (hu.symm.trans hu') Bool.false_ne_true
  | _ => rfl

end

/-- Settles O60: among the effects only the moves to CP0 and ERET write further, where CP0 is usable. -/
theorem cp0Isolation : Obligations.Cp0Isolation := by
  unfold Obligations.Cp0Isolation
  intro i s t h hor
  have hlock : (cp0Locked s = true) = (usable s 0 = false) := Bool.not_eq_true' _
  rw [hlock] at hor ⊢
  exact ⟨fun n => c0_of_exec h hor, fun hu k => getLsbD_status_of_exec h hu⟩

/-- Settles O21: the other effects write no register of CP0 but LLAddr. -/
theorem preciseExceptions : Obligations.PreciseExceptions := by
  unfold Obligations.PreciseExceptions
  intro i s t h hi he
  cases exec_effect h with
  | exception e => exact .inl ⟨e, rfl⟩
  | reserved => exact .inr (.inl rfl)
  | floatingPoint rt v hc => exact .inr (.inr (.inl ⟨rt, v, hc, rfl⟩))
  | moveToC0 n v hm => exact absurd (hi.symm.trans hm) Bool.false_ne_true
  | moveToCompare v c hm => exact absurd (hi.symm.trans hm) Bool.false_ne_true
  | exceptionReturn a v hr => exact absurd hr he
  | linked =>
    exact .inr (.inr (.inr ⟨c0_setC0_ne _ 17 12 _ (by decide), c0_setC0_ne _ 17 13 _ (by decide),
      c0_setC0_ne _ 17 14 _ (by decide), c0_setC0_ne _ 17 8 _ (by decide)⟩))
  | _ => exact .inr (.inr (.inr ⟨rfl, rfl, rfl, rfl⟩))

/-! ## Count over a step, R1352 -/

theorem c0_writeC0_ne {rd n : RegIdx} (v : Word) (s : State) (hn : n ≠ rd) (h13 : n ≠ 13) :
    (writeC0 rd v s).c0 n = s.c0 n := by
  unfold writeC0 causeWrite compareWrite
  split
  · exact c0_setC0_ne _ _ _ _ h13
  split
  · next h11 => rw [c0_setC0_ne _ _ _ _ h13]; exact c0_setC0_ne _ _ _ _ (h11 ▸ hn)
  · exact c0_setC0_ne _ _ _ _ hn

theorem isMoveToC0_iff {i : Instr} : isMoveToC0 i = true ↔ ∃ rt rd, i = .mtc0 rt rd ∨ i = .dmtc0 rt rd := by
  constructor
  · intro h
    cases i
    case mtc0 rt rd => exact ⟨rt, rd, .inl rfl⟩
    case dmtc0 rt rd => exact ⟨rt, rd, .inr rfl⟩
    all_goals cases h
  · rintro ⟨rt, rd, rfl | rfl⟩ <;> rfl

/-- A move to another register than Count keeps it. -/
theorem count_of_move {i : Instr} {s t : State} {rt rd : RegIdx} (hi : i = .mtc0 rt rd ∨ i = .dmtc0 rt rd)
    (hrd : rd ≠ 9) (hu : usable s 0 = true) (h : exec i s = .next t) : t.c0 9 = s.c0 9 := by
  have hw (v : Word) : (writeC0 rd v s).c0 9 = s.c0 9 := c0_writeC0_ne v s hrd.symm (by decide)
  rcases hi with rfl | rfl
  all_goals
    cases (copGate_usable hu).symm.trans h
    exact hw _

/-- What Execute can do: run an instruction whose row is dispatched, or take the path of a word with no
handler. -/
theorem execute_cases {w : BusWord} {s t : State} (h : execute w s = .next t) :
    (∃ i, decode w = .ok i ∧ implemented s.params i.row = true ∧ exec i s = .next t) ∨
      (∃ z, t = raised (.cpu z) s) ∨ t = reservedEntry s := by
  cases hd : decode w with
  | error e => exact .inr (noHandler_next (execute_of_error hd ▸ h))
  | ok i =>
    cases hi : implemented s.params i.row
    · exact .inr (noHandler_next (execute_of_leftOut hd hi ▸ h))
    · exact .inl ⟨i, rfl, hi, execute_of_implemented hd hi ▸ h⟩

@[simp] theorem c0_begun (w : BusWord) (s : State) (n : RegIdx) : (begun w s).c0 n = s.c0 n := by
  unfold begun; split <;> rfl
@[simp] theorem status_begun (w : BusWord) (s : State) : (begun w s).status = s.status := c0_begun w s 12
@[simp] theorem params_begun (w : BusWord) (s : State) : (begun w s).params = s.params := by
  unfold begun; split <;> rfl
theorem c0_ended (slot : Bool) (s : State) (n : RegIdx) : (ended slot s).c0 n = s.c0 n := by
  cases slot <;> rfl

theorem usable_congr {s t : State} (h : t.status = s.status) (z : BitVec 2) : usable t z = usable s z := by
  simp only [usable, kernelMode, effectiveMode, h]

/-- A word that is no dispatched move to Count, or whose CP0 can not be used, keeps Count. -/
theorem count_of_execute {w : BusWord} {s t : State} (h : execute w s = .next t)
    (hw : usable s 0 = true → ∀ rt, decode w ≠ .ok (.mtc0 rt 9) ∧
      (decode w = .ok (.dmtc0 rt 9) → implemented s.params (Instr.dmtc0 rt 9).row = false)) :
    t.c0 9 = s.c0 9 := by
  have hentry (e : ExcCode) : (raised e s).c0 9 = s.c0 9 :=
    c0_enterException_frame _ _ _ _ (by decide) (by decide) (by decide) (by decide)
  rcases execute_cases h with ⟨i, hd, hi, hx⟩ | ⟨z, rfl⟩ | rfl
  · by_cases hq : isMoveToC0 i = false ∨ usable s 0 = false
    · exact c0_of_exec hx hq (by decide) (by decide) (by decide) (by decide) (by decide)
    · rw [not_or, Bool.not_eq_false, Bool.not_eq_false] at hq
      obtain ⟨hm, hu⟩ := hq
      obtain ⟨rt, rd, hrd⟩ := isMoveToC0_iff.1 hm
      refine count_of_move hrd ?_ hu hx
      rintro rfl
      obtain ⟨hne, hout⟩ := hw hu rt
      rcases hrd with rfl | rfl
      · exact hne hd
      · exact Bool.false_ne_true ((hout hd).symm.trans hi)
  · exact hentry _
  · exact (c0_signal ..).trans (hentry _)

/-- Settles O14: the counter advances Count, and nothing after it in the step writes Count. -/
theorem countAdvancesEveryCycle : Obligations.CountAdvancesEveryCycle := by
  unfold Obligations.CountAdvancesEveryCycle
  intro s t h hmove
  have hcount : t.c0 9 = (incrementCounter s).c0 9 := by
    rcases step_next h with ⟨-, rfl⟩ | ⟨hp, w, u, hf, hx, rfl⟩
    · rw [takeInterrupt_enters]
      exact c0_enterException_frame _ _ _ _ (by decide) (by decide) (by decide) (by decide)
    · rw [c0_ended, count_of_execute hx, c0_begun]
      intro hu rt
      rw [usable_congr ((status_begun ..).trans (status_incrementCounter s))] at hu
      rw [params_begun, params_incrementCounter]
      exact hmove hp hu w rt hf
  rw [hcount, toNat_count_incrementCounter]

/-! ## Exceptions in a delay slot, R1221 -/

theorem cur_begun (w : BusWord) (s : State) : (begun w s).cur = fetchAddress s := by
  unfold begun fetchAddress State.cur
  cases hd : s.ds with
  | none => simp only [beginNormal, ds_setPc, ds_setWord, hd, pc_setPc, BitVec.add_sub_cancel]
  | some a => simp only [beginDelaySlot, ds_setWord, hd]

theorem inDS_begun (w : BusWord) (s : State) : (begun w s).inDS = s.ds.isSome := by
  unfold begun; split <;> rfl

/-- An entry with a signal, or after a write of FCR31, leaves CP0 as the entry alone does. -/
theorem c0_entered {m u : State} (h : (∃ e, u = raised e m) ∨ u = reservedEntry m ∨
    ∃ v, u = raised .fpe (m.setFcr31 v)) : ∃ e, ∀ n, u.c0 n = (raised e m).c0 n := by
  rcases h with ⟨e, rfl⟩ | rfl | ⟨v, rfl⟩
  · exact ⟨e, fun _ => rfl⟩
  · exact ⟨.ri, fun n => c0_signal _ _ _ n⟩
  · exact ⟨.fpe, fun n => by rw [raised, raised, c0_enterException, c0_enterException]; rfl⟩

/-- Settles O19: the word runs at the address it was fetched from, in a delay slot when a marker was pending,
and the end of the step keeps CP0. -/
theorem delaySlotException : Obligations.DelaySlotException := by
  unfold Obligations.DelaySlotException
  intro s t u w c m h hp hexl hf hx hentry
  have hm : m = begun w c := by
    have hds : c.ds = s.ds := ds_incrementCounter s
    cases hd : s.ds
    all_goals simp only [m, begun, hds, hd]
  have ht : t = ended s.ds.isSome u := by
    rw [step_eq_run hp, hf, andThen_next, ← hm, hx] at h
    cases h; rfl
  have hcur : m.cur = fetchAddress s := by rw [hm, cur_begun, fetchAddress_incrementCounter]
  have hslot : m.inDS = s.ds.isSome := by rw [hm, inDS_begun, ds_incrementCounter]
  have hst : m.status.getLsbD 1 = false := by rw [hm, status_begun, status_incrementCounter, hexl]
  obtain ⟨e, he⟩ := c0_entered hentry
  have hc (n : RegIdx) : t.c0 n = (raised e m).c0 n := by rw [ht, c0_ended, he]
  obtain ⟨hbad, -, -, -, hreturn⟩ := raised_entry e m
  obtain ⟨hbd, hepc⟩ := hreturn hst
  rw [hslot] at hbd hepc
  rw [hcur] at hbad hepc
  exact ⟨(hc 8).trans hbad, (congrArg CauseReg.bd (hc 13)).trans hbd,
    ((hc 14).trans hepc).trans (returnAddress_eq s)⟩

/-! ## The step of a decoded instruction, R403, R410 -/

theorem fetch_memory {s : State} {va : Addr} {base a : Nat} (hs : inSegment va = true)
    (ha : va.toNat % 4 = 0)
    (h : readPort s.params.busMap (physical va).toNat = .next (.memory base, a)) :
    fetch s va = .next (Memory.readWord s.mem (base + a)) := by
  rw [fetch, checkAligned_ok ha, translate_inSegment hs, andThen_next, busRead, h, andThen_next]

theorem decode_of_decodeBytes {b0 b1 b2 b3 : Byte} {i : Instr}
    (h : decodeBytes [b0, b1, b2, b3] = .ok (i, [])) : decode (wordOfBytes b0 b1 b2 b3) = .ok i := by
  cases hd : decode (wordOfBytes b0 b1 b2 b3) with
  | error e => simp only [decodeBytes, hd, reduceCtorEq] at h
  | ok j =>
    simp only [decodeBytes, hd, Except.ok.injEq, Prod.mk.injEq, and_true] at h
    rw [h]

/-- Settles O6: the fetch reads the four bytes as a word, Execute runs what it decodes to, and the beginning
and the end of the step depend on the marker. -/
theorem stepRunsDecodedInstruction : Obligations.StepRunsDecodedInstruction := by
  unfold Obligations.StepRunsDecodedInstruction
  intro s base a i t c w hp ha hs hport hbytes himp
  have hf : fetch t (fetchAddress s) = .next w := by
    rw [fetch_memory hs ha (by rwa [params_incrementCounter]), mem_incrementCounter]; rfl
  have hx : execute w (begun w t) = exec i (begun w t) :=
    execute_of_implemented (decode_of_decodeBytes hbytes)
      (by rwa [params_begun, params_incrementCounter])
  have hstep : step s = andThen (exec i (begun w t)) fun u => .next (ended s.ds.isSome u) := by
    rw [step_eq_run hp, hf, andThen_next, hx]
  have hds : t.ds = s.ds := ds_incrementCounter s
  refine ⟨fun hd => ?_, fun hd => ?_⟩
  · have hb : begun w t = (t.setWord w).setPc (s.pc + 4) := by
      rw [begun, hds, hd]
      show beginNormal w t = _
      rw [beginNormal, pc_incrementCounter]
    simp only [hstep, hb, hd, Option.isSome_none, ended_normal]
  · obtain ⟨b, hb⟩ := Option.isSome_iff_exists.1 hd
    have hb' : begun w t = t.setWord w := by rw [begun, hds, hb]; rfl
    simp only [hstep, hb', hd, ended_slot]

end Sys2Proof.Machine
end

section
/-! The branch and jump statements (spec/43_branch_jump.md). Outside a delay slot the checks pass, so a branch
is decided by its condition alone, and a linking branch is a branch of the linked state. -/

namespace Sys2Proof.Machine

open State

/-! ## Branches, R710 to R717, R740 to R747 -/

/-- Settles O32: each plain branch decides its comparison on the values. -/
theorem plainBranches : Obligations.PlainBranches := by
  unfold Obligations.PlainBranches
  intro s rs rt imm hd a law
  exact ⟨branch_eq hd _ _ imm beq_iff_eq, branch_eq hd _ _ imm bne_iff_ne,
    branch_eq hd _ _ imm decide_eq_true_iff, branch_eq hd _ _ imm decide_eq_true_iff,
    branch_eq hd _ _ imm decide_eq_true_iff, branch_eq hd _ _ imm decide_eq_true_iff⟩

/-- Settles O33: each branch-likely decides the comparison of its plain form. -/
theorem likelyBranches : Obligations.LikelyBranches := by
  unfold Obligations.LikelyBranches
  intro s rs rt imm hd a law
  exact ⟨branchLikely_eq hd _ _ imm beq_iff_eq, branchLikely_eq hd _ _ imm bne_iff_ne,
    branchLikely_eq hd _ _ imm decide_eq_true_iff, branchLikely_eq hd _ _ imm decide_eq_true_iff,
    branchLikely_eq hd _ _ imm decide_eq_true_iff, branchLikely_eq hd _ _ imm decide_eq_true_iff⟩

/-- R744 to R747: the checks of a linking branch outside a delay slot pass as those of a branch in the
linked state do. -/
theorem linkCheck_link {s : State} {rs : RegIdx} (hd : s.ds = none) (hrs : rs ≠ 31) (f : State → State) :
    linkCheck (rs == 31) s (.next (f (link 31 s))) =
      ctiCheck (s.setX 31 (s.cur + 8)) (.next (f (s.setX 31 (s.cur + 8)))) := by
  rw [linkCheck_ok hd (beq_eq_false_iff_ne.2 hrs), ctiCheck_ok (s := s.setX 31 (s.cur + 8)) hd,
    link_eq hd]

/-- Settles O34: in the linked state a linking branch is the plain or the likely branch of its condition. -/
theorem linkingBranches : Obligations.LinkingBranches := by
  unfold Obligations.LinkingBranches
  intro s rs imm hd hrs a linked law
  have hlink (f : State → State) :
      linkCheck (rs == 31) s (.next (f (link 31 s))) = ctiCheck linked (.next (f linked)) :=
    linkCheck_link hd hrs f
  have hplain (i : Instr) (c : Bool) (p : Prop) (hp : c = true ↔ p)
      (hi : exec i s = linkCheck (rs == 31) s (.next (branch c imm (link 31 s)))) : law i p linked := by
    have h := branch_eq (s := linked) hd c p imm hp
    rwa [← hlink (branch c imm), ← hi] at h
  have hlikely (i : Instr) (c : Bool) (p : Prop) (hp : c = true ↔ p)
      (hi : exec i s = linkCheck (rs == 31) s (.next (branchLikely c imm (link 31 s)))) :
      law i p (linked.setPc (s.cur + 8)) := by
    have h := branchLikely_eq (s := linked) hd c p imm hp
    rwa [← hlink (branchLikely c imm), ← hi] at h
  exact ⟨hplain _ _ _ decide_eq_true_iff rfl, hplain _ _ _ decide_eq_true_iff rfl,
    hlikely _ _ _ decide_eq_true_iff rfl, hlikely _ _ _ decide_eq_true_iff rfl⟩

/-! ## Jumps, R720 to R723 -/

theorem transfer_eq {s t : State} (hd : s.ds = none) (ht : t.pc = s.pc) (a : Addr) :
    transfer a t = (t.setDs (some (s.cur + 4))).setPc a := by
  rw [transfer, ht, cur_add_four hd]

/-- Settles O35: the delay slot is at `pc`, whose region holds the target of J and JAL; the target of JALR is
read before its link is written. -/
theorem jumps : Obligations.Jumps := by
  unfold Obligations.Jumps
  intro s rs rd target hd slot region go
  have hregion : jumpTarget s.pc target = region := by rw [jumpTarget_eq, ← cur_add_four hd]
  have hgo (t : State) (a : Addr) (ht : t.pc = s.pc) : transfer a t = go t a := transfer_eq hd ht a
  have hlink (r : RegIdx) (a : Addr) : transfer a (link r s) = go (s.setX r (s.cur + 8)) a := by
    rw [hgo (link r s) a rfl, link_eq hd]
  refine ⟨?j, ?jal, ?jr, fun hne => ?jalr⟩
  case j => exact (ctiCheck_ok hd).trans (by rw [hregion, hgo s region rfl])
  case jal => exact (ctiCheck_ok hd).trans (by rw [hregion, hlink])
  case jr => exact (ctiCheck_ok hd).trans (by rw [hgo s (s.x rs) rfl])
  case jalr => exact (linkCheck_ok hd (beq_eq_false_iff_ne.2 hne)).trans (by rw [hlink])

end Sys2Proof.Machine
end

section
/-! The statements about sized accesses of plain memory (spec/44_load_store.md) and about the lookup in
BUS_MAP (spec/20_memory.md R230 to R234). -/

namespace Sys2Proof.Machine

/-! ## Sized loads, R810 to R816 -/

/-- Settles O37: each load extends the value its sized read answers, which fits the width. -/
theorem sizedLoads : Obligations.SizedLoads := by
  unfold Obligations.SizedLoads
  intro s base rt off
  rw [← effAddr_eq s base off]
  intro va law v hr
  have hlt (n : Nat) : guestValue s va n < 2 ^ (8 * n) := guestValue_lt s va n
  have hload {k : Nat} {i : Instr} {r : Access (BitVec k)} {b : BitVec k} {value : Int}
      (f : BitVec k → Word) (hi : exec i s = andThen r fun v => .next (s.setX rt (f v)))
      (hr : r = .next b) (hf : f b = BitVec.ofInt 64 value) : law i value :=
    (hi.trans (andThen_of_next hr)).trans (by rw [hf])
  refine ⟨⟨?lb, ?lbu⟩, fun ha => ⟨?lh, ?lhu⟩, fun ha => ⟨?lw, ?lwu⟩, fun ha hr4 => ?ld⟩
  case lb => exact hload sext64 rfl (memRead8_eq hr) (sext64_ofNat 8 (by decide) _)
  case lbu => exact hload zext64 rfl (memRead8_eq hr) (zext64_ofNat 8 (by decide) _ (hlt 1))
  case lh => exact hload sext64 rfl (memRead16_eq hr ha) (sext64_ofNat 16 (by decide) _)
  case lhu => exact hload zext64 rfl (memRead16_eq hr ha) (zext64_ofNat 16 (by decide) _ (hlt 2))
  case lw => exact hload sext64 rfl (memRead32_eq hr ha) (sext64_ofNat 32 (by decide) _)
  case lwu => exact hload zext64 rfl (memRead32_eq hr ha) (zext64_ofNat 32 (by decide) _ (hlt 4))
  case ld => exact hload id rfl (memRead64_eq hr hr4 ha) (BitVec.ofInt_natCast ..).symm

/-! ## Sized stores, R820 to R823 -/

/-- Settles O38: each sized write leaves its value at its address, and its frame is that of every
instruction. -/
theorem sizedStores : Obligations.SizedStores := by
  unfold Obligations.SizedStores
  intro s base rt off hwf
  rw [← effAddr_eq s base off]
  intro va law hw
  have hstore {i : Instr} {n : Nat} {m : List Host.Cell} (he : exec i s = .next (s.setMem m))
      (hv : guestValue (s.setMem m) va n = (s.x rt).toNat % 2 ^ (8 * n)) : law i n :=
    ⟨m, he, hv, read_of_exec hwf he⟩
  have hlow (k : Nat) : ((s.x rt).setWidth k).toNat = (s.x rt).toNat % 2 ^ k := BitVec.toNat_setWidth ..
  refine ⟨fun hr => ⟨?sb, fun ha => ?sh⟩, fun ha => ?sw, fun ha hw4 hap => ?sd⟩
  case sb =>
    obtain ⟨t, ht⟩ := memWriteSub_answers ((s.x rt).setWidth 8) hr hw (Nat.mod_one _)
    obtain ⟨m, rfl, -⟩ := memWriteSub_next ht
    exact hstore ht ((memWrite8_value hwf ht).trans (hlow 8))
  case sh =>
    obtain ⟨t, ht⟩ := memWriteSub_answers ((s.x rt).setWidth 16) hr hw ha
    obtain ⟨m, rfl, -⟩ := memWriteSub_next ht
    exact hstore ht ((memWrite16_value hwf ht).trans (hlow 16))
  case sw =>
    obtain ⟨t, ht⟩ := memWrite32_answers ((s.x rt).setWidth 32) hw ha
    obtain ⟨m, rfl, -⟩ := memWrite32_next ht
    exact hstore ht ((memWrite32_value hwf ht).trans (hlow 32))
  case sd =>
    obtain ⟨t, ht⟩ := memWrite64_answers (s.x rt) hw hw4 ha
    obtain ⟨m, rfl, -⟩ := memWrite64_next ht
    exact hstore ht ((memWrite64_value hwf hap ht).trans (Nat.mod_eq_of_lt (s.x rt).isLt).symm)

/-! ## The lookup in BUS_MAP, R230 to R234 -/

section
variable {t : BusTable} {a : Nat}

theorem inRange_iff {r : MapRange} : inRange r a = true ↔ r.start ≤ a ∧ a ≤ r.stop := by
  rw [inRange, Bool.and_eq_true, decide_eq_true_iff, decide_eq_true_iff]

/-- An address of one range is in none that shares no address with it. -/
theorem not_inRange_of_disjoint {r q : MapRange} (h : r.disjoint q = true) (hq : inRange q a = true) :
    ¬ inRange r a = true := by
  rw [MapRange.disjoint, Bool.or_eq_true, decide_eq_true_iff, decide_eq_true_iff] at h
  rw [inRange_iff] at hq ⊢
  omega

theorem range_mem_ranges {e : MapEntry} (h : e ∈ t.entries) : e.range ∈ t.ranges := by
  induction t with
  | empty => cases h
  | entry e' rest ih =>
    rcases List.mem_cons.1 h with rfl | h
    · exact List.mem_cons_self
    · exact List.mem_cons_of_mem _ (ih h)
  | forward r sub rest _ ih => exact List.mem_cons_of_mem _ (ih h)

theorem forward_mem_ranges {r : MapRange} {sub : BusTable} (h : (r, sub) ∈ t.forwards) : r ∈ t.ranges := by
  induction t with
  | empty => cases h
  | entry e' rest ih => exact List.mem_cons_of_mem _ (ih h)
  | forward r' sub' rest _ ih =>
    rcases List.mem_cons.1 h with h | h
    · cases h; exact List.mem_cons_self
    · exact List.mem_cons_of_mem _ (ih h)

/-! Under a table without overlaps, an address of a later range passes by the first entry. -/

theorem findEntry_skip_entry {e : MapEntry} {q : MapRange} (hwf : (BusTable.entry e t).wf = true)
    (hq : q ∈ t.ranges) (ha : inRange q a = true) :
    t.wf = true ∧ findEntry (.entry e t) a = findEntry t a := by
  simp only [BusTable.wf, Bool.and_eq_true, List.all_eq_true] at hwf
  obtain ⟨⟨-, hdis⟩, hrest⟩ := hwf
  exact ⟨hrest, if_neg (not_inRange_of_disjoint (hdis q hq) ha)⟩

theorem findEntry_skip_forward {r q : MapRange} {sub : BusTable}
    (hwf : (BusTable.forward r sub t).wf = true) (hq : q ∈ t.ranges) (ha : inRange q a = true) :
    t.wf = true ∧ findEntry (.forward r sub t) a = findEntry t a := by
  simp only [BusTable.wf, Bool.and_eq_true, List.all_eq_true] at hwf
  obtain ⟨⟨⟨-, hdis⟩, -⟩, hrest⟩ := hwf
  exact ⟨hrest, if_neg (not_inRange_of_disjoint (hdis q hq) ha)⟩

theorem findEntry_of_mem_entries (hwf : t.wf = true) {e : MapEntry} (he : e ∈ t.entries)
    (ha : inRange e.range a = true) : findEntry t a = .ok (e, a) := by
  induction t with
  | empty => cases he
  | entry e' rest ih =>
    rcases List.mem_cons.1 he with rfl | he
    · exact if_pos ha
    · obtain ⟨hrest, hskip⟩ := findEntry_skip_entry hwf (range_mem_ranges he) ha
      exact hskip.trans (ih hrest he)
  | forward r sub rest _ ih =>
    obtain ⟨hrest, hskip⟩ := findEntry_skip_forward hwf (range_mem_ranges he) ha
    exact hskip.trans (ih hrest he)

theorem findEntry_of_mem_forwards (hwf : t.wf = true) {r : MapRange} {sub : BusTable}
    (h : (r, sub) ∈ t.forwards) (ha : inRange r a = true) :
    findEntry t a = findEntry sub (handed r a) := by
  induction t with
  | empty => cases h
  | entry e rest ih =>
    obtain ⟨hrest, hskip⟩ := findEntry_skip_entry hwf (forward_mem_ranges h) ha
    exact hskip.trans (ih hrest h)
  | forward r' sub' rest _ ih =>
    rcases List.mem_cons.1 h with h | h
    · cases h; exact if_pos ha
    · obtain ⟨hrest, hskip⟩ := findEntry_skip_forward hwf (forward_mem_ranges h) ha
      exact hskip.trans (ih hrest h)

theorem findEntry_of_not_inRange (h : ∀ r, r ∈ t.ranges → ¬ inRange r a = true) : findEntry t a = .error a := by
  induction t with
  | empty => rfl
  | entry e' rest ih =>
    exact (if_neg (h _ List.mem_cons_self)).trans (ih fun r hr => h r (List.mem_cons_of_mem _ hr))
  | forward r sub rest _ ih =>
    exact (if_neg (h _ List.mem_cons_self)).trans (ih fun r hr => h r (List.mem_cons_of_mem _ hr))

end

/-- Settles O49: a port answers by the entry the lookup finds, and in a table without overlaps that is the one
entry whose range holds the address. -/
theorem busLookup : Obligations.BusLookup := by
  unfold Obligations.BusLookup
  intro t a hwf given
  refine ⟨fun e he hl hu => ?entry, fun r sub h hl hu => ?forward, fun h => ?unmapped⟩
  case entry =>
    have hf : findEntry t a = .ok (e, a) := findEntry_of_mem_entries hwf he (inRange_iff.2 ⟨hl, hu⟩)
    refine ⟨hf, ?_, ?_⟩
    · rw [readPort, hf]; rfl
    · rw [writePort, hf]; rfl
  case forward =>
    have hf : findEntry t a = findEntry sub (given r) :=
      findEntry_of_mem_forwards hwf h (inRange_iff.2 ⟨hl, hu⟩)
    exact ⟨hf, by rw [readPort, hf, readPort], by rw [writePort, hf, writePort]⟩
  case unmapped =>
    have hf : findEntry t a = .error a := findEntry_of_not_inRange fun r hr hin => by
      have hout := h r hr
      rw [inRange_iff] at hin
      omega
    exact ⟨hf, by rw [readPort, hf], by rw [writePort, hf]⟩

end Sys2Proof.Machine
end
